-- ==== Sys2Proof/Word.lean ====
section
/-! DEFINITION. The word types of the block: the widths that `10_state.md`, `20_memory.md` and
`30_encoding.md` give to bytes, operands, command words, slot indices and slave addresses. -/

namespace Sys2Proof

/-- One byte of a bus transfer or of the host data buffer (R40). -/
abbrev Byte := BitVec 8

/-- A 16-bit unsigned operand, register address, byte count or response (R71, R74). -/
abbrev Word := BitVec 16

/-- A 40-bit command word `cmd[39:0]` (R70). -/
abbrev CmdWord := BitVec 40

/-- The 4-bit descriptor slot index `d` of a command word (R71). -/
abbrev Slot := BitVec 4

/-- A 7-bit slave address (R17, R41). -/
abbrev SlaveAddr := BitVec 7

end Sys2Proof
end

