-- ==== Sys2Proof/Config.lean ====
section
/-! DEFINITION. What is fixed for one block: the constants of R6, its OPEN parameters as plain data
(`Params`), the values the spec suggests for them, and the one free value of the spec that is not a
reply of an outside agent (`Config.freeAddress`). -/

namespace Sys2Proof

/-- `ADDR_MAX` (R6): the largest legal slave address. -/
def Config.addrMax : Word := 0x7F

/-- `CACHE_SENTINEL` (R6): the cache value meaning "unknown". -/
def Config.cacheSentinel : Word := 0xFFFF

/-- `RETRIES_MAX` (R6): the upper clamp of `bus.retries`. -/
def Config.retriesMax : Word := 8

/-- `TIMEOUT_MAX` (R6): the upper clamp of `bus.timeout`, in milliseconds. -/
def Config.timeoutMax : Word := 500

/-- `REG_SIZE_MAX` (R6): the code of 16-bit mode. -/
def Config.regSizeMax : Word := 2

/-- `BUF_SIZE` (R6, R43): the number of bytes of the host data buffer space. -/
def Config.bufSize : Nat := 65536

/-- The slave address INIT stores for an operand above `ADDR_MAX`: `UNSPEC(7)`, one free draw for each
execution (R100 corner case (a), D20). The argument is the state's draw counter. Nothing is known
of its values (`notes/assumptions/9.md`). -/
opaque Config.freeAddress : Nat → SlaveAddr

/-- The OPEN parameters of R6. A model takes them as arguments: they stand in the state as data that
no step changes, so that a statement about every state holds for every value of them
(`notes/assumptions/1.md`). -/
structure Params where
  /-- `N_DESC`, the number of descriptor slots, 1 to 16. -/
  nDesc : Nat
  /-- `RETRY_DELAY_MS`. -/
  retryDelayMs : Word
  /-- `SPEED_DEFAULT_KHZ`. -/
  speedDefaultKhz : Word
  /-- `SPEED_MAX_KHZ`. -/
  speedMaxKhz : Word
  /-- `RESET_SPEED`. -/
  resetSpeed : Word
  /-- `RESET_RETRIES`. -/
  resetRetries : BitVec 4
  /-- `RESET_TIMEOUT`. -/
  resetTimeout : BitVec 9
  /-- The select values, 2 to 0xFFFF, for which `ext_strategy` gives a relation (R78, R151). -/
  extSelects : List Word
  deriving DecidableEq, Repr

/-- The legal values of the OPEN parameters (R6). -/
def Params.legal (p : Params) : Bool :=
  decide (1 ≤ p.nDesc) && decide (p.nDesc ≤ 16) &&
  decide (1 ≤ p.speedDefaultKhz) && decide (p.speedDefaultKhz ≤ p.speedMaxKhz) &&
  decide (1 ≤ p.resetSpeed) && decide (p.resetSpeed ≤ p.speedMaxKhz) &&
  decide (p.resetRetries ≤ 8) && decide (p.resetTimeout ≤ 500) &&
  p.extSelects.all fun sel => decide (2 ≤ sel)

/-- `ext_strategy` gives a relation for this select (R151). -/
def Params.hasExt (p : Params) (sel : Word) : Bool :=
  p.extSelects.contains sel

/-- The values R6 suggests, which the spec marks as general knowledge, and no external strategy
(PRESUMED, `notes/assumptions/1.md`). -/
def Params.suggested : Params where
  nDesc := 16
  retryDelayMs := 1
  speedDefaultKhz := 100
  speedMaxKhz := 400
  resetSpeed := 100
  resetRetries := 3
  resetTimeout := 100
  extSelects := []

end Sys2Proof
end

