-- ==== Sys2Proof/Syntax.lean ====
section
/-! DEFINITION. The eleven host commands (R73), one constructor for each row of
`spec/opcode_table.json`. Operands are the raw unsigned fields `d`, `A`, `B` of the command word
(R71, R72): an out-of-range operand value is legal syntax, and the command's own rule clamps it or
fails on it. -/

namespace Sys2Proof

/-- A host command, with the operands its format has, in the order `d`, `A`, `B` (R81). -/
inductive Instr where
  /-- `INIT d, A, B`: initialise a slot with address `A` and register size `B` (R100). -/
  | init (d : Slot) (a b : Word)
  /-- `SETADDR d, A`: set the slave address (R101). -/
  | setaddr (d : Slot) (a : Word)
  /-- `SETRSZ d, A`: set the register size (R102). -/
  | setrsz (d : Slot) (a : Word)
  /-- `BINDW d, A`: bind a strategy select to the write direction (R103). -/
  | bindw (d : Slot) (a : Word)
  /-- `BINDR d, A`: bind a strategy select to the read direction (R104). -/
  | bindr (d : Slot) (a : Word)
  /-- `SETSPD A`: set the bus speed in kHz (R120). -/
  | setspd (a : Word)
  /-- `SETTMO A`: set the timeout in milliseconds (R121). -/
  | settmo (a : Word)
  /-- `SETRTY A`: set the retry count (R122). -/
  | setrty (a : Word)
  /-- `ISBUSY`: read the busy flag (R123). -/
  | isbusy
  /-- `WRITE d, A, B`: write `B` bytes of `BUF` at register address `A` (R141). -/
  | write (d : Slot) (a b : Word)
  /-- `READ d, A, B`: read `B` bytes into `BUF` from register address `A` (R142). -/
  | read (d : Slot) (a b : Word)
  deriving DecidableEq, Repr

/-- The descriptor slot a command names, if its format has one (R71: formats `D` and `T`). -/
def Instr.slot? : Instr → Option Slot
  | .init d _ _ => some d
  | .setaddr d _ => some d
  | .setrsz d _ => some d
  | .bindw d _ => some d
  | .bindr d _ => some d
  | .setspd _ => none
  | .settmo _ => none
  | .setrty _ => none
  | .isbusy => none
  | .write d _ _ => some d
  | .read d _ _ => some d

/-- The format-`T` commands, the two that start a transaction (R71). -/
def Instr.isTransaction : Instr → Bool
  | .init _ _ _ => false
  | .setaddr _ _ => false
  | .setrsz _ _ => false
  | .bindw _ _ => false
  | .bindr _ _ => false
  | .setspd _ => false
  | .settmo _ => false
  | .setrty _ => false
  | .isbusy => false
  | .write _ _ _ => true
  | .read _ _ _ => true

end Sys2Proof
end

