-- ==== Sys2Proof/WellFormed.lean ====
section
/-! DEFINITION. Well-formed commands. The types of `Instr` already bound every operand to its field;
the one check left is R79 (d): a command that takes a slot names one that exists, `d < N_DESC`. -/

namespace Sys2Proof

/-- R79 (d): the slot of a format `D` or `T` command is one of the `nDesc` slots. -/
def Instr.wellFormed (nDesc : Nat) : Instr → Bool
  | .init d _ _ => decide (d.toNat < nDesc)
  | .setaddr d _ => decide (d.toNat < nDesc)
  | .setrsz d _ => decide (d.toNat < nDesc)
  | .bindw d _ => decide (d.toNat < nDesc)
  | .bindr d _ => decide (d.toNat < nDesc)
  | .setspd _ => true
  | .settmo _ => true
  | .setrty _ => true
  | .isbusy => true
  | .write d _ _ => decide (d.toNat < nDesc)
  | .read d _ _ => decide (d.toNat < nDesc)

end Sys2Proof
end

