-- ==== Sys2Proof/Decode.lean ====
section
/-! DEFINITION. The 40-bit command word (R70 to R73, R79): the decoder, total on every word and
rejecting by name; the encoder, written from the same layout; and the opcode table as rows of match
and mask. R79 (d) (`d < N_DESC`) depends on a parameter of the block and is checked where the command
is accepted (`State.requireSlot`), not here. -/

namespace Sys2Proof

/-- Why a 40-bit word is no command (R79 (a) to (c)). -/
inductive Reject where
  /-- `op` is 0xA to 0xF (R79 (a)). -/
  | reservedOpcode
  /-- `op` is 0x3 and `B > 1` (R79 (b)). -/
  | bindDirection
  /-- The format requires a field to be 0 and it is not (R79 (c)). -/
  | reservedField
  deriving DecidableEq, Repr

/-- `cmd[39:36]` (R71). -/
def opField (w : CmdWord) : BitVec 4 := w.extractLsb' 36 4

/-- `cmd[35:32]` (R71). -/
def dField (w : CmdWord) : Slot := w.extractLsb' 32 4

/-- `cmd[31:16]` (R71). -/
def aField (w : CmdWord) : Word := w.extractLsb' 16 16

/-- `cmd[15:0]` (R71). -/
def bField (w : CmdWord) : Word := w.extractLsb' 0 16

/-- Accept `i` when its must-be-zero fields are zero (R79 (c)). -/
def acceptIfZero (zero : Bool) (i : Instr) : Except Reject Instr :=
  if zero then .ok i else .error .reservedField

/-- The command a word encodes, or why it encodes none (R73, R79 (a) to (c)). -/
def decode (w : CmdWord) : Except Reject Instr :=
  match (opField w).toNat with
  | 0x0 => .ok (.init (dField w) (aField w) (bField w))
  | 0x1 => acceptIfZero (bField w == 0) (.setaddr (dField w) (aField w))
  | 0x2 => acceptIfZero (bField w == 0) (.setrsz (dField w) (aField w))
  | 0x3 =>
    if bField w = 0 then .ok (.bindw (dField w) (aField w))
    else if bField w = 1 then .ok (.bindr (dField w) (aField w))
    else .error .bindDirection
  | 0x4 => acceptIfZero (dField w == 0 && bField w == 0) (.setspd (aField w))
  | 0x5 => acceptIfZero (dField w == 0 && bField w == 0) (.settmo (aField w))
  | 0x6 => acceptIfZero (dField w == 0 && bField w == 0) (.setrty (aField w))
  | 0x7 => acceptIfZero (dField w == 0 && aField w == 0 && bField w == 0) .isbusy
  | 0x8 => .ok (.write (dField w) (aField w) (bField w))
  | 0x9 => .ok (.read (dField w) (aField w) (bField w))
  | _ => .error .reservedOpcode

/-- The word `o d AAAA BBBB` of four fields (R71). -/
def commandWord (op : BitVec 4) (d : Slot) (a b : Word) : CmdWord :=
  (op ++ d ++ a ++ b : BitVec (4 + 4 + 16 + 16))

/-- The word of a command (R71, R73). -/
def encode : Instr → CmdWord
  | .init d a b => commandWord 0x0 d a b
  | .setaddr d a => commandWord 0x1 d a 0
  | .setrsz d a => commandWord 0x2 d a 0
  | .bindw d a => commandWord 0x3 d a 0
  | .bindr d a => commandWord 0x3 d a 1
  | .setspd a => commandWord 0x4 0 a 0
  | .settmo a => commandWord 0x5 0 a 0
  | .setrty a => commandWord 0x6 0 a 0
  | .isbusy => commandWord 0x7 0 0 0
  | .write d a b => commandWord 0x8 d a b
  | .read d a b => commandWord 0x9 d a b

/-- A row of `spec/opcode_table.json`. -/
structure OpcodeRow where
  mnemonic : String
  matchBits : CmdWord
  mask : CmdWord
  deriving DecidableEq, Repr

/-- `w` is a word of the row. -/
def OpcodeRow.covers (r : OpcodeRow) (w : CmdWord) : Bool :=
  w &&& r.mask == r.matchBits

/-- The row of `spec/opcode_table.json` a command belongs to. -/
def Instr.row : Instr → OpcodeRow
  | .init _ _ _ => ⟨"INIT", 0x0000000000, 0xF000000000⟩
  | .setaddr _ _ => ⟨"SETADDR", 0x1000000000, 0xF00000FFFF⟩
  | .setrsz _ _ => ⟨"SETRSZ", 0x2000000000, 0xF00000FFFF⟩
  | .bindw _ _ => ⟨"BINDW", 0x3000000000, 0xF00000FFFF⟩
  | .bindr _ _ => ⟨"BINDR", 0x3000000001, 0xF00000FFFF⟩
  | .setspd _ => ⟨"SETSPD", 0x4000000000, 0xFF0000FFFF⟩
  | .settmo _ => ⟨"SETTMO", 0x5000000000, 0xFF0000FFFF⟩
  | .setrty _ => ⟨"SETRTY", 0x6000000000, 0xFF0000FFFF⟩
  | .isbusy => ⟨"ISBUSY", 0x7000000000, 0xFFFFFFFFFF⟩
  | .write _ _ _ => ⟨"WRITE", 0x8000000000, 0xF000000000⟩
  | .read _ _ _ => ⟨"READ", 0x9000000000, 0xF000000000⟩

/-- The rows of `spec/opcode_table.json`, in its order. -/
def opcodeTable : List OpcodeRow :=
  [Instr.row (.init 0 0 0), Instr.row (.setaddr 0 0), Instr.row (.setrsz 0 0),
    Instr.row (.bindw 0 0), Instr.row (.bindr 0 0)] ++
  [Instr.row (.setspd 0), Instr.row (.settmo 0), Instr.row (.setrty 0), Instr.row .isbusy] ++
  [Instr.row (.write 0 0 0), Instr.row (.read 0 0 0)]

/-- What the decoder reads from `nbits` bits `w` numbered as `spec/opcode_table.json` numbers them:
the table's one word is the 40-bit command word itself (R70), bits above `nbits` being 0. -/
def decodeTableWord (nbits w : Nat) : Option Instr :=
  if nbits ≤ 40 then (decode (BitVec.ofNat 40 (w % 2 ^ nbits))).toOption else none

end Sys2Proof
end

