-- ==== Sys2Proof/Machine/State.lean ====
section
/-! DEFINITION. The state of the block (R10): Bus State, the Slave Descriptor file and the sequencer
registers; and, as the model's own fields, what stands outside the block and its rules depend on
(R29, R30, R65): the host's data buffer, the inputs of the host, the replies of the transport and of
external strategies, and the record of what the block put out. All of it is plain data. -/

namespace Sys2Proof.Machine

/-- Bus State, one instance (R11 to R14). -/
structure BusState where
  /-- Effective bus speed in kHz (R11). -/
  speed : BitVec 16
  /-- Extra attempts after the first failed one, 0 to 8 (R12). -/
  retries : BitVec 4
  /-- Milliseconds, 0 to 500, acted on by nothing in the block (R13). -/
  timeout : BitVec 9
  /-- A transaction is in flight (R14). -/
  busy : Bool
  deriving DecidableEq, Repr

/-- One slot of the Slave Descriptor file (R16 to R21). -/
structure SlaveDescriptor where
  /-- The slave address (R17). -/
  address : BitVec 7
  /-- 0 NONE, 1 8-bit, 2 16-bit (R18, R76). -/
  registerSize : BitVec 2
  /-- Where the slave's pointer is believed to stand; 0xFFFF is the sentinel (R19). -/
  cache : BitVec 16
  /-- 0 OK, 1 BUSY, 2 NACK (R20, R75). -/
  status : BitVec 2
  /-- The strategy select of the write direction (R21). -/
  wrSel : BitVec 16
  /-- The strategy select of the read direction (R21). -/
  rdSel : BitVec 16
  deriving DecidableEq, Repr

/-- The direction of a transaction (R77). -/
inductive Direction where
  | write
  | read
  deriving DecidableEq, Repr

/-- The sixteen values of `seq.phase` (R24). -/
inductive Phase where
  | idle
  | attStart
  | wBegin
  | wAhi
  | wAlo
  | wData
  | wEnd
  | rStart
  | rAhi
  | rAlo
  | rEnd
  | rReq
  | rDrain
  | ext
  | attFail
  | release
  deriving DecidableEq, Repr

/-- The sequencer registers of the single in-flight transaction (R23). -/
structure Sequencer where
  /-- Where the transaction stands: the block's program counter (R24). -/
  phase : Phase
  /-- Descriptor slot of the transaction. -/
  d : BitVec 4
  /-- Direction of the transaction. -/
  dir : Direction
  /-- Strategy select copied from the slot at admission. -/
  sel : BitVec 16
  /-- Requested register address. -/
  reg : BitVec 16
  /-- Requested byte count. -/
  n : BitVec 16
  /-- Additional attempts still allowed. -/
  retry : BitVec 4
  /-- Index of the next data byte. -/
  i : BitVec 16
  /-- Result of the transaction: an attempt succeeded. -/
  ack : Bool
  deriving DecidableEq, Repr

/-- One event of the trace an outside observer sees (R65), with the value the call returned. -/
inductive Event where
  /-- `BEGIN(a)`. -/
  | begin (a : SlaveAddr)
  /-- `WB(b) -> ok`. -/
  | wb (b : Byte) (ok : Bool)
  /-- `END(stop) -> st`. -/
  | close (stop : Bool) (st : Word)
  /-- `REQ(a, n) -> cnt`. -/
  | req (a : SlaveAddr) (n cnt : Word)
  /-- `RB -> b`. -/
  | rb (b : Byte)
  /-- `CLK(hz)`. -/
  | clk (hz : BitVec 32)
  /-- `DELAY(ms)`. -/
  | delay (ms : Word)
  deriving DecidableEq, Repr

/-- What the addressing decision of `W_BEGIN` or `R_START` says comes next (R171, R191, R211): both
register-address bytes, the low one alone, or none. -/
inductive Addressing where
  | high
  | low
  | skip
  deriving DecidableEq, Repr

/-- A transport call of a micro-step, with the operands it was made with (R53 to R57, R59). -/
inductive Call where
  /-- `T.begin(a)`, with the addressing decision of its micro-step. -/
  | begin (a : SlaveAddr) (next : Addressing)
  /-- `T.write(b)`. -/
  | write (b : Byte)
  /-- `T.end(stop)`. -/
  | close (stop : Bool)
  /-- `T.request(a, n)`. -/
  | request (a : SlaveAddr) (n : Word)
  /-- `T.read()`. -/
  | read
  /-- `T.delay(ms)`. -/
  | delay (ms : Word)
  deriving DecidableEq, Repr

/-- What one run of an external strategy did, as R151 gives its shape: the new slot content, the bytes
it wrote to `BUF` in order, the transport events it caused, and the boolean it returned. -/
structure ExtResult where
  slot : SlaveDescriptor
  bufWrites : List (Word × Byte)
  events : List Event
  success : Bool
  deriving DecidableEq, Repr

/-- The two contexts of the host (R243). The block cannot tell them apart: the context only says when
the command reaches the command port. -/
inductive Context where
  /-- The main context, which waits for the response of a transaction before it issues again. -/
  | main
  /-- The re-entrant context, whose command falls between two micro-steps (R149). -/
  | reentrant
  deriving DecidableEq, Repr

/-- One thing the outside world does, in the total order of R60. -/
inductive Input where
  /-- The host presents a command word on the command port. -/
  | command (ctx : Context) (w : CmdWord)
  /-- The host changes one byte of its data buffer (R43). -/
  | hostWrite (index : Word) (b : Byte)
  /-- The block makes one move of its own, a micro-step unless SETSPD waits, before the next input. -/
  | micro
  /-- The transport will return one more value (R52): to a call that is waiting, or to a later one. -/
  | answer (v : Word)
  /-- One more result of an external strategy (R151), for a run that is waiting or for a later one. -/
  | strategyResult (r : ExtResult)
  /-- Reset (R260). -/
  | reset
  deriving DecidableEq, Repr

/-- Memory as a list of address and byte, in the canonical form of `Memory.wf`. -/
abbrev Memory := List Host.Cell

/-- Why a step stops with a fault: it never does. "the core never escalates to a fatal abort and never
throws" (R246), and no rule of the spec names a trap; a transport call that never returns is a wait
(`State.transportCall`), not a fault. Safe: no step answers a fault (`notes/assumptions/18.md`). -/
inductive Fault : Type
  deriving DecidableEq, Repr

/-- Why a step is refused. -/
inductive Refusal where
  /-- An instruction of the table that has no meaning in this model. Raised by `exec`'s arms only, and by
  none of them. Safe. -/
  | notModelled (mnemonic : String)
  /-- A command word that R79 (a) to (c) calls illegal, "A model refuses it". Raised by
  `State.acceptCommand`. Safe. -/
  | illegalWord (why : Reject)
  /-- A command that names a slot `d >= N_DESC` (R79 (d)). Raised by `State.requireSlot`. Safe. -/
  | slotAbsent (d : Slot)
  /-- Phase `EXT` reached with a select for which `ext_strategy` gives no relation: the model "refuses a
  transaction that reaches `EXT` with it" (R151, U2). Raised by `State.microExt`. Safe. -/
  | externalStrategyAbsent (sel : Word)
  deriving DecidableEq, Repr

/-- The state of the machine. -/
structure State where
  /-- The OPEN parameters of the block (R6); no step changes them. -/
  params : Params
  /-- Bus State (R11 to R14). -/
  bus : BusState
  /-- The Slave Descriptor file (R16); slots from `params.nDesc` on do not exist and no command reaches
  them. -/
  desc : Vector SlaveDescriptor 16
  /-- The sequencer registers (R23). -/
  seq : Sequencer
  /-- The transport call of the micro-step in progress, if it has been made and has not returned (R52, R148;
  the model's own field, `notes/assumptions/17.md`). -/
  call : Option Call
  /-- The effective speed of a SETSPD whose `T.set_clock` has not returned (R52, R58, R120), if there is
  one (the model's own field, `notes/assumptions/7.md`). -/
  clockCall : Option Word
  /-- `BUF`, the host's data buffer (R43). -/
  buf : Memory
  /-- What the host and the world will do, in order (the model's own field). -/
  inputs : List Input
  /-- What the transport calls will return, in call order (the model's own field). -/
  replies : List Word
  /-- What the runs of external strategies will do, in order (the model's own field). -/
  extReplies : List ExtResult
  /-- The events so far, oldest first (R65). -/
  trace : List Event
  /-- The response words so far, oldest first (R74). -/
  responses : List Word
  /-- How many values of `Config.freeAddress` have been drawn (the model's own field). -/
  draws : Nat
  deriving DecidableEq, Repr

/-- A descriptor slot after reset: the spec gives no value (R31), so the model names one
(DESIGN CHOICE, `notes/assumptions/2.md`). -/
def SlaveDescriptor.reset : SlaveDescriptor where
  address := 0
  registerSize := 0
  cache := 0xFFFF
  status := 0
  wrSel := 0
  rdSel := 1

/-- Bus State after reset (R31). -/
def BusState.reset (p : Params) : BusState where
  speed := p.resetSpeed
  retries := p.resetRetries
  timeout := p.resetTimeout
  busy := false

/-- The sequencer after reset: `IDLE` (R31); the spec gives the other registers no value, so the model
names one (DESIGN CHOICE, `notes/assumptions/3.md`). -/
def Sequencer.reset : Sequencer where
  phase := .idle
  d := 0
  dir := .write
  sel := 0
  reg := 0
  n := 0
  retry := 0
  i := 0
  ack := false

/-- The machine right after reset (R31, R260), nothing pending and nothing put out yet. -/
def State.reset : State where
  params := Params.suggested
  bus := BusState.reset Params.suggested
  desc := Vector.replicate 16 SlaveDescriptor.reset
  seq := Sequencer.reset
  call := none
  clockCall := none
  buf := []
  inputs := []
  replies := []
  extReplies := []
  trace := []
  responses := []
  draws := 0

end Sys2Proof.Machine
end

