-- ==== Sys2Proof/Machine/Flags.lean ====
section
/-! DEFINITION. The flags of the block (R27): the global busy flag and the per-slot status, with their
codes and the words that carry them. There are no arithmetic condition codes. -/

namespace Sys2Proof.Machine

/-- `OK` = 0 (R75). -/
def statusOk : BitVec 2 := 0

/-- `BUSY` = 1 (R75). -/
def statusBusy : BitVec 2 := 1

/-- `NACK` = 2 (R75). -/
def statusNack : BitVec 2 := 2

/-- The status at release: OK if an attempt succeeded, else NACK (R146). -/
def statusOfAck (ack : Bool) : BitVec 2 := if ack then statusOk else statusNack

/-- A status code as a response word, zero-extended (R74). -/
def statusWord (st : BitVec 2) : Word := st.setWidth 16

/-- A boolean as a response word: 0x0001 for true, 0x0000 for false (R74). -/
def boolWord (b : Bool) : Word := if b then 1 else 0

/-- `bus.busy <- v` (R14). -/
def State.setBusy (v : Bool) (s : State) : State :=
  { s with bus := { s.bus with busy := v } }

end Sys2Proof.Machine
end

