-- ==== Sys2Proof/Machine/Operands.lean ====
section
/-! DEFINITION. Operand values (R72): the range checks, the stored values, the clamps of the bus
commands and the bytes of a register address. All operands are unsigned 16-bit values and every check
is made on all 16 bits. -/

namespace Sys2Proof.Machine

/-- The address operand of INIT and SETADDR is valid: `A <= 0x7F` (R72, R100, R101). -/
def addressValid (a : Word) : Bool := decide (a ≤ Config.addrMax)

/-- The address stored for a valid operand: `A[6:0]` (R72). -/
def storedAddress (a : Word) : SlaveAddr := a.extractLsb' 0 7

/-- The size operand of INIT and SETRSZ is valid: at most the maximum defined mode (R72, R76). -/
def sizeValid (a : Word) : Bool := decide (a ≤ Config.regSizeMax)

/-- The size stored: bits `[1:0]` of a valid operand, 16-bit mode for any other (R100, R102). -/
def storedSize (a : Word) : BitVec 2 :=
  if sizeValid a then a.extractLsb' 0 2 else 2

/-- `min(a, b)` of two unsigned values (R7). -/
def minWord (a b : Word) : Word := if a ≤ b then a else b

/-- The effective speed of SETSPD: 0 maps to the default tier, values above the fastest tier clamp to
it, any other passes through (R120). -/
def effectiveSpeed (p : Params) (a : Word) : Word :=
  if a = 0 then p.speedDefaultKhz
  else if p.speedMaxKhz < a then p.speedMaxKhz
  else a

/-- The argument of `T.set_clock`: `zext_32(eff) * 1000` hertz (R120, R176 (a)). -/
def clockHz (eff : Word) : BitVec 32 := eff.setWidth 32 * 1000

/-- The effective timeout of SETTMO: `min(A, 500)` (R121). -/
def effectiveTimeout (a : Word) : Word := minWord a Config.timeoutMax

/-- The effective count of SETRTY: `min(A, 8)` (R122). -/
def effectiveRetries (a : Word) : Word := minWord a Config.retriesMax

/-- `seq.reg[15:8]`, the first of two register-address bytes (R44, R83). -/
def regHigh (reg : Word) : Byte := reg.extractLsb' 8 8

/-- `seq.reg[7:0]`, the last or only register-address byte (R44, R83). -/
def regLow (reg : Word) : Byte := reg.extractLsb' 0 8

end Sys2Proof.Machine
end

