-- ==== Sys2Proof/Machine/Ops.lean ====
section
/-! DEFINITION. The operations the meanings share: bytes of `BUF`, slots of the descriptor file, the
sequencer registers, responses and events, the transport primitives, and the block's counterpart of
taking an exception and returning from one (R237, R238): `State.raiseAttemptFail` and
`State.release`. -/

namespace Sys2Proof.Machine

/-- The answer of one step of this machine. -/
abbrev Result := Host.Outcome State Fault Refusal

/-! ### The data buffer -/

/-- What a byte of `BUF` that nothing has written reads as (DESIGN CHOICE,
`notes/assumptions/4.md`). -/
def Memory.unlisted : Byte := 0

/-- `MemRead(BUF + a, 1)` (R7). -/
def Memory.read : Memory → Nat → Byte
  | [], _ => Memory.unlisted
  | c :: m, a => if c.1 = a then c.2 else Memory.read m a

/-- The cell list for byte `b` at `a` in front of `m`, left out when `a` reads so anyway. -/
def Memory.cons (a : Nat) (b : Byte) (m : Memory) : Memory :=
  if b = Memory.unlisted then m else (a, b) :: m

/-- `MemWrite(BUF + a, 1, b)` (R7), keeping the canonical form. -/
def Memory.write : Memory → Nat → Byte → Memory
  | [], a, b => Memory.cons a b []
  | c :: m, a, b =>
    if a < c.1 then Memory.cons a b (c :: m)
    else if c.1 = a then Memory.cons a b m
    else c :: Memory.write m a b

/-- The canonical form from address `lo` on: addresses strictly rising, inside `BUF` (R43), and no
listed byte equal to what an unlisted one reads as. -/
def Memory.wfFrom : Nat → Memory → Bool
  | _, [] => true
  | lo, c :: m =>
    decide (lo ≤ c.1) && decide (c.1 < Config.bufSize) && decide (c.2 ≠ Memory.unlisted) &&
      Memory.wfFrom (c.1 + 1) m

/-- The canonical form of a memory. -/
def Memory.wf (m : Memory) : Bool := Memory.wfFrom 0 m

/-- The bytes of a list of writes put into memory, in order. -/
def Memory.writeAll (m : Memory) : List (Word × Byte) → Memory
  | [] => m
  | p :: ps => Memory.writeAll (Memory.write m p.1.toNat p.2) ps

/-- `MemWrite(BUF + i, 1, b)`. -/
def State.writeBuf (i : Word) (b : Byte) (s : State) : State :=
  { s with buf := Memory.write s.buf i.toNat b }

/-! ### Descriptor slots and sequencer registers -/

/-- `desc[d]`. -/
def State.slot (s : State) (d : Slot) : SlaveDescriptor := s.desc[d.toNat]'(d.isLt)

/-- `desc[d] <- x`. -/
def State.setSlot (d : Slot) (x : SlaveDescriptor) (s : State) : State :=
  { s with desc := s.desc.set d.toNat x d.isLt }

/-- `desc[d].status <- v`. -/
def State.setStatus (d : Slot) (v : BitVec 2) (s : State) : State :=
  s.setSlot d { s.slot d with status := v }

/-- `seq.phase <- p`. -/
def State.setPhase (p : Phase) (s : State) : State := { s with seq := { s.seq with phase := p } }

/-- `seq.i <- v`. -/
def State.setIndex (v : Word) (s : State) : State := { s with seq := { s.seq with i := v } }

/-- `seq.retry <- v`. -/
def State.setRetry (v : BitVec 4) (s : State) : State := { s with seq := { s.seq with retry := v } }

/-- `seq.ack <- v`. -/
def State.setAck (v : Bool) (s : State) : State := { s with seq := { s.seq with ack := v } }

/-- A command that takes a slot is accepted only when the slot exists (R79 (d)); the check comes before
anything else the command looks at (R236). -/
def State.requireSlot (d : Slot) (s : State) (r : Result) : Result :=
  if d.toNat < s.params.nDesc then r else .refused (.slotAbsent d)

/-! ### Responses and events -/

/-- `rsp <- v` (R74). -/
def State.respond (v : Word) (s : State) : State := { s with responses := s.responses ++ [v] }

/-- One more event of the trace (R65). -/
def State.emit (e : Event) (s : State) : State := { s with trace := s.trace ++ [e] }

/-! ### The transport primitives (R52 to R59) -/

/-- The 1-bit success of `T.write` a reply stands for: zero against non-zero (R54). -/
def replyOk (v : Word) : Bool := decide (v ≠ 0)

/-- The byte of `T.read` a reply stands for. -/
def replyByte (v : Word) : Byte := v.extractLsb' 0 8

/-- The event of a call that returned `v` (R65). -/
def Call.event : Call → Word → Event
  | .begin a _, _ => .begin a
  | .write b, v => .wb b (replyOk v)
  | .close stop, v => .close stop v
  | .request a n, v => .req a n v
  | .read, v => .rb (replyByte v)
  | .delay ms, _ => .delay ms

/-- The addressing decision that a call carries. -/
def Call.next : Call → Addressing
  | .begin _ next => next
  | .write _ | .close _ | .request _ _ | .read | .delay _ => .skip

/-- A call of the sequencer is made, or has returned. -/
def State.setCall (c : Option Call) (s : State) : State := { s with call := c }

/-- A transport call of a micro-step blocks until the transport replies (R52). The replies are an input: `k`
goes on with the value returned. While there is none the call `c` stands in `State.call`, made and not
returned: this is the hang of R148. The call that stands there is the one that returns, so its operands are
those it was made with, whatever the host has changed since (`notes/assumptions/17.md`); what a nested command
may do meanwhile is for `State.accepts` to say. Whether the transport answers again later, after a reset too, is
for the inputs to say (`Input.answer`; `notes/assumptions/5.md`, `13.md`). -/
def State.transportCall (s : State) (c : Call) (k : Call → Word → State → State) : Result :=
  match s.replies with
  | [] => .next (s.setCall (some (s.call.getD c)))
  | v :: vs =>
    .next (k (s.call.getD c) v
      (State.emit ((s.call.getD c).event v) { s with replies := vs, call := none }))

/-- `T.begin(a)` (R53), in a micro-step whose addressing decision is `next`. It returns nothing: the value of
the reply is not looked at. -/
def State.tBegin (s : State) (a : SlaveAddr) (next : Addressing) (k : Addressing → State → State) :
    Result :=
  s.transportCall (.begin a next) fun c _ => k c.next

/-- `ok <- T.write(b)` (R54). -/
def State.tWrite (s : State) (b : Byte) (k : Bool → State → State) : Result :=
  s.transportCall (.write b) fun _ v => k (replyOk v)

/-- `st <- T.end(stop)` (R55). -/
def State.tEnd (s : State) (stop : Bool) (k : Word → State → State) : Result :=
  s.transportCall (.close stop) fun _ v => k v

/-- `cnt <- T.request(a, n)` (R56). -/
def State.tRequest (s : State) (a : SlaveAddr) (n : Word) (k : Word → State → State) : Result :=
  s.transportCall (.request a n) fun _ v => k v

/-- `b <- T.read()` (R57). -/
def State.tRead (s : State) (k : Byte → State → State) : Result :=
  s.transportCall .read fun _ v => k (replyByte v)

/-- `T.delay(ms)` (R59): an event, no time. -/
def State.tDelay (s : State) (ms : Word) (k : State → State) : Result :=
  s.transportCall (.delay ms) fun _ _ => k

/-- `T.set_clock(hz)` (R58), called by SETSPD's command step. It returns nothing: the value of the reply is
not looked at. It waits in the same state while a call of the sequencer is outstanding, for calls are made one
at a time (R52), and while no reply is pending. -/
def State.tSetClock (s : State) (hz : BitVec 32) (k : State → State) : Result :=
  match s.call, s.replies with
  | none, _ :: vs => .next (k (State.emit (.clk hz) { s with replies := vs }))
  | none, [] => .next s
  | some _, _ => .next s

/-! ### Failure and return (R237, R238) -/

/-- The causes of a failed attempt (R231). "the hardware records none of them". -/
inductive Cause where
  | zeroCount
  | addrHi
  | addrLo
  | dataWrite
  | close
  | addrClose
  | reqZero
  | ext
  deriving DecidableEq, Repr

/-- `raise AttemptFail(cause)` (R7, R231, R237): nothing is saved, the cause is dropped, no transport
call is made, and control goes to `ATT_FAIL`. -/
def State.raiseAttemptFail (_cause : Cause) (s : State) : State := s.setPhase .attFail

/-- An attempt succeeded: `seq.ack <- 1; seq.phase <- RELEASE` (R144). -/
def State.attemptSucceeds (s : State) : State := (s.setAck true).setPhase .release

/-- Phase `RELEASE` (R146), the block's "trap return" (R238): the lock is released, the status of the
slot set and returned, in one step. R23 leaves what the other sequencer registers hold in `IDLE`
unspecified: that they keep the values of the transaction that ended is the model's choice (DESIGN CHOICE,
`notes/assumptions/3.md`). -/
def State.release (s : State) : State :=
  (((s.setBusy false).setStatus s.seq.d (statusOfAck s.seq.ack)).respond
    (statusWord (statusOfAck s.seq.ack))).setPhase .idle

end Sys2Proof.Machine
end

