-- ==== Sys2Proof/Machine/Bus.lean ====
section
/-! DEFINITION. The Bus State commands SETSPD, SETTMO, SETRTY, ISBUSY (R120 to R124). None is guarded
by `bus.busy`, none touches a slot, and only SETSPD calls a transport primitive. -/

namespace Sys2Proof.Machine

/-- `bus.speed <- v`. -/
def State.setSpeed (v : Word) (s : State) : State := { s with bus := { s.bus with speed := v } }

/-- `bus.timeout <- v`. -/
def State.setTimeout (v : BitVec 9) (s : State) : State :=
  { s with bus := { s.bus with timeout := v } }

/-- `bus.retries <- v`. -/
def State.setRetries (v : BitVec 4) (s : State) : State :=
  { s with bus := { s.bus with retries := v } }

/-- `T.set_clock` of a SETSPD begins or ends. -/
def State.setClockCall (c : Option Word) (s : State) : State := { s with clockCall := c }

/-- The call of `T.set_clock` in SETSPD and what follows it (R120): when it returns, SETSPD responds with the
effective speed; until then the block waits (R52). -/
def State.finishSetspd (eff : Word) (s : State) : Result :=
  s.tSetClock (clockHz eff) fun t => (t.setClockCall none).respond eff

/-- `SETSPD A` (R120): the speed is stored, then `T.set_clock` called. A call that has not returned stays in
`clockCall` (`notes/assumptions/7.md`). -/
def execSetspd (a : Word) (s : State) : Result :=
  State.finishSetspd (effectiveSpeed s.params a)
    ((s.setSpeed (effectiveSpeed s.params a)).setClockCall (some (effectiveSpeed s.params a)))

/-- `SETTMO A` (R121). -/
def execSettmo (a : Word) (s : State) : Result :=
  .next ((s.setTimeout ((effectiveTimeout a).extractLsb' 0 9)).respond (effectiveTimeout a))

/-- `SETRTY A` (R122). -/
def execSetrty (a : Word) (s : State) : Result :=
  .next ((s.setRetries ((effectiveRetries a).extractLsb' 0 4)).respond (effectiveRetries a))

/-- `ISBUSY` (R123): a pure read. -/
def execIsbusy (s : State) : Result := .next (s.respond (boolWord s.bus.busy))

end Sys2Proof.Machine
end

