-- ==== Sys2Proof/Machine/Descriptor.lean ====
section
/-! DEFINITION. The Slave Descriptor commands INIT, SETADDR, SETRSZ, BINDW, BINDR (R100 to R105).
None of them looks at `bus.busy` and none calls a transport primitive. -/

namespace Sys2Proof.Machine

/-- The address INIT stores (R100): `A[6:0]`, or a free draw when `A > 0x7F`. -/
def State.initAddress (s : State) (a : Word) : SlaveAddr :=
  if addressValid a then storedAddress a else Config.freeAddress s.draws

/-- The draw counter after INIT: it advances when the address was drawn. -/
def State.countDraw (a : Word) (s : State) : State :=
  { s with draws := if addressValid a then s.draws else s.draws + 1 }

/-- The content INIT gives a slot (R100). -/
def State.initSlot (s : State) (a b : Word) : SlaveDescriptor where
  address := s.initAddress a
  registerSize := storedSize b
  cache := Config.cacheSentinel
  status := statusOk
  wrSel := 0
  rdSel := 1

/-- `INIT d, A, B` (R100). -/
def execInit (d : Slot) (a b : Word) (s : State) : Result :=
  s.requireSlot d (.next (((s.setSlot d (s.initSlot a b)).countDraw a).respond 0))

/-- `SETADDR d, A` (R101): out of range fails and leaves the slot unchanged. -/
def execSetaddr (d : Slot) (a : Word) (s : State) : Result :=
  s.requireSlot d (.next (
    if addressValid a then
      (s.setSlot d { s.slot d with address := storedAddress a }).respond (boolWord true)
    else s.respond (boolWord false)))

/-- `SETRSZ d, A` (R102): out of range fails and makes the mode 16-bit. -/
def execSetrsz (d : Slot) (a : Word) (s : State) : Result :=
  s.requireSlot d (.next (
    (s.setSlot d { s.slot d with registerSize := storedSize a }).respond (boolWord (sizeValid a))))

/-- `BINDW d, A` (R103). -/
def execBindw (d : Slot) (a : Word) (s : State) : Result :=
  s.requireSlot d (.next ((s.setSlot d { s.slot d with wrSel := a }).respond 0))

/-- `BINDR d, A` (R104). -/
def execBindr (d : Slot) (a : Word) (s : State) : Result :=
  s.requireSlot d (.next ((s.setSlot d { s.slot d with rdSel := a }).respond 0))

end Sys2Proof.Machine
end

