-- ==== Sys2Proof/Machine/Transaction.lean ====
section
/-! DEFINITION. The transaction commands WRITE and READ (R140 to R143). Their command step is the
admission, an atomic test-and-set of `bus.busy`; the attempts and the release are micro-steps of the
sequencer (`Machine/Engine.lean`). -/

namespace Sys2Proof.Machine

/-- The strategy select bound to a direction (R143). -/
def SlaveDescriptor.select (x : SlaveDescriptor) : Direction → Word
  | .write => x.wrSel
  | .read => x.rdSel

/-- The sequencer registers an admission loads (R143); `seq.i` and `seq.ack` keep what they held. -/
def State.loadSequencer (d : Slot) (dir : Direction) (a b : Word) (s : State) : State :=
  { s with seq := { s.seq with
      phase := .attStart
      d := d
      dir := dir
      sel := (s.slot d).select dir
      reg := a
      n := b
      retry := s.bus.retries } }

/-- Admission (R143): rejected BUSY while a transaction is in flight, else the lock is taken and the
sequencer loaded, with no response yet. -/
def State.admission (d : Slot) (dir : Direction) (a b : Word) (s : State) : State :=
  if s.bus.busy then (s.setStatus d statusBusy).respond (statusWord statusBusy)
  else (s.loadSequencer d dir a b).setBusy true

/-- `WRITE d, A, B` (R141). -/
def execWrite (d : Slot) (a b : Word) (s : State) : Result :=
  s.requireSlot d (.next (s.admission d .write a b))

/-- `READ d, A, B` (R142). -/
def execRead (d : Slot) (a b : Word) (s : State) : Result :=
  s.requireSlot d (.next (s.admission d .read a b))

end Sys2Proof.Machine
end

