-- ==== Sys2Proof/Machine/Dispatch.lean ====
section
/-! DEFINITION. One arm for each command: its command step (R7, R149). -/

namespace Sys2Proof.Machine

def exec (i : Instr) (s : State) : Host.Outcome State Fault Refusal :=
  match i with
  | .init d a b => Sys2Proof.Machine.execInit d a b s
  | .setaddr d a => Sys2Proof.Machine.execSetaddr d a s
  | .setrsz d a => Sys2Proof.Machine.execSetrsz d a s
  | .bindw d a => Sys2Proof.Machine.execBindw d a s
  | .bindr d a => Sys2Proof.Machine.execBindr d a s
  | .setspd a => Sys2Proof.Machine.execSetspd a s
  | .settmo a => Sys2Proof.Machine.execSettmo a s
  | .setrty a => Sys2Proof.Machine.execSetrty a s
  | .isbusy => Sys2Proof.Machine.execIsbusy s
  | .write d a b => Sys2Proof.Machine.execWrite d a b s
  | .read d a b => Sys2Proof.Machine.execRead d a b s

end Sys2Proof.Machine
end

