-- ==== Sys2Proof/Machine/Cache.lean ====
section
/-! DEFINITION. `register_address_cache` (R170 to R175): the one decision it drives and the two
operations on it. -/

namespace Sys2Proof.Machine

/-- `need_addressing(d, reg)` (R171): on all 16 bits in every mode, with no special case for the
sentinel. -/
def State.needAddressing (s : State) (d : Slot) (reg : Word) : Bool :=
  decide ((s.slot d).registerSize ≠ 0) && decide (reg ≠ (s.slot d).cache)

/-- The addressing decision of `W_BEGIN` and `R_START` with the number of address bytes, by the mode
(R171, R191, R211). -/
def State.addressing (s : State) (d : Slot) (reg : Word) : Addressing :=
  if s.needAddressing d reg then (if (s.slot d).registerSize = 2 then .high else .low) else .skip

/-- `cache_set(d, reg)` (R172). -/
def State.cacheSet (d : Slot) (reg : Word) (s : State) : State :=
  s.setSlot d { s.slot d with cache := reg }

/-- `cache_inc(d)`, modulo 2^16 in every mode (R173). -/
def State.cacheInc (d : Slot) (s : State) : State :=
  s.setSlot d { s.slot d with cache := (s.slot d).cache + 1 }

end Sys2Proof.Machine
end

