-- ==== Sys2Proof/Machine/ReadStrategy.lean ====
section
/-! DEFINITION. `read_strategy_engine`, the default read strategy (R210 to R218): one micro-step for
each phase `R_START` to `R_DRAIN`. -/

namespace Sys2Proof.Machine

/-- The call of `R_START` and what follows it (R211), by the addressing decision. -/
def State.openForRead (next : Addressing) (s : State) : Result :=
  s.tBegin (s.slot s.seq.d).address next fun next t =>
    t.setPhase (match next with | .high => .rAhi | .low => .rAlo | .skip => .rReq)

/-- Phase `R_START` (R211): the zero-count check and the addressing decision; a transmission is opened
only when there are address bytes to send. Once it is being opened the decision, which the cache set before the
call would turn, is not taken again: the micro-step waits for `T.begin` (R148). -/
def State.microRStart (s : State) : Result :=
  if s.seq.n = 0 then .next (s.raiseAttemptFail .zeroCount)
  else if s.call.isSome then s.openForRead .skip
  else if s.needAddressing s.seq.d s.seq.reg then
    (s.cacheSet s.seq.d s.seq.reg).openForRead (s.addressing s.seq.d s.seq.reg)
  else .next (s.setPhase .rReq)

/-- Phase `R_AHI` (R212): the high register-address byte. -/
def State.microRAhi (s : State) : Result :=
  s.tWrite (regHigh s.seq.reg) fun ok t =>
    if ok then t.setPhase .rAlo else t.raiseAttemptFail .addrHi

/-- Phase `R_ALO` (R213): the low register-address byte. -/
def State.microRAlo (s : State) : Result :=
  s.tWrite (regLow s.seq.reg) fun ok t =>
    if ok then t.setPhase .rEnd else t.raiseAttemptFail .addrLo

/-- Phase `R_END` (R214): the close of the addressing write with a repeated start. -/
def State.microREnd (s : State) : Result :=
  s.tEnd false fun st t =>
    if st = 0 then t.setPhase .rReq else t.raiseAttemptFail .addrClose

/-- Phase `R_REQ` (R215): the request, to the address the slot holds now; only a count of zero fails. -/
def State.microRReq (s : State) : Result :=
  s.tRequest (s.slot s.seq.d).address s.seq.n fun cnt t =>
    if cnt = 0 then t.raiseAttemptFail .reqZero else (t.setIndex 0).setPhase .rDrain

/-- Phase `R_DRAIN` (R216): one received byte into `BUF`. -/
def State.microRDrain (s : State) : Result :=
  s.tRead fun b t =>
    let u := ((t.writeBuf t.seq.i b).cacheInc t.seq.d).setIndex (t.seq.i + 1)
    if t.seq.i + 1 = t.seq.n then u.attemptSucceeds else u.setPhase .rDrain

end Sys2Proof.Machine
end

