-- ==== Sys2Proof/Machine/WriteStrategy.lean ====
section
/-! DEFINITION. `write_strategy_engine`, the default write strategy (R190 to R197): one micro-step for
each phase `W_BEGIN` to `W_END`. -/

namespace Sys2Proof.Machine

/-- Phase `W_BEGIN` (R191): the zero-count check, the opening of the transmission and the addressing
decision. The slot is read when the micro-step begins, at its call; a command that writes it while the call is
outstanding comes after this micro-step (R149; `notes/assumptions/17.md`), and INIT, which would come between
the call and the cache set, waits (`State.clashes`). -/
def State.microWBegin (s : State) : Result :=
  if s.seq.n = 0 then .next (s.raiseAttemptFail .zeroCount)
  else
    s.tBegin (s.slot s.seq.d).address (s.addressing s.seq.d s.seq.reg) fun next t =>
      match next with
      | .high => (t.cacheSet t.seq.d t.seq.reg).setPhase .wAhi
      | .low => (t.cacheSet t.seq.d t.seq.reg).setPhase .wAlo
      | .skip => (t.setIndex 0).setPhase .wData

/-- Phase `W_AHI` (R192): the high register-address byte. -/
def State.microWAhi (s : State) : Result :=
  s.tWrite (regHigh s.seq.reg) fun ok t =>
    if ok then t.setPhase .wAlo else t.raiseAttemptFail .addrHi

/-- Phase `W_ALO` (R193): the low register-address byte. -/
def State.microWAlo (s : State) : Result :=
  s.tWrite (regLow s.seq.reg) fun ok t =>
    if ok then (t.setIndex 0).setPhase .wData else t.raiseAttemptFail .addrLo

/-- Phase `W_DATA` (R194): one data byte, read from `BUF` in the micro-step that sends it, when the call is
made: a change of the byte by the host while `T.write` is outstanding is not sent (R43, R149 (g);
`notes/assumptions/17.md`). -/
def State.microWData (s : State) : Result :=
  s.tWrite (Memory.read s.buf s.seq.i.toNat) fun ok t =>
    if ok then
      ((t.cacheInc t.seq.d).setIndex (t.seq.i + 1)).setPhase
        (if t.seq.i + 1 = t.seq.n then .wEnd else .wData)
    else t.raiseAttemptFail .dataWrite

/-- Phase `W_END` (R195): the close, releasing the bus. -/
def State.microWEnd (s : State) : Result :=
  s.tEnd true fun st t =>
    if st = 0 then t.attemptSucceeds else t.raiseAttemptFail .close

end Sys2Proof.Machine
end

