-- ==== Sys2Proof/Machine/Engine.lean ====
section
/-! DEFINITION. `transaction_sequencer` and `nack_retry_wrapper` (R144 to R151): the dispatch of an
attempt, external strategies, the retry loop, and the micro-step of every phase (the phase table
R150). -/

namespace Sys2Proof.Machine

/-- Phase `ATT_START` (R144): dispatch on the select copied at admission, not on the direction. -/
def State.attStart (s : State) : State :=
  s.setPhase (if s.seq.sel = 0 then .wBegin else if s.seq.sel = 1 then .rStart else .ext)

/-- What an external strategy did to its slot, `BUF` and the trace, and how the phase then goes on
(R151). -/
def State.applyExt (r : ExtResult) (s : State) : State :=
  let t : State := { (s.setSlot s.seq.d r.slot) with
    buf := Memory.writeAll s.buf r.bufWrites
    trace := s.trace ++ r.events }
  if r.success then t.attemptSucceeds else t.raiseAttemptFail .ext

/-- Phase `EXT` (R151): refused when `ext_strategy` gives no relation for the select; otherwise the
strategy's result is an input, and a strategy that has not returned is a wait. -/
def State.microExt (s : State) : Result :=
  if s.params.hasExt s.seq.sel then
    match s.extReplies with
    | [] => .next s
    | r :: rs => .next (State.applyExt r { s with extReplies := rs })
  else .refused (.externalStrategyAbsent s.seq.sel)

/-- Phase `ATT_FAIL`, the `nack_retry_wrapper` (R145). -/
def State.microAttFail (s : State) : Result :=
  if s.seq.retry ≠ 0 then
    s.tDelay s.params.retryDelayMs fun t => (t.setRetry (t.seq.retry - 1)).setPhase .attStart
  else .next ((s.setAck false).setPhase .release)

/-- One micro-step of the sequencer (R150); none is enabled in `IDLE`. -/
def State.microStep (s : State) : Result :=
  match s.seq.phase with
  | .idle => .next s
  | .attStart => .next s.attStart
  | .wBegin => s.microWBegin
  | .wAhi => s.microWAhi
  | .wAlo => s.microWAlo
  | .wData => s.microWData
  | .wEnd => s.microWEnd
  | .rStart => s.microRStart
  | .rAhi => s.microRAhi
  | .rAlo => s.microRAlo
  | .rEnd => s.microREnd
  | .rReq => s.microRReq
  | .rDrain => s.microRDrain
  | .ext => s.microExt
  | .attFail => s.microAttFail
  | .release => .next s.release

end Sys2Proof.Machine
end

