-- ==== Sys2Proof/Machine/Port.lean ====
section
/-! DEFINITION. What the block does by itself, and what an input of the outside world does: a command word
on the command port (R70, R79), a change of the host's buffer (R43, R149 (g)), an answer of the transport or
of an external strategy (R52, R151), and reset (R260). -/

namespace Sys2Proof.Machine

/-- What the block does when no input is taken. Calls are made one at a time (R52): a call of the sequencer
that is outstanding returns first; then a `T.set_clock` of SETSPD, which falls between two calls of the
transaction (R149 (e)); otherwise one micro-step of the sequencer. -/
def State.blockStep (s : State) : Result :=
  match s.call, s.clockCall with
  | none, some eff => s.finishSetspd eff
  | none, none => s.microStep
  | some _, _ => s.microStep

/-! ### Waiting -/

/-- The micro-step in progress waits for the outside world: it has made a call that has not returned, or it
runs an external strategy that has not returned (R148, R151). -/
def State.blocked (s : State) : Bool :=
  match s.seq.phase with
  | .idle | .attStart | .release => false
  | .wBegin | .rStart => decide (s.seq.n ≠ 0) && s.call.isSome && s.replies.isEmpty
  | .attFail => decide (s.seq.retry ≠ 0) && s.call.isSome && s.replies.isEmpty
  | .wAhi | .wAlo | .wData | .wEnd | .rAhi | .rAlo | .rEnd | .rReq | .rDrain =>
    s.call.isSome && s.replies.isEmpty
  | .ext => s.params.hasExt s.seq.sel && s.extReplies.isEmpty

/-- The block's next move waits for the outside world: the micro-step in progress waits, or a `T.set_clock` of
SETSPD has not returned. -/
def State.waits (s : State) : Bool :=
  match s.call, s.clockCall with
  | none, some _ => s.replies.isEmpty
  | none, none | some _, _ => s.blocked

/-! ### The command port -/

/-- A command whose effect now, with the call `c` outstanding, is that of no point between two micro-steps
(R149): SETSPD, which calls the transport itself, and that between two calls of the transaction
(R149 (e), R52); and INIT of the slot of a `W_BEGIN` that has still to set the cache (R191). Every other command
commutes with what is left of the micro-step, or runs as if before it (`notes/assumptions/17.md`). -/
def State.clashes (s : State) (c : Call) : Instr → Bool
  | .setspd _ => true
  | .init d _ _ => decide (d = s.seq.d ∧ s.seq.phase = .wBegin ∧ c.next ≠ .skip)
  | .setaddr _ _ | .setrsz _ _ | .bindw _ _ | .bindr _ _ | .settmo _ | .setrty _ | .isbusy
  | .write _ _ _ | .read _ _ _ => false

/-- The command port holds the word back until the micro-step in progress has ended, for a command executes
between two micro-steps, never inside one (R149, R60 (c)): one whose effect has no such place while the call is
outstanding. An illegal word is not held back, for nothing else is looked at (R236 (1)). -/
def State.holdsBack (s : State) (w : CmdWord) : Bool :=
  match s.call, decode w with
  | none, _ => false
  | some _, .error _ => false
  | some c, .ok i => i.wellFormed s.params.nDesc && s.clashes c i

/-- The command port takes a word of this context now: not while SETSPD waits for `T.set_clock` (R60 (c);
`notes/assumptions/7.md`), from the main context not while a transaction is in flight, whose response
that context waits for (R243), and not while the word is held back. -/
def State.accepts (s : State) (ctx : Context) (w : CmdWord) : Bool :=
  match s.clockCall, ctx with
  | some _, _ => false
  | none, .main => decide (s.seq.phase = .idle) && !s.holdsBack w
  | none, .reentrant => !s.holdsBack w

/-- A command word reaches the command port: a legal word executes as one command step, an illegal one
is refused (R79). -/
def State.acceptCommand (w : CmdWord) (s : State) : Result :=
  match decode w with
  | .ok i => exec i s
  | .error why => .refused (.illegalWord why)

/-- One more value of the transport. -/
def State.addReply (v : Word) (s : State) : State := { s with replies := s.replies ++ [v] }

/-- One more result of an external strategy. -/
def State.addExtReply (r : ExtResult) (s : State) : State :=
  { s with extReplies := s.extReplies ++ [r] }

/-- Reset (R260): the block's state is that of `State.reset` for the block's own parameters, a call that
has not returned given up; no transport call is made, and nothing outside the block
changes. Whether the transport answers after a reset that ended a hang is left to the inputs
(`notes/assumptions/13.md`). -/
def State.resetBlock (s : State) : State :=
  { s with
    bus := BusState.reset s.params
    desc := Vector.replicate 16 SlaveDescriptor.reset
    seq := Sequencer.reset
    call := none
    clockCall := none }

/-! ### The inputs -/

/-- The context of a command, whose word waits at the port if it is not taken. -/
def Input.contexts : Input → List Context
  | .command ctx _ => [ctx]
  | .hostWrite _ _ | .micro | .answer _ | .strategyResult _ | .reset => []

/-- An input can be taken now, the contexts `held` having a command that waits: a context gives its commands in
order, and only a command can wait. -/
def State.takes (s : State) (held : List Context) : Input → Bool
  | .command ctx w => s.accepts ctx w && !held.contains ctx
  | .hostWrite _ _ | .micro | .answer _ | .strategyResult _ | .reset => true

/-- The first input that can be taken, and the inputs without it. -/
def State.firstTaken (s : State) : List Context → List Input → Option (Input × List Input)
  | _, [] => none
  | held, x :: xs =>
    if s.takes held x then some (x, xs)
    else (s.firstTaken (x.contexts ++ held) xs).map fun p => (p.1, x :: p.2)

/-- The input that this step takes, and those left: the next one. A command that waits is passed over while the
block cannot move either: a context that waits keeps back neither the outside world nor the other context
(R52, R149, R243; `notes/assumptions/8.md`). While the block can move, it does so. -/
def State.nextInput (s : State) : Option (Input × List Input) :=
  if s.waits then s.firstTaken [] s.inputs
  else
    match s.inputs with
    | [] => none
    | x :: rest => if s.takes [] x then some (x, rest) else none

/-- What an input does. -/
def State.inputTurn (x : Input) (s : State) : Result :=
  match x with
  | .command _ w => s.acceptCommand w
  | .hostWrite i b => .next (s.writeBuf i b)
  | .micro => s.blockStep
  | .answer v => .next (s.addReply v)
  | .strategyResult r => .next (s.addExtReply r)
  | .reset => .next s.resetBlock

end Sys2Proof.Machine
end

