-- ==== Sys2Proof/Machine/Step.lean ====
section
/-! DEFINITION. One step of the machine: the next input of the outside world, or, when there is none that can
be taken, what the block does by itself. The list of inputs is the total order of R60
(`notes/assumptions/8.md`). -/

namespace Sys2Proof.Machine

/-- One step. -/
def step (s : State) : Host.Outcome State Fault Refusal :=
  match s.nextInput with
  | none => s.blockStep
  | some (x, rest) => State.inputTurn x { s with inputs := rest }

/-- `s` with the command word of `nbits` bits `w` (bits above them 0) as the next input, presented so
that the very next step accepts it, whatever the phase, with no transport call to wait for
(`notes/assumptions/8.md`). -/
def State.withFetchWord (s : State) (nbits w : Nat) : State :=
  { s with
    call := none
    clockCall := none
    inputs := .command .reentrant (BitVec.ofNat 40 (w % 2 ^ nbits)) :: s.inputs }

end Sys2Proof.Machine
end

