-- ==== Sys2Proof/Machine/Procedures.lean ====
section
/-! DEFINITION. The strategies and the transaction as whole procedures, as R190 (`write_attempt`), R210
(`read_attempt`) and R140 (`transact`, steps 4 to 6) give them: one call after another, with no phases and
no sequencer registers of their own. The machine does not use them: they are the clear form that claims
compare the sequencer's micro-steps with. `none` means that a transport call never returned. -/

namespace Sys2Proof.Machine

/-- The next reply of the transport, if it gives one. -/
def State.popReply (s : State) : Option (Word × State) :=
  match s.replies with
  | [] => none
  | v :: vs => some (v, { s with replies := vs })

/-- Register-address bytes given to `T.write` one after another; the first failure ends it (R190). -/
def State.sendAddress : List Byte → State → Option (Bool × State)
  | [], s => some (true, s)
  | b :: bs, s =>
    match s.popReply with
    | none => none
    | some (v, t) =>
      if replyOk v then State.sendAddress bs (t.emit (.wb b true))
      else some (false, t.emit (.wb b false))

/-- The register-address bytes of an addressing phase: the high byte first in 16-bit mode, then the low
byte (R44, R83). -/
def phaseAddressBytes (size : BitVec 2) (reg : Word) : List Byte :=
  if size = 2 then [regHigh reg, regLow reg] else [regLow reg]

/-- The data phase of `write_attempt` (R190): `left` bytes from index `i` on. -/
def State.sendData (d : Slot) : (left i : Nat) → State → Option (Bool × State)
  | 0, _, s => some (true, s)
  | left + 1, i, s =>
    match s.popReply with
    | none => none
    | some (v, t) =>
      if replyOk v then
        State.sendData d left (i + 1) ((t.emit (.wb (Memory.read s.buf i) true)).cacheInc d)
      else some (false, t.emit (.wb (Memory.read s.buf i) false))

/-- A close of the open transmission, and whether its status is zero (R55). -/
def State.closeTransmission (stop : Bool) (s : State) : Option (Bool × State) :=
  match s.popReply with
  | none => none
  | some (st, t) => some (decide (st = 0), t.emit (.close stop st))

/-- `T.begin` (R53). -/
def State.openTransmission (a : SlaveAddr) (s : State) : Option State :=
  match s.popReply with
  | none => none
  | some (_, t) => some (t.emit (.begin a))

/-- Go on with `k` after a part of an attempt that succeeded; a part that failed ends the attempt. -/
def andThen (r : Option (Bool × State)) (k : State → Option (Bool × State)) :
    Option (Bool × State) :=
  match r with
  | none => none
  | some (false, t) => some (false, t)
  | some (true, t) => k t

/-- `write_attempt` (R190). -/
def State.writeAttempt (s : State) : Option (Bool × State) :=
  if s.seq.n = 0 then some (false, s)
  else
    match s.openTransmission (s.slot s.seq.d).address with
    | none => none
    | some t =>
      andThen
        (if s.needAddressing s.seq.d s.seq.reg then
          (t.cacheSet s.seq.d s.seq.reg).sendAddress
            (phaseAddressBytes (s.slot s.seq.d).registerSize s.seq.reg)
        else some (true, t))
        fun u => andThen (u.sendData s.seq.d s.seq.n.toNat 0) (State.closeTransmission true)

/-- The drain of `read_attempt` (R210): `left` bytes from index `i` on. -/
def State.drainData (d : Slot) : (left i : Nat) → State → Option (Bool × State)
  | 0, _, s => some (true, s)
  | left + 1, i, s =>
    match s.popReply with
    | none => none
    | some (v, t) =>
      let u : State := { t with
        trace := t.trace ++ [.rb (replyByte v)]
        buf := Memory.write t.buf i (replyByte v) }
      State.drainData d left (i + 1) (u.cacheInc d)

/-- The request of `read_attempt` (R210): only a count of zero fails. -/
def State.requestBytes (a : SlaveAddr) (n : Word) (s : State) : Option (Bool × State) :=
  match s.popReply with
  | none => none
  | some (cnt, t) => some (decide (cnt ≠ 0), t.emit (.req a n cnt))

/-- The addressing phase of `read_attempt` (R210). -/
def State.readAddressing (s : State) : Option (Bool × State) :=
  if s.needAddressing s.seq.d s.seq.reg then
    match (s.cacheSet s.seq.d s.seq.reg).openTransmission (s.slot s.seq.d).address with
    | none => none
    | some t =>
      andThen
        (t.sendAddress (phaseAddressBytes (s.slot s.seq.d).registerSize s.seq.reg))
        (State.closeTransmission false)
  else some (true, s)

/-- `read_attempt` (R210). -/
def State.readAttempt (s : State) : Option (Bool × State) :=
  if s.seq.n = 0 then some (false, s)
  else
    andThen s.readAddressing fun t =>
      andThen (t.requestBytes (s.slot s.seq.d).address s.seq.n)
        (State.drainData s.seq.d s.seq.n.toNat 0)

/-- One attempt of the default strategy the select names (R144); `none` for an external one. -/
def State.runAttempt (s : State) : Option (Bool × State) :=
  if s.seq.sel = 0 then s.writeAttempt
  else if s.seq.sel = 1 then s.readAttempt
  else none

/-- The delay before a retry (R145). -/
def State.retryDelay (s : State) : Option State :=
  match s.popReply with
  | none => none
  | some (_, t) => some (t.emit (.delay s.params.retryDelayMs))

/-- The attempts of a transaction (R140 step 4): up to `r` more after the first, each after a delay, until
one succeeds. The answer is how many were made, whether the last succeeded, and the state. -/
def State.attemptLoop : (r : Nat) → State → Option (Nat × Bool × State)
  | 0, s =>
    match s.runAttempt with
    | none => none
    | some (ok, t) => some (1, ok, t)
  | r + 1, s =>
    match s.runAttempt with
    | none => none
    | some (true, t) => some (1, true, t)
    | some (false, t) =>
      match t.retryDelay with
      | none => none
      | some u =>
        match State.attemptLoop r u with
        | none => none
        | some (m, ok, v) => some (m + 1, ok, v)

/-- The status a transaction ends with (R140 step 6): OK if an attempt succeeded, else NACK. -/
def endStatus (ok : Bool) : BitVec 2 := if ok then 0 else 2

/-- The end of a transaction (R140 steps 5 and 6), but for the sequencer registers. -/
def State.finishTransaction (d : Slot) (ok : Bool) (s : State) : State :=
  { s with
    bus := { s.bus with busy := false }
    desc := s.desc.set d.toNat { s.slot d with status := endStatus ok } d.isLt
    responses := s.responses ++ [(endStatus ok).setWidth 16] }

end Sys2Proof.Machine
end

