-- ==== Sys2Proof/Machine/View.lean ====
section
/-! DEFINITION. The read-only state view (R28): the numbers `BR0` to `BR3` and `DR(d,0)` to `DR(d,5)`,
each field zero-extended to 16 bits. Reading has no side effect: the view is a function of the state. -/

namespace Sys2Proof.Machine

/-- A number of the state view (R28). -/
inductive ViewNumber where
  /-- `BRk`, a field of Bus State. -/
  | br (k : Fin 4)
  /-- `DR(d,k)`, a field of slot `d`. -/
  | dr (d : Slot) (k : Fin 6)
  deriving DecidableEq, Repr

/-- `BRk` (R28). -/
def BusState.view (x : BusState) (k : Fin 4) : Word :=
  match k with
  | 0 => x.speed
  | 1 => x.retries.setWidth 16
  | 2 => x.timeout.setWidth 16
  | 3 => boolWord x.busy

/-- `DR(d,k)` of the slot's content (R28). -/
def SlaveDescriptor.view (x : SlaveDescriptor) (k : Fin 6) : Word :=
  match k with
  | 0 => x.address.setWidth 16
  | 1 => x.registerSize.setWidth 16
  | 2 => x.cache
  | 3 => x.status.setWidth 16
  | 4 => x.wrSel
  | 5 => x.rdSel

/-- What the host reads at a number of the state view; `none` for a slot that does not exist. -/
def State.view (s : State) : ViewNumber → Option Word
  | .br k => some (s.bus.view k)
  | .dr d k => if d.toNat < s.params.nDesc then some ((s.slot d).view k) else none

end Sys2Proof.Machine
end

