-- ==== Sys2Proof/Safety.lean ====
section
/-! DEFINITION. The terms of the claims: legal states, what a step may wait for, runs, the measure that
every micro-step decreases, and the events the spec gives for a whole attempt. -/

namespace Sys2Proof.Machine

/-! ### Legal states -/

/-- R22, R18, R20: the register-size code and the status code are ones the spec defines. -/
def SlaveDescriptor.legal (x : SlaveDescriptor) : Prop := x.registerSize ≠ 3 ∧ x.status ≠ 3

/-- R11 to R13: the stored configuration is within its legal ranges. -/
def BusState.legal (p : Params) (x : BusState) : Prop :=
  1 ≤ x.speed ∧ x.speed ≤ p.speedMaxKhz ∧ x.retries ≤ 8 ∧ x.timeout ≤ 500

/-- The phases of an attempt of the default write strategy (R150). -/
def Phase.isWrite : Phase → Bool
  | .wBegin | .wAhi | .wAlo | .wData | .wEnd => true
  | .idle | .attStart | .rStart | .rAhi | .rAlo | .rEnd | .rReq | .rDrain => false
  | .ext | .attFail | .release => false

/-- The phases of an attempt of the default read strategy (R150). -/
def Phase.isRead : Phase → Bool
  | .rStart | .rAhi | .rAlo | .rEnd | .rReq | .rDrain => true
  | .idle | .attStart | .wBegin | .wAhi | .wAlo | .wData | .wEnd => false
  | .ext | .attFail | .release => false

/-- The phases of a default attempt past its zero-count check (R191, R211). -/
def Phase.pastCountCheck : Phase → Bool
  | .wAhi | .wAlo | .wData | .wEnd | .rAhi | .rAlo | .rEnd | .rReq | .rDrain => true
  | .idle | .attStart | .wBegin | .rStart | .ext | .attFail | .release => false

/-- The phases that move data bytes, in which `seq.i` is the index of the next one (R194, R216). -/
def Phase.movesData : Phase → Bool
  | .wData | .rDrain => true
  | .idle | .attStart | .wBegin | .wAhi | .wAlo | .wEnd => false
  | .rStart | .rAhi | .rAlo | .rEnd | .rReq | .ext | .attFail | .release => false

/-- What the sequencer registers hold while a transaction is in flight (R23, R24, R144, R194, R216). -/
def Sequencer.legal (p : Params) (x : Sequencer) : Prop :=
  (x.phase ≠ .idle → x.d.toNat < p.nDesc ∧ x.retry ≤ 8) ∧
  (x.phase.isWrite = true → x.sel = 0) ∧
  (x.phase.isRead = true → x.sel = 1) ∧
  (x.phase = .ext → 2 ≤ x.sel) ∧
  (x.phase.pastCountCheck = true → x.n ≠ 0) ∧
  (x.phase.movesData = true → x.i < x.n)

/-- A call belongs to the micro-step of a phase that makes it (R150), and the conditions under which that
phase makes it hold. -/
def Call.fits (c : Call) (x : Sequencer) : Prop :=
  match c with
  | .begin _ next => x.n ≠ 0 ∧ (x.phase = .wBegin ∨ x.phase = .rStart ∧ next ≠ .skip)
  | .write _ =>
    x.phase = .wAhi ∨ x.phase = .wAlo ∨ x.phase = .wData ∨ x.phase = .rAhi ∨ x.phase = .rAlo
  | .close stop => x.phase = if stop then .wEnd else .rEnd
  | .request _ _ => x.phase = .rReq
  | .read => x.phase = .rDrain
  | .delay _ => x.phase = .attFail ∧ x.retry ≠ 0

/-- A call that has not returned belongs to the micro-step in progress (R52, R150). -/
def State.callFits (s : State) : Prop := ∀ c, s.call = some c → c.fits s.seq

/-- R25: `bus.busy == 1` if and only if `seq.phase != IDLE`. -/
def State.busyIffInFlight (s : State) : Prop := s.bus.busy = true ↔ s.seq.phase ≠ .idle

/-- The invariant of the machine. The last two clauses are a premise on the outside world: an external
strategy keeps the invariant of its slot (R22, R151). -/
structure State.Inv (s : State) : Prop where
  params : s.params.legal = true
  bus : s.bus.legal s.params
  slots : ∀ d : Slot, (s.slot d).legal
  busy : s.busyIffInFlight
  seq : s.seq.legal s.params
  call : s.callFits
  oneCall : s.call = none ∨ s.clockCall = none
  clock : ∀ eff, s.clockCall = some eff → s.bus.speed = eff
  buf : Memory.wf s.buf = true
  external : ∀ r ∈ s.extReplies, r.slot.legal
  externalInputs : ∀ r, Input.strategyResult r ∈ s.inputs → r.slot.legal

/-- The phases the phase table R150 gives as next. -/
def Phase.successors : Phase → List Phase
  | .idle => [.attStart]
  | .attStart => [.wBegin, .rStart, .ext]
  | .wBegin => [.attFail, .wAhi, .wAlo, .wData]
  | .wAhi => [.wAlo, .attFail]
  | .wAlo => [.wData, .attFail]
  | .wData => [.attFail, .wEnd, .wData]
  | .wEnd => [.release, .attFail]
  | .rStart => [.attFail, .rAhi, .rAlo, .rReq]
  | .rAhi => [.rAlo, .attFail]
  | .rAlo => [.rEnd, .attFail]
  | .rEnd => [.rReq, .attFail]
  | .rReq => [.attFail, .rDrain]
  | .rDrain => [.release, .rDrain]
  | .ext => [.release, .attFail]
  | .attFail => [.attStart, .release]
  | .release => [.idle]

/-! ### Runs -/

/-- `k` micro-steps of the sequencer, with nothing between them. -/
def State.microRun : Nat → State → Result
  | 0, s => .next s
  | k + 1, s =>
    match s.microStep with
    | .next t => State.microRun k t
    | .fault r => .fault r
    | .refused r => .refused r

/-- A run of a command program is over: every input has been taken, every command answered and the sequencer
idle (D36). -/
def State.ended (s : State) : Prop :=
  s.inputs = [] ∧ s.call = none ∧ s.clockCall = none ∧ s.seq.phase = .idle

/-- A safe run: `k` steps with neither a fault nor a refusal. -/
def State.safeFor (k : Nat) (s : State) : Prop := ∃ t, Sys2Proof.core.run k s = .next t

/-! ### The measure of R147 (d), (e) -/

/-- An upper bound of the micro-steps from a phase to the end of the transaction, were no attempt to be
retried. -/
def Sequencer.attemptLeft (x : Sequencer) : Nat :=
  match x.phase with
  | .idle => 0
  | .release => 1
  | .attFail => 2
  | .wEnd | .ext => 3
  | .wData | .rDrain => 3 + (x.n.toNat - x.i.toNat)
  | .wAlo | .rReq => 4 + x.n.toNat
  | .wAhi | .rEnd => 5 + x.n.toNat
  | .wBegin | .rAlo => 6 + x.n.toNat
  | .rAhi => 7 + x.n.toNat
  | .rStart => 8 + x.n.toNat
  | .attStart => 9 + x.n.toNat

/-- An upper bound of the micro-steps left of the transaction in flight, the retries included. -/
def Sequencer.microStepsLeft (x : Sequencer) : Nat :=
  x.attemptLeft + x.retry.toNat * (9 + x.n.toNat)

/-! ### Events -/

/-- A `DELAY` event (R65). -/
def Event.isDelay : Event → Bool
  | .delay _ => true
  | .begin _ | .wb _ _ | .close _ _ | .req _ _ _ | .rb _ | .clk _ => false

/-- A `BEGIN` event (R65). -/
def Event.isBegin : Event → Bool
  | .begin _ => true
  | .delay _ | .wb _ _ | .close _ _ | .req _ _ _ | .rb _ | .clk _ => false

/-- The number of `DELAY` events so far. -/
def State.delays (s : State) : Nat := s.trace.countP Event.isDelay

/-- The address bytes an attempt of a default strategy on slot `d` sends (R171, R83). -/
def State.addressingBytes (s : State) (d : Slot) (reg : Word) : List Byte :=
  if s.needAddressing d reg then phaseAddressBytes (s.slot d).registerSize reg else []

/-- The bytes `BUF[0 .. n-1]`. -/
def Memory.firstBytes (m : Memory) (n : Nat) : List Byte := (List.range n).map (Memory.read m)

end Sys2Proof.Machine
end

