-- ==== Sys2Proof/Certificates/Slice0/Obligations.lean ====
section
/-! DEFINITION. The statements for the provers, in the order of OBLIGATIONS.json. The rule numbers are
those of `spec/`; D<n> is a decision of the spec (`92_eei_decisions.md`), named where a statement rests on
one. -/

open Sys2Proof Sys2Proof.Machine

/-! ### Command words -/

/-- The example words of R81 and the words of `95_test_vectors.md` V30 decode to the commands the spec
writes beside them, and the illegal words of V30 to none; V30's word that is illegal only where `N_DESC` is 4
decodes to a command that is not well formed there. The layout is the spec's decision (D3, D4, D24). -/
def Obligations.SpecWordsDecode : Prop :=
  decode 0x0000500002 = .ok (.init 0 0x50 2) ∧
  decode 0x0F007F0000 = .ok (.init 15 0x7F 0) ∧
  decode 0x1300680000 = .ok (.setaddr 3 0x68) ∧
  decode 0x2000010000 = .ok (.setrsz 0 1) ∧
  decode 0x3100050000 = .ok (.bindw 1 5) ∧
  decode 0x3000010001 = .ok (.bindr 0 1) ∧
  decode 0x3000020001 = .ok (.bindr 0 2) ∧
  decode 0x4000FA0000 = .ok (.setspd 250) ∧
  decode 0x5001F40000 = .ok (.settmo 500) ∧
  decode 0x6000080000 = .ok (.setrty 8) ∧
  decode 0x6000020000 = .ok (.setrty 2) ∧
  decode 0x7000000000 = .ok .isbusy ∧
  decode 0x8000100004 = .ok (.write 0 0x0010 4) ∧
  decode 0x8FFFFFFFFF = .ok (.write 15 0xFFFF 65535) ∧
  decode 0x91003B0006 = .ok (.read 1 0x003B 6) ∧
  decode 0x9000000000 = .ok (.read 0 0 0) ∧
  decode 0xA000000000 = .error .reservedOpcode ∧
  decode 0xF123456789 = .error .reservedOpcode ∧
  decode 0x3000020002 = .error .bindDirection ∧
  decode 0x1000500001 = .error .reservedField ∧
  decode 0x2000010100 = .error .reservedField ∧
  decode 0x4100640000 = .error .reservedField ∧
  decode 0x6000030001 = .error .reservedField ∧
  decode 0x7000010000 = .error .reservedField ∧
  decode 0x8400100001 = .ok (.write 4 0x0010 1) ∧ (Instr.write 4 0x0010 1).wellFormed 4 = false ∧
  decode 0x8300100001 = .ok (.write 3 0x0010 1) ∧ (Instr.write 3 0x0010 1).wellFormed 4 = true

/-- Decoding the word of a command gives the command back, with every operand at every value its field
admits (R71 to R73; the layout is the spec's decision D3, D4). -/
def Obligations.DecodeOfEncodeIsTheCommand : Prop :=
  ∀ i : Instr, decode (encode i) = .ok i

/-- A word that decodes to a command is that command's word: no two words are one command (R70, R79). -/
def Obligations.EncodeOfDecodedWordIsTheWord : Prop :=
  ∀ (w : CmdWord) (i : Instr), decode w = .ok i → encode i = w

/-- The decoder accepts exactly the words of the rows of `spec/opcode_table.json`, and each as a command of
a row that covers it (R73, R79 (a) to (c); D24). -/
def Obligations.DecoderAcceptsTheTablesWords : Prop :=
  ∀ w : CmdWord,
    ((∃ i, decode w = .ok i) ↔ ∃ r ∈ opcodeTable, r.covers w = true) ∧
    ∀ i, decode w = .ok i → i.row ∈ opcodeTable ∧ i.row.covers w = true

/-- A command word that reaches the command port is refused exactly when R79 calls it illegal, by the
conditions (a) to (d) on its fields. That a model refuses it is the spec's decision D24; a word reaches the port
when no SETSPD waits for its `T.set_clock`, and an illegal one is refused even while a call of the sequencer is
outstanding. A call that is outstanding belongs to its phase (part of the invariant that `StepKeepsTheInvariant`
states): this rules out the one other refusal, that of `EXT`. -/
def Obligations.IllegalWordsAreRefused : Prop :=
  ∀ (s : State) (ctx : Context) (w : CmdWord) (rest : List Input),
    s.inputs = .command ctx w :: rest → s.clockCall = none → (ctx = .main → s.seq.phase = .idle) →
    s.callFits →
    ((∃ why, step s = .refused why) ↔
      0xA#4 ≤ w.extractLsb' 36 4 ∨
      (w.extractLsb' 36 4 = 0x3#4 ∧ 1#16 < w.extractLsb' 0 16) ∨
      ((w.extractLsb' 36 4 = 0x1#4 ∨ w.extractLsb' 36 4 = 0x2#4) ∧ w.extractLsb' 0 16 ≠ 0#16) ∨
      ((w.extractLsb' 36 4 = 0x4#4 ∨ w.extractLsb' 36 4 = 0x5#4 ∨ w.extractLsb' 36 4 = 0x6#4) ∧
        (w.extractLsb' 32 4 ≠ 0#4 ∨ w.extractLsb' 0 16 ≠ 0#16)) ∨
      (w.extractLsb' 36 4 = 0x7#4 ∧
        (w.extractLsb' 32 4 ≠ 0#4 ∨ w.extractLsb' 16 16 ≠ 0#16 ∨ w.extractLsb' 0 16 ≠ 0#16)) ∨
      ((w.extractLsb' 36 4 ≤ 0x3#4 ∨ w.extractLsb' 36 4 = 0x8#4 ∨ w.extractLsb' 36 4 = 0x9#4) ∧
        s.params.nDesc ≤ (w.extractLsb' 32 4).toNat))

/-! ### Steps -/

/-- A command word that decodes to `i` runs as the command step of `i` when no SETSPD waits for its
`T.set_clock`: at once from the re-entrant context, and from the main context when no transaction is in flight
(R60, R149, R243). It runs so while a call of the sequencer is outstanding, too, unless it has no place between
two micro-steps there: SETSPD, and INIT of the slot of a `W_BEGIN` that has still to set the cache; such a
command, and any of the main context while a transaction is in flight, waits at the port. Meanwhile the block
moves; while it cannot, the input behind the command is taken. The list of inputs is the model's
(`notes/assumptions/8.md`), and so is a call that stands outstanding between two steps (`17.md`); a command that
meets a waiting SETSPD is `ClockCallHoldsTheBlock`. -/
def Obligations.StepRunsTheDecodedCommand : Prop :=
  ∀ (s : State) (w : CmdWord) (i : Instr) (rest : List Input), decode w = .ok i → s.clockCall = none →
    let runs : Prop := ∀ c, s.call = some c → (∀ a, i ≠ .setspd a) ∧
      ∀ a b, i = .init s.seq.d a b → s.seq.phase = .wBegin → c.next = .skip
    (runs →
      (s.inputs = .command .reentrant w :: rest → step s = exec i { s with inputs := rest }) ∧
      (s.inputs = .command .main w :: rest → s.seq.phase = .idle →
        step s = exec i { s with inputs := rest })) ∧
    (∀ ctx, s.nextInput = some (.command ctx w, rest) → step s = exec i { s with inputs := rest }) ∧
    ∀ ctx, s.inputs = .command ctx w :: rest →
      (ctx = .main ∧ s.seq.phase ≠ .idle ∨ ¬ runs ∧ i.wellFormed s.params.nDesc = true) →
      (s.waits = false → step s = s.microStep) ∧
      (s.waits = true → ∀ x xs, rest = x :: xs →
        (∀ ctx' w', x = .command ctx' w' → ctx' ≠ ctx ∧ s.accepts ctx' w' = true) →
        s.nextInput = some (x, .command ctx w :: xs))

/-- A step with no command to run: a micro-step, when no input can be taken or when it is the block's turn,
unless a SETSPD waits with no call of the sequencer outstanding; a change of one byte of `BUF` by the host; one
more answer of the transport or of an external strategy (R43, R52, R60, R149 (g); `notes/assumptions/5.md`,
`7.md`, `8.md`, `10.md`). The input taken is the next one whenever that is no command. -/
def Obligations.StepWithoutACommand : Prop :=
  ∀ (s : State) (rest : List Input),
    (s.clockCall = none ∨ s.call ≠ none →
      (s.nextInput = none → step s = s.microStep) ∧
      (s.nextInput = some (.micro, rest) → step s = State.microStep { s with inputs := rest })) ∧
    (∀ (i : Word) (b : Byte), s.nextInput = some (.hostWrite i b, rest) →
      step s = .next { s with inputs := rest, buf := Memory.write s.buf i.toNat b }) ∧
    (∀ v : Word, s.nextInput = some (.answer v, rest) →
      step s = .next { s with inputs := rest, replies := s.replies ++ [v] }) ∧
    (∀ r : ExtResult, s.nextInput = some (.strategyResult r, rest) →
      step s = .next { s with inputs := rest, extReplies := s.extReplies ++ [r] }) ∧
    (s.inputs = [] → s.nextInput = none) ∧
    ∀ x : Input, s.inputs = x :: rest → (∀ ctx w, x ≠ .command ctx w) →
      s.nextInput = some (x, rest)

/-! ### Slave Descriptor commands -/

/-- INIT gives the whole slot its content, whatever it held, changes nothing else and responds 0 (R100). For
`A > 0x7F` the address is the free draw of the spec's decision D20 (`notes/assumptions/9.md`). -/
def Obligations.InitStoresTheSlot : Prop :=
  ∀ (d : Slot) (a b : Word) (s : State), d.toNat < s.params.nDesc →
    decode (0x0#4 ++ d ++ a ++ b) = .ok (.init d a b) ∧
    exec (.init d a b) s = .next
      { s.setSlot d
          { address := if a ≤ 0x7F then a.extractLsb' 0 7 else Config.freeAddress s.draws
            registerSize := if b ≤ 2 then b.extractLsb' 0 2 else 2
            cache := 0xFFFF
            status := 0
            wrSel := 0
            rdSel := 1 } with
        draws := if a ≤ 0x7F then s.draws else s.draws + 1
        responses := s.responses ++ [0] }

/-- SETADDR stores a valid address and responds 1, and for `A > 0x7F` leaves the slot unchanged and responds
0; nothing else changes, the cache included (R101). -/
def Obligations.SetaddrSetsTheAddress : Prop :=
  ∀ (d : Slot) (a : Word) (s : State), d.toNat < s.params.nDesc →
    decode (0x1#4 ++ d ++ a ++ 0#16) = .ok (.setaddr d a) ∧
    (a ≤ 0x7F → exec (.setaddr d a) s = .next
      { s.setSlot d { s.slot d with address := a.extractLsb' 0 7 } with
        responses := s.responses ++ [1] }) ∧
    (0x7F < a → exec (.setaddr d a) s = .next { s with responses := s.responses ++ [0] })

/-- SETRSZ stores a valid size and responds 1, and for `A > 2` makes the mode 16-bit and responds 0; nothing
else changes, the cache included (R102). -/
def Obligations.SetrszSetsTheMode : Prop :=
  ∀ (d : Slot) (a : Word) (s : State), d.toNat < s.params.nDesc →
    decode (0x2#4 ++ d ++ a ++ 0#16) = .ok (.setrsz d a) ∧
    (a ≤ 2 → exec (.setrsz d a) s = .next
      { s.setSlot d { s.slot d with registerSize := a.extractLsb' 0 2 } with
        responses := s.responses ++ [1] }) ∧
    (2 < a → exec (.setrsz d a) s = .next
      { s.setSlot d { s.slot d with registerSize := 2 } with
        responses := s.responses ++ [0] })

/-- BINDW and BINDR store any select in their own direction's field, change nothing else and respond 0
(R103, R104; the select codes are the spec's decision D10). -/
def Obligations.BindStoresTheSelect : Prop :=
  ∀ (d : Slot) (a : Word) (s : State), d.toNat < s.params.nDesc →
    decode (0x3#4 ++ d ++ a ++ 0#16) = .ok (.bindw d a) ∧
    decode (0x3#4 ++ d ++ a ++ 1#16) = .ok (.bindr d a) ∧
    exec (.bindw d a) s = .next
      { s.setSlot d { s.slot d with wrSel := a } with responses := s.responses ++ [0] } ∧
    exec (.bindr d a) s = .next
      { s.setSlot d { s.slot d with rdSel := a } with responses := s.responses ++ [0] }

/-- The boolean failures of SETADDR and SETRSZ (R233): the response 0x0000; no status is written and nothing
else raised; SETADDR's failure leaves the slot unchanged, SETRSZ's makes the mode 16-bit. -/
def Obligations.BooleanFailuresOfTheSetters : Prop :=
  ∀ (d : Slot) (a : Word) (s : State), d.toNat < s.params.nDesc →
    (0x7F < a → ∃ t, exec (.setaddr d a) s = .next t ∧
      t.responses = s.responses ++ [0] ∧ t.slot d = s.slot d ∧
      (∀ e, (t.slot e).status = (s.slot e).status) ∧ t.bus = s.bus ∧ t.seq = s.seq ∧
      t.trace = s.trace) ∧
    (2 < a → ∃ t, exec (.setrsz d a) s = .next t ∧
      t.responses = s.responses ++ [0] ∧ (t.slot d).registerSize = 2 ∧
      (∀ e, (t.slot e).status = (s.slot e).status) ∧ t.bus = s.bus ∧ t.seq = s.seq ∧
      t.trace = s.trace)

/-- What the five descriptor commands have in common (R105), as their frame: each completes in one step on a
slot that exists, whether or not a transaction is in flight; it neither reads nor writes `bus.busy`, makes no
transport call, and changes no other slot (R16), no sequencer register and no byte of `BUF`; only INIT writes
`cache` and `status`, and the status it writes is OK; each changes only its own fields of its slot. That a call
which is outstanding stands in `State.call`, and stays there in these command steps, is the model's choice
(`notes/assumptions/17.md`). -/
def Obligations.DescriptorCommandsInCommon : Prop :=
  ∀ (i : Instr) (d : Slot) (s : State),
    i.slot? = some d → i.isTransaction = false → d.toNat < s.params.nDesc →
    ∃ t, exec i s = .next t ∧
      (∀ busy, exec i { s with bus := { s.bus with busy := busy } } =
        .next { t with bus := { t.bus with busy := busy } }) ∧
      t.bus = s.bus ∧ t.seq = s.seq ∧ t.call = s.call ∧ t.clockCall = s.clockCall ∧
      t.params = s.params ∧
      t.inputs = s.inputs ∧ t.trace = s.trace ∧ t.replies = s.replies ∧ t.extReplies = s.extReplies ∧
      (∀ e, e ≠ d → t.slot e = s.slot e) ∧
      (∀ a, Memory.read t.buf a = Memory.read s.buf a) ∧
      match i with
      | .init _ _ _ => (t.slot d).cache = 0xFFFF ∧ (t.slot d).status = 0
      | .setaddr _ _ => t.slot d = { s.slot d with address := (t.slot d).address }
      | .setrsz _ _ => t.slot d = { s.slot d with registerSize := (t.slot d).registerSize }
      | .bindw _ _ => t.slot d = { s.slot d with wrSel := (t.slot d).wrSel }
      | .bindr _ _ => t.slot d = { s.slot d with rdSel := (t.slot d).rdSel }
      | .setspd _ | .settmo _ | .setrty _ | .isbusy | .write _ _ _ | .read _ _ _ => False

/-! ### Bus State commands -/

/-- SETSPD stores the effective speed and gives it to the transport's clock in hertz, without overflow; when
`T.set_clock` returns it responds with the effective speed; nothing else changes (R120, R52, R58; the factor
1000 is the spec's decision D22, and the tiers are the OPEN parameters D23). With no reply yet, or with a call
of the sequencer outstanding, the speed is stored, no response given, and `T.set_clock` stays outstanding: how
the model holds that is `notes/assumptions/7.md`. No run gives SETSPD's step a state with a call outstanding
(`StepRunsTheDecodedCommand`). -/
def Obligations.SetspdSetsTheSpeed : Prop :=
  ∀ (a : Word) (s : State),
    decode (0x4#4 ++ 0#4 ++ a ++ 0#16) = .ok (.setspd a) ∧
    ∀ eff : Word,
      eff = (if a = 0 then s.params.speedDefaultKhz
        else if s.params.speedMaxKhz < a then s.params.speedMaxKhz else a) →
      (∀ (v : Word) (vs : List Word), s.call = none → s.replies = v :: vs →
        exec (.setspd a) s = .next
          { s with
            bus := { s.bus with speed := eff }
            clockCall := none
            replies := vs
            trace := s.trace ++ [.clk (BitVec.ofNat 32 (eff.toNat * 1000))]
            responses := s.responses ++ [eff] }) ∧
      (s.call ≠ none ∨ s.replies = [] →
        exec (.setspd a) s = .next
          { s with bus := { s.bus with speed := eff }, clockCall := some eff }) ∧
      (BitVec.ofNat 32 (eff.toNat * 1000)).toNat = eff.toNat * 1000

/-- SETTMO stores and returns `min(A, 500)` and changes nothing else; no transport primitive is called
(R121). -/
def Obligations.SettmoClampsTheTimeout : Prop :=
  ∀ (a : Word) (s : State),
    decode (0x5#4 ++ 0#4 ++ a ++ 0#16) = .ok (.settmo a) ∧
    exec (.settmo a) s = .next
      { s with
        bus := { s.bus with timeout := BitVec.ofNat 9 (min a.toNat 500) }
        responses := s.responses ++ [BitVec.ofNat 16 (min a.toNat 500)] }

/-- SETRTY stores and returns `min(A, 8)` and changes nothing else: a transaction in flight keeps the count
it copied (R122). -/
def Obligations.SetrtyClampsTheRetries : Prop :=
  ∀ (a : Word) (s : State),
    decode (0x6#4 ++ 0#4 ++ a ++ 0#16) = .ok (.setrty a) ∧
    exec (.setrty a) s = .next
      { s with
        bus := { s.bus with retries := BitVec.ofNat 4 (min a.toNat 8) }
        responses := s.responses ++ [BitVec.ofNat 16 (min a.toNat 8)] }

/-- ISBUSY answers the busy flag and changes nothing (R123); by R25 the answer is 1 exactly while a
transaction is in flight. -/
def Obligations.IsbusyAnswersTheFlag : Prop :=
  ∀ s : State,
    decode 0x7000000000 = .ok .isbusy ∧
    exec .isbusy s = .next
      { s with responses := s.responses ++ [if s.bus.busy then 1 else 0] } ∧
    (s.busyIffInFlight →
      exec .isbusy s = .next
        { s with responses := s.responses ++ [if s.seq.phase = .idle then 0 else 1] })

/-- What the four bus commands have in common (R124), as their frame: each completes in one step whatever
its operand, unguarded by `bus.busy` (SETSPD, where the transport has not answered yet, with its call still
outstanding: `notes/assumptions/7.md`); only SETSPD calls a transport primitive; none touches a descriptor
slot, the busy flag, a sequencer register or a byte of `BUF`, and each writes only its own field. -/
def Obligations.BusCommandsInCommon : Prop :=
  ∀ (i : Instr) (s : State), i.slot? = none →
    ∃ t, exec i s = .next t ∧
      (i ≠ .isbusy → ∀ busy, exec i { s with bus := { s.bus with busy := busy } } =
        .next { t with bus := { t.bus with busy := busy } }) ∧
      t.bus.busy = s.bus.busy ∧ t.seq = s.seq ∧ t.call = s.call ∧ t.params = s.params ∧
      t.inputs = s.inputs ∧
      t.extReplies = s.extReplies ∧ t.draws = s.draws ∧
      (∀ e, t.slot e = s.slot e) ∧
      (∀ a, Memory.read t.buf a = Memory.read s.buf a) ∧
      ((∀ a, i ≠ .setspd a) → t.trace = s.trace ∧ t.replies = s.replies ∧
        t.clockCall = s.clockCall ∧ t.bus.speed = s.bus.speed) ∧
      ((∀ a, i ≠ .settmo a) → t.bus.timeout = s.bus.timeout) ∧
      ((∀ a, i ≠ .setrty a) → t.bus.retries = s.bus.retries)

/-! ### Admission -/

/-- A WRITE or READ with no transaction in flight is admitted in one step: the lock is taken and the
sequencer loaded, the strategy select and the retry count being read once; no transport call, no response, no
status (R143; the atomic test-and-set and the copies are the spec's decisions D11, D12). -/
def Obligations.AdmissionTakesTheLock : Prop :=
  ∀ (d : Slot) (a b : Word) (s : State), d.toNat < s.params.nDesc → s.bus.busy = false →
    decode (0x8#4 ++ d ++ a ++ b) = .ok (.write d a b) ∧
    decode (0x9#4 ++ d ++ a ++ b) = .ok (.read d a b) ∧
    exec (.write d a b) s = .next
      { s with
        bus := { s.bus with busy := true }
        seq := { s.seq with
          phase := .attStart, d := d, dir := .write, sel := (s.slot d).wrSel
          reg := a, n := b, retry := s.bus.retries } } ∧
    exec (.read d a b) s = .next
      { s with
        bus := { s.bus with busy := true }
        seq := { s.seq with
          phase := .attStart, d := d, dir := .read, sel := (s.slot d).rdSel
          reg := a, n := b, retry := s.bus.retries } }

/-- BUSY (R232): a WRITE or READ that finds the busy flag set records BUSY in the slot it names, responds
BUSY and changes nothing else, whatever its count and the slot's selects; and no step but such a rejection
gives a slot the status BUSY (an external strategy, which may write its slot, and reset, after which R31
leaves the status unspecified, apart). -/
def Obligations.BusyOnlyByRejectedAdmission : Prop :=
  (∀ (d : Slot) (a b : Word) (s : State), d.toNat < s.params.nDesc → s.bus.busy = true →
    exec (.write d a b) s = .next
      { s.setSlot d { s.slot d with status := 1 } with responses := s.responses ++ [1] } ∧
    exec (.read d a b) s = .next
      { s.setSlot d { s.slot d with status := 1 } with responses := s.responses ++ [1] }) ∧
  ∀ (s t : State) (e : Slot), step s = .next t → s.seq.phase ≠ .ext →
    (∀ rest, s.nextInput ≠ some (.reset, rest)) →
    (s.slot e).status ≠ 1 → (t.slot e).status = 1 →
    s.bus.busy = true ∧ ∃ ctx w rest i, s.nextInput = some (.command ctx w, rest) ∧
      decode w = .ok i ∧ i.isTransaction = true ∧ i.slot? = some e

/-- The frame of WRITE's and READ's command step: no other slot, no field of the named slot but its status,
no configuration, no byte of `BUF`, no event; and while the busy flag is set no sequencer register and no
flag (R143, R16, R27). -/
def Obligations.AdmissionFrame : Prop :=
  ∀ (i : Instr) (d : Slot) (s t : State),
    i.slot? = some d → i.isTransaction = true → exec i s = .next t →
    (∀ e, e ≠ d → t.slot e = s.slot e) ∧
    t.slot d = { s.slot d with status := (t.slot d).status } ∧
    t.bus.speed = s.bus.speed ∧ t.bus.retries = s.bus.retries ∧ t.bus.timeout = s.bus.timeout ∧
    (∀ a, Memory.read t.buf a = Memory.read s.buf a) ∧
    t.trace = s.trace ∧ t.replies = s.replies ∧ t.extReplies = s.extReplies ∧
    t.inputs = s.inputs ∧ t.params = s.params ∧ t.draws = s.draws ∧ t.call = s.call ∧
    t.clockCall = s.clockCall ∧
    (s.bus.busy = false → t.slot d = s.slot d) ∧
    (s.bus.busy = true → t.seq = s.seq ∧ t.bus = s.bus) ∧
    t.seq.i = s.seq.i ∧ t.seq.ack = s.seq.ack

/-- No command disturbs a transaction in flight. (1) While the busy flag is set every command step leaves
every sequencer register, the call outstanding if there is one, the busy flag and `BUF` as they are, and WRITE
and READ are rejected (R148, R149; D13). The replies of the transport stay as they are too, but for the one that
SETSPD's own call takes when no call of the sequencer is outstanding (`notes/assumptions/7.md`). The commands
taken while a call is outstanding have an order between two micro-steps (R60 (c), R149): (2) all but SETSPD, and
INIT of `seq.d` where the micro-step still writes the cache, give with the rest of the micro-step what they give
after it; (3) in `W_DATA` and `R_DRAIN` all but SETSPD, that INIT among them, give after the call is made what
they give before the micro-step. That a call which is outstanding stands in `State.call`, which a command step
leaves as it is, and which commands the port takes meanwhile, is the model's choice
(`notes/assumptions/17.md`). -/
def Obligations.CommandsLeaveTheTransactionAlone : Prop :=
  (∀ (i : Instr) (s t : State), s.bus.busy = true → exec i s = .next t →
    t.seq = s.seq ∧ t.call = s.call ∧ t.bus.busy = true ∧ t.extReplies = s.extReplies ∧
    (∀ a, Memory.read t.buf a = Memory.read s.buf a) ∧
    ((∀ a, i ≠ .setspd a) → t.replies = s.replies) ∧
    (∀ a, i = .setspd a →
      t.replies = if s.call = none then s.replies.tail else s.replies) ∧
    (i.isTransaction = true → t.responses = s.responses ++ [1] ∧ t.trace = s.trace)) ∧
  (∀ (i : Instr) (s t u : State) (c : Call), s.bus.busy = true → s.callFits → s.call = some c →
    (∀ a, i ≠ .setspd a) →
    (∀ a b, i = .init s.seq.d a b → s.seq.phase ≠ .wData ∧ s.seq.phase ≠ .rDrain ∧
      (s.seq.phase = .wBegin → c.next = .skip)) →
    exec i s = .next t → s.microStep = .next u →
    ∃ v, t.microStep = .next v ∧ exec i u = .next v) ∧
  ∀ (i : Instr) (s s' t : State), s.bus.busy = true →
    (s.seq.phase = .wData ∨ s.seq.phase = .rDrain) → s.call = none → s.replies = [] →
    (∀ a, i ≠ .setspd a) → s.microStep = .next s' → exec i s' = .next t →
    ∃ s0, exec i s = .next s0 ∧ s0.microStep = .next t

/-- Every accepted command gives exactly one response, in its own step, but for an admitted transaction,
and a SETSPD whose `T.set_clock` has not returned (`notes/assumptions/7.md`), which give none yet; and of all
micro-steps only `RELEASE` responds, once (R74; D26). -/
def Obligations.OneResponseForEachCommand : Prop :=
  (∀ (i : Instr) (s : State), i.wellFormed s.params.nDesc = true →
    ∃ t, exec i s = .next t ∧
      if i.isTransaction = true ∧ s.bus.busy = false then
        t.responses = s.responses ∧ t.seq.phase = .attStart
      else if (∃ a, i = .setspd a) ∧ (s.call ≠ none ∨ s.replies = []) then
        t.responses = s.responses ∧ t.clockCall ≠ none
      else ∃ v, t.responses = s.responses ++ [v]) ∧
  ∀ s t : State, s.microStep = .next t →
    if s.seq.phase = .release then ∃ v, t.responses = s.responses ++ [v]
    else t.responses = s.responses

/-! ### Micro-steps -/

/-- `ATT_START` dispatches on the select copied at admission, with no transport call and no other change
(R144). -/
def Obligations.AttStartDispatches : Prop :=
  ∀ s : State, s.seq.phase = .attStart →
    s.microStep = .next { s with seq := { s.seq with
      phase := if s.seq.sel = 0 then .wBegin else if s.seq.sel = 1 then .rStart else .ext } }

/-- `W_BEGIN` (R191): a zero count fails with no transport call; otherwise the transmission is opened, and the
addressing decision sets the cache and goes to the first address byte, or goes to the data. A call that was made
before this step, and has only now returned, is in `AddressingDecision` (`notes/assumptions/17.md`). -/
def Obligations.WBeginOpensAndDecides : Prop :=
  ∀ s : State, s.seq.phase = .wBegin →
    (s.seq.n = 0 → s.microStep = .next { s with seq := { s.seq with phase := .attFail } }) ∧
    ∀ (v : Word) (vs : List Word), s.seq.n ≠ 0 → s.call = none → s.replies = v :: vs →
      (((s.slot s.seq.d).registerSize ≠ 0 ∧ s.seq.reg ≠ (s.slot s.seq.d).cache) →
        s.microStep = .next
          { s.setSlot s.seq.d { s.slot s.seq.d with cache := s.seq.reg } with
            replies := vs
            trace := s.trace ++ [.begin (s.slot s.seq.d).address]
            seq := { s.seq with
              phase := if (s.slot s.seq.d).registerSize = 2 then .wAhi else .wAlo } }) ∧
      (¬ ((s.slot s.seq.d).registerSize ≠ 0 ∧ s.seq.reg ≠ (s.slot s.seq.d).cache) →
        s.microStep = .next
          { s with
            replies := vs
            trace := s.trace ++ [.begin (s.slot s.seq.d).address]
            seq := { s.seq with i := 0, phase := .wData } })

/-- `W_AHI` and `W_ALO` (R192, R193): the high byte of the register address, then the low byte; a refused byte
fails the attempt; the cache and every other register are left as they are. This is a call that is made now and
returns; one that was outstanding returns to the same (`AtMostOneCallInAMicroStep`, `notes/assumptions/17.md`).
-/
def Obligations.WriteAddressBytes : Prop :=
  ∀ (s : State) (v : Word) (vs : List Word), s.call = none → s.replies = v :: vs →
    (s.seq.phase = .wAhi → s.microStep = .next
      { s with
        replies := vs
        trace := s.trace ++ [.wb (s.seq.reg.extractLsb' 8 8) (v != 0)]
        seq := { s.seq with phase := if v = 0 then .attFail else .wAlo } }) ∧
    (s.seq.phase = .wAlo → s.microStep = .next
      { s with
        replies := vs
        trace := s.trace ++ [.wb (s.seq.reg.extractLsb' 0 8) (v != 0)]
        seq := if v = 0 then { s.seq with phase := .attFail }
          else { s.seq with i := 0, phase := .wData } })

/-- `W_DATA` (R194): the byte of `BUF` at `seq.i` is sent; if it is taken the cache and the index advance by one
and the last byte leads to the close; if not the attempt fails with nothing advanced. This is a call that is
made now and returns; one that was outstanding returns to the same (`AtMostOneCallInAMicroStep`,
`notes/assumptions/17.md`). -/
def Obligations.WDataSendsOneByte : Prop :=
  ∀ (s : State) (v : Word) (vs : List Word), s.seq.phase = .wData → s.call = none →
    s.replies = v :: vs →
    (v ≠ 0 → s.microStep = .next
      { s.setSlot s.seq.d
          { s.slot s.seq.d with cache := (s.slot s.seq.d).cache + 1 } with
        replies := vs
        trace := s.trace ++ [.wb (Memory.read s.buf s.seq.i.toNat) true]
        seq := { s.seq with
          i := s.seq.i + 1, phase := if s.seq.i + 1 = s.seq.n then .wEnd else .wData } }) ∧
    (v = 0 → s.microStep = .next
      { s with
        replies := vs
        trace := s.trace ++ [.wb (Memory.read s.buf s.seq.i.toNat) false]
        seq := { s.seq with phase := .attFail } })

/-- `W_END` (R195): the close with the bus released (the stop flag is the spec's decision D15); only a zero
status is a success. This is a call that is made now and returns; one that was outstanding returns to the same
(`AtMostOneCallInAMicroStep`, `notes/assumptions/17.md`). -/
def Obligations.WEndCloses : Prop :=
  ∀ (s : State) (v : Word) (vs : List Word), s.seq.phase = .wEnd → s.call = none →
    s.replies = v :: vs →
    s.microStep = .next
      { s with
        replies := vs
        trace := s.trace ++ [.close true v]
        seq := if v = 0 then { s.seq with ack := true, phase := .release }
          else { s.seq with phase := .attFail } }

/-- `R_START` (R211): a zero count fails with no transport call; when addressing is needed the cache is set (the
spec's decision D14) and a transmission opened; otherwise the request comes next, with no call. A call that was
made before this step, and has only now returned, is in `AddressingDecision` (`notes/assumptions/17.md`). -/
def Obligations.RStartDecides : Prop :=
  ∀ s : State, s.seq.phase = .rStart →
    (s.seq.n = 0 → s.microStep = .next { s with seq := { s.seq with phase := .attFail } }) ∧
    (s.seq.n ≠ 0 → s.call = none →
      ¬ ((s.slot s.seq.d).registerSize ≠ 0 ∧ s.seq.reg ≠ (s.slot s.seq.d).cache) →
      s.microStep = .next { s with seq := { s.seq with phase := .rReq } }) ∧
    ∀ (v : Word) (vs : List Word), s.seq.n ≠ 0 → s.call = none → s.replies = v :: vs →
      (s.slot s.seq.d).registerSize ≠ 0 → s.seq.reg ≠ (s.slot s.seq.d).cache →
      s.microStep = .next
        { s.setSlot s.seq.d { s.slot s.seq.d with cache := s.seq.reg } with
          replies := vs
          trace := s.trace ++ [.begin (s.slot s.seq.d).address]
          seq := { s.seq with
            phase := if (s.slot s.seq.d).registerSize = 2 then .rAhi else .rAlo } }

/-- `R_AHI`, `R_ALO` and `R_END` (R212, R213, R214): the high byte of the register address, the low byte, and
the close without releasing the bus; any failure fails the attempt. This is a call that is made now and returns;
one that was outstanding returns to the same (`AtMostOneCallInAMicroStep`, `notes/assumptions/17.md`). -/
def Obligations.ReadAddressBytesAndClose : Prop :=
  ∀ (s : State) (v : Word) (vs : List Word), s.call = none → s.replies = v :: vs →
    (s.seq.phase = .rAhi → s.microStep = .next
      { s with
        replies := vs
        trace := s.trace ++ [.wb (s.seq.reg.extractLsb' 8 8) (v != 0)]
        seq := { s.seq with phase := if v = 0 then .attFail else .rAlo } }) ∧
    (s.seq.phase = .rAlo → s.microStep = .next
      { s with
        replies := vs
        trace := s.trace ++ [.wb (s.seq.reg.extractLsb' 0 8) (v != 0)]
        seq := { s.seq with phase := if v = 0 then .attFail else .rEnd } }) ∧
    (s.seq.phase = .rEnd → s.microStep = .next
      { s with
        replies := vs
        trace := s.trace ++ [.close false v]
        seq := { s.seq with phase := if v = 0 then .rReq else .attFail } })

/-- `R_REQ` (R215): `seq.n` bytes are asked of the address the slot holds at this micro-step; a count of zero
fails the attempt and any other count is accepted and dropped. This is a call that is made now and returns; one
that was outstanding returns to the same (`AtMostOneCallInAMicroStep`, `notes/assumptions/17.md`). -/
def Obligations.RReqRequests : Prop :=
  ∀ (s : State) (v : Word) (vs : List Word), s.seq.phase = .rReq → s.call = none →
    s.replies = v :: vs →
    s.microStep = .next
      { s with
        replies := vs
        trace := s.trace ++ [.req (s.slot s.seq.d).address s.seq.n v]
        seq := if v = 0 then { s.seq with phase := .attFail }
          else { s.seq with i := 0, phase := .rDrain } }

/-- `R_DRAIN` (R216): one received byte goes to `BUF` at `seq.i`, and no other byte of `BUF` changes; the cache
and the index advance by one in the same micro-step, which cannot fail; the last byte ends the attempt in
success. This is a call that is made now and returns; one that was outstanding returns to the same
(`AtMostOneCallInAMicroStep`, `notes/assumptions/17.md`). -/
def Obligations.RDrainTakesOneByte : Prop :=
  ∀ (s : State) (v : Word) (vs : List Word), s.seq.phase = .rDrain → s.call = none →
    s.replies = v :: vs → Memory.wf s.buf = true →
    ∃ t, s.microStep = .next t ∧
      Memory.read t.buf s.seq.i.toNat = v.extractLsb' 0 8 ∧
      (∀ a, a ≠ s.seq.i.toNat → Memory.read t.buf a = Memory.read s.buf a) ∧
      t = { s.setSlot s.seq.d
              { s.slot s.seq.d with cache := (s.slot s.seq.d).cache + 1 } with
            buf := t.buf
            replies := vs
            trace := s.trace ++ [.rb (v.extractLsb' 0 8)]
            seq := if s.seq.i + 1 = s.seq.n then
                { s.seq with i := s.seq.i + 1, ack := true, phase := .release }
              else { s.seq with i := s.seq.i + 1, phase := .rDrain } }

/-- `EXT` (R151, the spec's decision D10): with a relation for the select, the strategy's result gives the
slot its new content, `BUF` its bytes, the trace its events, and success or failure goes on as for the
default strategies; with none the step is refused. That a whole run of the strategy is one micro-step, and that
its result stands in `State.extReplies`, is the model's choice (`notes/assumptions/10.md`; R150 is the nearest
rule, with `EXT` as one row of the phase table). -/
def Obligations.ExternalStrategyRunsOrIsRefused : Prop :=
  ∀ s : State, s.seq.phase = .ext →
    (s.seq.sel ∉ s.params.extSelects →
      s.microStep = .refused (.externalStrategyAbsent s.seq.sel)) ∧
    ∀ (r : ExtResult) (rs : List ExtResult), s.seq.sel ∈ s.params.extSelects →
      s.extReplies = r :: rs →
      s.microStep = .next
        { s.setSlot s.seq.d r.slot with
          extReplies := rs
          buf := Memory.writeAll s.buf r.bufWrites
          trace := s.trace ++ r.events
          seq := if r.success then { s.seq with ack := true, phase := .release }
            else { s.seq with phase := .attFail } }

/-- `ATT_FAIL`, the retry wrapper (R145; that there is no delay after the last attempt is the spec's decision
D17): a delay and one attempt fewer while any is left, otherwise release without success; the descriptor is not
touched. This is a call that is made now and returns; one that was outstanding returns to the same
(`AtMostOneCallInAMicroStep`, `notes/assumptions/17.md`). -/
def Obligations.AttFailRetriesOrGivesUp : Prop :=
  ∀ s : State, s.seq.phase = .attFail →
    (s.seq.retry = 0 →
      s.microStep = .next { s with seq := { s.seq with ack := false, phase := .release } }) ∧
    ∀ (v : Word) (vs : List Word), s.seq.retry ≠ 0 → s.call = none → s.replies = v :: vs →
      s.microStep = .next
        { s with
          replies := vs
          trace := s.trace ++ [.delay s.params.retryDelayMs]
          seq := { s.seq with retry := s.seq.retry - 1, phase := .attStart } }

/-- `RELEASE` (R146; one step for both is the spec's decision D28): the lock is released whatever the
result, the status of slot `seq.d` becomes OK or NACK and is the response, and the sequencer is idle. That
the other sequencer registers keep their values in `IDLE`, which R23 leaves unspecified, is the model's choice
(`notes/assumptions/3.md`). -/
def Obligations.ReleaseEndsTheTransaction : Prop :=
  ∀ s : State, s.seq.phase = .release →
    s.microStep = .next
      { s.setSlot s.seq.d
          { s.slot s.seq.d with status := if s.seq.ack then 0 else 2 } with
        bus := { s.bus with busy := false }
        responses := s.responses ++ [if s.seq.ack then 0 else 2]
        seq := { s.seq with phase := .idle } }

/-- The addressing decision (R171): both default strategies send register-address bytes exactly when the
mode is not NONE and the requested address differs from the cache in any of its 16 bits, with the values the
slot holds when the attempt begins; the sentinel is no special case. Once `T.begin` is outstanding the decision
stands, whatever the slot holds when the call returns: the model's choice (`notes/assumptions/17.md`). -/
def Obligations.AddressingDecision : Prop :=
  ∀ (s t : State) (v : Word) (vs : List Word), s.seq.n ≠ 0 → s.replies = v :: vs →
    s.microStep = .next t →
    (s.seq.phase = .wBegin →
      (s.call = none →
        ((t.seq.phase = .wAhi ∨ t.seq.phase = .wAlo) ↔
          ((s.slot s.seq.d).registerSize ≠ 0 ∧ s.seq.reg ≠ (s.slot s.seq.d).cache)) ∧
        ((s.slot s.seq.d).registerSize = 0 → t.seq.phase = .wData) ∧
        (s.seq.reg = 0xFFFF → (s.slot s.seq.d).cache = 0xFFFF → t.seq.phase = .wData)) ∧
      ∀ (a : SlaveAddr) (next : Addressing), s.call = some (.begin a next) →
        t.call = none ∧ t.replies = vs ∧ t.trace = s.trace ++ [.begin a] ∧
        match next with
        | .high => t.seq.phase = .wAhi ∧ (t.slot s.seq.d).cache = s.seq.reg
        | .low => t.seq.phase = .wAlo ∧ (t.slot s.seq.d).cache = s.seq.reg
        | .skip => t.seq.phase = .wData ∧ t.slot s.seq.d = s.slot s.seq.d) ∧
    (s.seq.phase = .rStart →
      (s.call = none →
        ((t.seq.phase = .rAhi ∨ t.seq.phase = .rAlo) ↔
          ((s.slot s.seq.d).registerSize ≠ 0 ∧ s.seq.reg ≠ (s.slot s.seq.d).cache)) ∧
        ((s.slot s.seq.d).registerSize = 0 → t.seq.phase = .rReq) ∧
        (s.seq.reg = 0xFFFF → (s.slot s.seq.d).cache = 0xFFFF → t.seq.phase = .rReq)) ∧
      ∀ (a : SlaveAddr) (next : Addressing), s.call = some (.begin a next) → next ≠ .skip →
        t.call = none ∧ t.replies = vs ∧ t.trace = s.trace ++ [.begin a] ∧
        t.seq.phase = (if next = .high then .rAhi else .rAlo) ∧
        t.slot s.seq.d = s.slot s.seq.d)

/-! ### The whole machine -/

/-- The phase table (R150; the cut into phases is the spec's decision D13): a micro-step that neither is in
`IDLE` nor waits for the outside world goes to a next phase of the table. That a step in `IDLE`
(`notes/assumptions/20.md`) and a step that waits leave the state as it is, and that a step whose call gets no
reply makes the call and stays in its phase (`notes/assumptions/17.md`), is the model's choice. -/
def Obligations.MicroStepFollowsThePhaseTable : Prop :=
  ∀ s t : State, s.microStep = .next t →
    (t = s ∧ (s.seq.phase = .idle ∨ s.blocked = true)) ∨
      (s.call = none ∧ s.replies = [] ∧ t.seq = s.seq ∧ ∃ c, t.call = some c ∧ c.fits s.seq) ∨
      (s.seq.phase ≠ .idle ∧ s.blocked = false ∧ t.seq.phase ∈ s.seq.phase.successors)

/-- A micro-step, one in `EXT` apart, makes at most one transport call (R52, R60, R150): (1) it takes the oldest
reply and adds the event of one call, or neither; a call that was outstanding is the one that returns, with the
operands it was made with. (2) With no reply pending it makes the call of its row of the phase table, and writes
nothing but the cache in `R_START`, which R211 sets before its call. (3) Making the call and then getting the
reply is the micro-step that gets the reply at once. (4) In a phase with no addressing decision, a call that was
outstanding returns to what a call made now would, but for its own event. That a call can stand outstanding with
no event yet, and that its operands are then fixed, is the model's choice (`notes/assumptions/17.md`). -/
def Obligations.AtMostOneCallInAMicroStep : Prop :=
  (∀ s t : State, s.microStep = .next t → s.seq.phase ≠ .ext →
    (t.trace = s.trace ∧ t.replies = s.replies) ∨
      ∃ c v, t.trace = s.trace ++ [c.event v] ∧ s.replies = v :: t.replies ∧
        (s.call = none ∨ s.call = some c) ∧ t.call = none) ∧
  (∀ s : State, s.call = none → s.replies = [] →
    let makes (c : Call) : Prop := s.microStep = .next { s with call := some c }
    let need : Prop := (s.slot s.seq.d).registerSize ≠ 0 ∧ s.seq.reg ≠ (s.slot s.seq.d).cache
    let bytes : Addressing := if (s.slot s.seq.d).registerSize = 2 then .high else .low
    match s.seq.phase with
    | .wBegin => s.seq.n ≠ 0 →
      (need → makes (.begin (s.slot s.seq.d).address bytes)) ∧
      (¬ need → makes (.begin (s.slot s.seq.d).address .skip))
    | .rStart => s.seq.n ≠ 0 → need →
      s.microStep = .next
        { s.setSlot s.seq.d { s.slot s.seq.d with cache := s.seq.reg } with
          call := some (.begin (s.slot s.seq.d).address bytes) }
    | .wAhi | .rAhi => makes (.write (s.seq.reg.extractLsb' 8 8))
    | .wAlo | .rAlo => makes (.write (s.seq.reg.extractLsb' 0 8))
    | .wData => makes (.write (Memory.read s.buf s.seq.i.toNat))
    | .wEnd => makes (.close true)
    | .rEnd => makes (.close false)
    | .rReq => makes (.request (s.slot s.seq.d).address s.seq.n)
    | .rDrain => makes .read
    | .attFail => s.seq.retry ≠ 0 → makes (.delay s.params.retryDelayMs)
    | .idle | .attStart | .ext | .release => True) ∧
  (∀ s t : State, s.microStep = .next t → s.call = none → t.call ≠ none →
    ∀ (v : Word) (vs : List Word),
      State.microStep { t with replies := v :: vs } = State.microStep { s with replies := v :: vs }) ∧
  ∀ (s : State) (c : Call) (v : Word) (vs : List Word), s.call = some c → c.fits s.seq →
    s.seq.phase ≠ .wBegin → s.seq.phase ≠ .rStart → s.replies = v :: vs →
    ∃ t, State.microStep { s with call := none } = .next t ∧
      s.microStep = .next { t with trace := s.trace ++ [c.event v] }

/-- Every retry is one delay (R147 (c), (d)): no micro-step of the block's own changes the sum of the
`DELAY` events so far and the attempts still allowed, in states where a call that is outstanding belongs to its
phase (part of the invariant that `StepKeepsTheInvariant` states). -/
def Obligations.DelaysCountTheRetries : Prop :=
  ∀ s t : State, s.callFits → s.microStep = .next t → s.seq.phase ≠ .ext →
    t.delays + t.seq.retry.toNat = s.delays + s.seq.retry.toNat ∧
      t.seq.retry ≤ s.seq.retry

/-- A transaction of a default strategy always ends (R147 (d), (e), R278): with enough replies it reaches
`IDLE` within the bound `microStepsLeft`, with at most `seq.retry` more delays, and that is at most 8. -/
def Obligations.TransactionEndsWithinItsBound : Prop :=
  ∀ s : State, s.seq.legal s.params → s.callFits → s.seq.phase ≠ .idle → s.seq.sel < 2 →
    s.seq.microStepsLeft ≤ s.replies.length →
    ∃ k t, k ≤ s.seq.microStepsLeft ∧ s.microRun k = .next t ∧ t.seq.phase = .idle ∧
      t.delays ≤ s.delays + s.seq.retry.toNat ∧ s.seq.retry.toNat ≤ 8

/-- `bus.busy == 1` if and only if `seq.phase != IDLE` is kept by every step (R25, which the spec derives
from R14, R143 and R146). -/
def Obligations.StepKeepsBusyIffInFlight : Prop :=
  ∀ s t : State, s.busyIffInFlight → step s = .next t → t.busyIffInFlight

/-- Every step keeps the invariant of the machine: legal parameters, legal configuration (R11 to R13), legal
slots (R18, R20, R22), busy if and only if in flight (R25), legal sequencer registers (R23, R194, R216), a call
that is outstanding only in a phase that makes it (R150), at most one call outstanding (R52), and the canonical
form of `BUF`. That results of external strategies keep their slot legal is a premise on the outside world and
part of the invariant. Four clauses rest on the model's choices: those on `State.call`
(`notes/assumptions/17.md`: that a call can stand outstanding between two steps, and which commands are taken
meanwhile), that the slots are legal after a reset step (`2.md`; R31 leaves them unspecified), that a waiting
SETSPD keeps the speed it stored (`7.md`), and the canonical form of `BUF` (`4.md`). -/
def Obligations.StepKeepsTheInvariant : Prop :=
  ∀ s t : State, s.Inv → step s = .next t → t.Inv

/-- The state after reset has the invariant of the machine. This is about values the model chose: the slots
(`notes/assumptions/2.md`), the sequencer registers (`3.md`), the buffer (`4.md`), the parameters (`1.md`) and
the model's own fields (`7.md`, `17.md`), of which R31 gives only that the flag is clear, the phase `IDLE` and
the configuration legal. -/
def Obligations.ResetStateHasTheInvariant : Prop :=
  State.Inv State.reset

/-- What a micro-step does to the slots (R172 to R175, R17 to R21), an external strategy apart: only slot
`seq.d` changes; its cache is set to the requested address by the addressing decision (which stands while the
call of its micro-step is outstanding, `notes/assumptions/17.md`) or advanced by one, modulo 2^16, for a data
byte, and by nothing else; its status changes only at release; no other field changes. And of the commands only
INIT writes a cache, to the sentinel. -/
def Obligations.CacheFollowsItsTransitionTable : Prop :=
  (∀ (s t : State) (e : Slot), s.microStep = .next t → s.seq.phase ≠ .ext →
    t.slot e = s.slot e ∨
    (e = s.seq.d ∧
      ((s.seq.phase = .wBegin ∧ (∃ c, s.call = some c ∧ c.next ≠ .skip) ∨
            (s.seq.phase = .wBegin ∨ s.seq.phase = .rStart) ∧ s.call = none ∧
              s.needAddressing e s.seq.reg = true) ∧
          t.slot e = { s.slot e with cache := s.seq.reg } ∨
        (s.seq.phase = .wData ∨ s.seq.phase = .rDrain) ∧
          t.slot e = { s.slot e with cache := (s.slot e).cache + 1 } ∨
        s.seq.phase = .release ∧
          t.slot e = { s.slot e with status := if s.seq.ack then 0 else 2 }))) ∧
  ∀ (i : Instr) (s t : State) (e : Slot), exec i s = .next t →
    (t.slot e).cache = (s.slot e).cache ∨
      (t.slot e).cache = 0xFFFF ∧ ∃ a b, i = .init e a b

/-- `BUF` changes only by the drain of a read attempt, at `seq.i`, by an external strategy, and by the host
itself (R43, R196, R217): every other byte reads after a step as before. -/
def Obligations.BufChangesOnlyByDrainAndHost : Prop :=
  ∀ (s t : State) (a : Nat), Memory.wf s.buf = true → step s = .next t →
    Memory.read t.buf a ≠ Memory.read s.buf a →
    (s.seq.phase = .rDrain ∧ a = s.seq.i.toNat) ∨ s.seq.phase = .ext ∨
      ∃ (i : Word) (b : Byte) (rest : List Input),
        s.nextInput = some (.hostWrite i b, rest) ∧ a = i.toNat ∧ Memory.read t.buf a = b

/-- The three configuration fields change only by their own set commands (R15, R11 to R13), reset apart, and
the parameters of the block never change. -/
def Obligations.ConfigurationChangesOnlyByItsSetters : Prop :=
  ∀ s t : State, step s = .next t →
    t.params = s.params ∧
    ((∀ rest, s.nextInput ≠ some (.reset, rest)) →
      (t.bus.speed ≠ s.bus.speed → ∃ ctx w rest a, s.nextInput = some (.command ctx w, rest) ∧
        decode w = .ok (.setspd a)) ∧
      (t.bus.timeout ≠ s.bus.timeout → ∃ ctx w rest a, s.nextInput = some (.command ctx w, rest) ∧
        decode w = .ok (.settmo a)) ∧
      (t.bus.retries ≠ s.bus.retries → ∃ ctx w rest a, s.nextInput = some (.command ctx w, rest) ∧
        decode w = .ok (.setrty a)))

/-- The busy flag is set only by the admission of a WRITE or READ and cleared only by `RELEASE` or reset; the
two meet `IDLE` in the same step (R14, R143, R146). -/
def Obligations.BusyChangesOnlyAtAdmissionAndRelease : Prop :=
  ∀ s t : State, step s = .next t →
    (s.bus.busy = false → t.bus.busy = true →
      t.seq.phase = .attStart ∧ ∃ ctx w rest i, s.nextInput = some (.command ctx w, rest) ∧
        decode w = .ok i ∧ i.isTransaction = true) ∧
    (s.bus.busy = true → t.bus.busy = false →
      t.seq.phase = .idle ∧ (s.seq.phase = .release ∨ ∃ rest, s.nextInput = some (.reset, rest)))

/-- A transport call, or an external strategy, that never returns is a hang (R148, R151, R276, U14). (1) A
micro-step whose call gets no reply stays in its phase, waiting. (2) With nothing pending but commands of the
main context a machine that waits stays where it is for ever. (3) No command step ends the hang: every one
leaves the sequencer, its outstanding call and the lock as they are and the micro-step waiting; a WRITE or READ
is rejected BUSY, and ISBUSY answers 1 (R149). (4) No step but a reset or an answer from outside ends it: the
lock stays taken and the sequencer in its phase. That a call made stands in `State.call`, its operands fixed, is
the model's choice, and so is which commands the port takes meanwhile (`notes/assumptions/17.md`). -/
def Obligations.UnansweredCallHangs : Prop :=
  (∀ s t : State, s.microStep = .next t → s.call = none → t.call ≠ none →
    t.blocked = true ∧ t.seq = s.seq) ∧
  (∀ (k : Nat) (s : State), s.waits = true →
    (∀ x ∈ s.inputs, ∃ w, x = .command .main w) →
    Sys2Proof.core.run k s = .next s) ∧
  (∀ (i : Instr) (s : State), s.blocked = true → s.bus.busy = true →
    i.wellFormed s.params.nDesc = true →
    ∃ t, exec i s = .next t ∧ t.blocked = true ∧ t.bus.busy = true ∧ t.seq = s.seq ∧
      t.call = s.call ∧
      (i.isTransaction = true ∨ i = .isbusy →
        t.responses = s.responses ++ [1] ∧ t.trace = s.trace)) ∧
  ∀ s t : State, s.blocked = true → s.bus.busy = true → step s = .next t →
    (∀ rest, s.nextInput ≠ some (.reset, rest)) →
    (∀ v rest, s.nextInput ≠ some (.answer v, rest)) →
    (∀ r rest, s.nextInput ≠ some (.strategyResult r, rest)) →
    t.blocked = true ∧ t.bus.busy = true ∧ t.seq = s.seq ∧ t.call = s.call

/-- The timeout changes no behaviour (R13, U4): a step that neither sets it nor resets the block does the
same whatever the timeout is, and leaves it as it is. -/
def Obligations.TimeoutChangesNoBehaviour : Prop :=
  ∀ (s t : State) (v : BitVec 9), step s = .next t →
    (∀ rest, s.nextInput ≠ some (.reset, rest)) →
    (∀ ctx w rest a, s.nextInput = some (.command ctx w, rest) → decode w ≠ .ok (.settmo a)) →
    step { s with bus := { s.bus with timeout := v } } =
      .next { t with bus := { t.bus with timeout := v } }

/-! ### Whole transactions -/

/-- A WRITE of `n >= 1` bytes by the default write strategy, with a transport that accepts everything, runs from
the command to the response (R141, R143, R190, R146): the events are `BEGIN`, the register-address bytes if the
addressing decision needs them, the bytes `BUF[0 .. n-1]` and `END(1)->0`; the cache ends at `reg + n` (at
`cache + n` in mode NONE), the status is OK, the response 0, and nothing else changes but the sequencer
registers; the next contiguous access needs no addressing phase and the same access needs one (R197, R218). -/
def Obligations.WriteTransactionCompletes : Prop :=
  ∀ (d : Slot) (reg n : Word) (s : State) (opened : Word) (acks rest : List Word),
    s.inputs = [.command .main (encode (.write d reg n))] →
    s.call = none → s.clockCall = none → s.seq.phase = .idle → s.bus.busy = false →
    d.toNat < s.params.nDesc →
    (s.slot d).wrSel = 0 → n ≠ 0 →
    acks.length = (s.addressingBytes d reg).length + n.toNat → (∀ v ∈ acks, v ≠ 0) →
    s.replies = opened :: (acks ++ 0 :: rest) →
    ∃ t : State, Sys2Proof.core.run (acks.length + 5) s = .next t ∧
      t.seq.phase = .idle ∧
      t = { s.setSlot d
              { s.slot d with
                cache := if (s.slot d).registerSize = 0 then (s.slot d).cache + n else reg + n
                status := 0 } with
            seq := t.seq
            inputs := []
            replies := rest
            trace := s.trace ++ .begin (s.slot d).address ::
              ((s.addressingBytes d reg ++ Memory.firstBytes s.buf n.toNat).map (Event.wb · true) ++
                [.close true 0])
            responses := s.responses ++ [0] } ∧
      ((s.slot d).registerSize ≠ 0 →
        t.needAddressing d (reg + n) = false ∧ t.needAddressing d reg = true)

/-- A READ of `n >= 1` bytes by the default read strategy, with a transport that accepts everything and
answers the request with any count but zero, runs from the command to the response (R142, R143, R210, R146):
the addressing phase if it is needed, the request and the drain; `BUF[0 .. n-1]` holds the bytes received and
every other byte of `BUF` is as before; the cache ends at `reg + n` (at `cache + n` in mode NONE), the status
is OK, the response 0, and nothing else changes but the sequencer registers. -/
def Obligations.ReadTransactionCompletes : Prop :=
  ∀ (d : Slot) (reg n : Word) (s : State) (opened cnt : Word) (acks bytes rest : List Word),
    s.inputs = [.command .main (encode (.read d reg n))] →
    s.call = none → s.clockCall = none → s.seq.phase = .idle → s.bus.busy = false →
    d.toNat < s.params.nDesc →
    (s.slot d).rdSel = 1 → n ≠ 0 → Memory.wf s.buf = true →
    acks.length = (s.addressingBytes d reg).length → (∀ v ∈ acks, v ≠ 0) →
    cnt ≠ 0 → bytes.length = n.toNat →
    s.replies = (if s.needAddressing d reg then opened :: (acks ++ [0]) else []) ++
      cnt :: (bytes ++ rest) →
    ∃ (k : Nat) (t : State), Sys2Proof.core.run k s = .next t ∧ t.seq.phase = .idle ∧
      (∀ (i : Nat) (h : i < bytes.length), Memory.read t.buf i = bytes[i].extractLsb' 0 8) ∧
      (∀ a, n.toNat ≤ a → Memory.read t.buf a = Memory.read s.buf a) ∧
      t = { s.setSlot d
              { s.slot d with
                cache := if (s.slot d).registerSize = 0 then (s.slot d).cache + n else reg + n
                status := 0 } with
            seq := t.seq
            buf := t.buf
            inputs := []
            replies := rest
            trace := s.trace ++
              (if s.needAddressing d reg then
                .begin (s.slot d).address ::
                  ((s.addressingBytes d reg).map (Event.wb · true) ++ [.close false 0])
              else []) ++
              .req (s.slot d).address n cnt ::
                (bytes.map fun v => Event.rb (v.extractLsb' 0 8))
            responses := s.responses ++ [0] }

/-- A WRITE or READ of zero bytes (R275, R147 (c)): every attempt fails with no transport call, there are as
many delays as retries and no other event, the transaction ends NACK with the cache as it was and the lock
released. -/
def Obligations.ZeroCountEndsNack : Prop :=
  ∀ (d : Slot) (reg : Word) (s : State) (i : Instr) (dir : Direction) (delays rest : List Word),
    (i = .write d reg 0 ∧ dir = .write ∨ i = .read d reg 0 ∧ dir = .read) →
    s.inputs = [.command .main (encode i)] →
    s.call = none → s.clockCall = none → s.seq.phase = .idle → s.bus.busy = false →
    d.toNat < s.params.nDesc →
    (s.slot d).select dir < 2 →
    delays.length = s.bus.retries.toNat → s.replies = delays ++ rest →
    ∃ t : State, Sys2Proof.core.run (3 * s.bus.retries.toNat + 5) s = .next t ∧
      t.seq.phase = .idle ∧
      t = { s.setSlot d { s.slot d with status := 2 } with
            seq := t.seq
            inputs := []
            replies := rest
            trace := s.trace ++
              List.replicate s.bus.retries.toNat (.delay s.params.retryDelayMs)
            responses := s.responses ++ [2] }

/-- The micro-steps `W_BEGIN` to `W_END` are the procedure `write_attempt` (R190), whatever the transport
replies: from `W_BEGIN` the sequencer reaches `RELEASE` with `seq.ack` set where the procedure succeeds and
`ATT_FAIL` where it fails, with the same slots, trace, replies and everything else outside the sequencer
registers, within `n + 4` micro-steps, and with the registers the admission loaded (slot, direction, select,
register address, count and retries) unchanged. -/
def Obligations.WriteStrategyRefinesItsProcedure : Prop :=
  ∀ (s u : State) (ok : Bool), s.seq.phase = .wBegin → s.call = none →
    s.writeAttempt = some (ok, u) →
    ∃ (k : Nat) (t : State), k ≤ s.seq.n.toNat + 4 ∧ s.microRun k = .next t ∧
      t = { u with seq := t.seq } ∧
      (if ok then t.seq.phase = .release ∧ t.seq.ack = true else t.seq.phase = .attFail) ∧
      t.seq.d = s.seq.d ∧ t.seq.dir = s.seq.dir ∧ t.seq.sel = s.seq.sel ∧ t.seq.reg = s.seq.reg ∧
      t.seq.n = s.seq.n ∧ t.seq.retry = s.seq.retry

/-- The micro-steps `R_START` to `R_DRAIN` are the procedure `read_attempt` (R210), whatever the transport
replies, in the same sense, within `n + 5` micro-steps. -/
def Obligations.ReadStrategyRefinesItsProcedure : Prop :=
  ∀ (s u : State) (ok : Bool), s.seq.phase = .rStart → s.call = none →
    s.readAttempt = some (ok, u) →
    ∃ (k : Nat) (t : State), k ≤ s.seq.n.toNat + 5 ∧ s.microRun k = .next t ∧
      t = { u with seq := t.seq } ∧
      (if ok then t.seq.phase = .release ∧ t.seq.ack = true else t.seq.phase = .attFail) ∧
      t.seq.d = s.seq.d ∧ t.seq.dir = s.seq.dir ∧ t.seq.sel = s.seq.sel ∧ t.seq.reg = s.seq.reg ∧
      t.seq.n = s.seq.n ∧ t.seq.retry = s.seq.retry

/-- The sequencer is `transact` of R140 (steps 4 to 6) for the default strategies, whatever the transport
replies: attempts until the first success or the retries are used up, a delay before each retry, then the
lock released and the status set and returned. The number of attempts is at least 1 and at most
`1 + retries`, exactly that when none succeeds, and the delays are one fewer (R147 (a) to (d)). -/
def Obligations.SequencerRefinesTransact : Prop :=
  ∀ (s u : State) (m : Nat) (ok : Bool), s.seq.phase = .attStart → s.call = none →
    s.seq.sel < 2 →
    State.attemptLoop s.seq.retry.toNat s = some (m, ok, u) →
    ∃ (k : Nat) (t : State), s.microRun k = .next t ∧ t.seq.phase = .idle ∧
      t = { u.finishTransaction s.seq.d ok with seq := t.seq } ∧
      1 ≤ m ∧ m ≤ s.seq.retry.toNat + 1 ∧ (ok = false → m = s.seq.retry.toNat + 1) ∧
      t.delays + 1 = s.delays + m

/-! ### Hazards, reset and the state view -/

/-- The last-register hazard is kept (R263, U1): after INIT in 16-bit mode, an access to register 0xFFFF
needs no addressing phase and an access to any other register does. -/
def Obligations.LastRegisterHazardIsKept : Prop :=
  ∀ (d : Slot) (a : Word) (s t : State), exec (.init d a 2) s = .next t →
    t.needAddressing d 0xFFFF = false ∧
    ∀ reg, reg ≠ 0xFFFF → t.needAddressing d reg = true

/-- A retry after a failed addressing phase sends no register address (R264). An attempt of a default strategy
that needed addressing and then fails with `F_ADDR_HI` or `F_ADDR_LO` (any refused address byte),
`F_ADDR_CLOSE`, `F_REQ_ZERO`, or `F_DATA_WRITE` on the first data byte leaves the cache at the requested
address: it needs no addressing phase any more, and after the delay the next attempt begins so. -/
def Obligations.RetrySkipsTheFailedAddressing : Prop :=
  ∀ (s : State) (opened : Word) (oks fail rest : List Word),
    s.call = none → s.seq.n ≠ 0 → (s.slot s.seq.d).registerSize ≠ 0 →
    s.seq.reg ≠ (s.slot s.seq.d).cache →
    (∀ v ∈ oks, v ≠ 0) → s.replies = opened :: (oks ++ (fail ++ rest)) →
    (s.seq.phase = .wBegin ∧ fail = [0] ∧
        oks.length ≤ (s.addressingBytes s.seq.d s.seq.reg).length ∨
      s.seq.phase = .rStart ∧ fail = [0] ∧
        oks.length < (s.addressingBytes s.seq.d s.seq.reg).length ∨
      s.seq.phase = .rStart ∧ (fail = [0, 0] ∨ ∃ st, st ≠ 0 ∧ fail = [st]) ∧
        oks.length = (s.addressingBytes s.seq.d s.seq.reg).length) →
    ∃ t : State, State.microRun (1 + oks.length + fail.length) s = .next t ∧
      t.seq.phase = .attFail ∧ t.seq.d = s.seq.d ∧ t.seq.reg = s.seq.reg ∧ t.seq.n = s.seq.n ∧
      t.seq.retry = s.seq.retry ∧ t.replies = rest ∧ (t.slot s.seq.d).cache = s.seq.reg ∧
      t.needAddressing s.seq.d s.seq.reg = false ∧
      ∀ (delay : Word) (vs : List Word), s.seq.retry ≠ 0 → rest = delay :: vs →
        ∃ u, t.microStep = .next u ∧ u.seq.phase = .attStart ∧ u.seq.d = s.seq.d ∧
          u.seq.reg = s.seq.reg ∧ u.seq.retry = s.seq.retry - 1 ∧
          u.needAddressing s.seq.d s.seq.reg = false

/-- Reset (R260, R31): from any state, in flight or hung, the flag is clear, the sequencer idle and the three
configuration fields at the OPEN reset parameters (D18); no transport call is made, and `BUF`, the trace and the
responses stay. Three points rest on the log: that a call of the sequencer that is cut off is given up with no
event and no response, and the pending replies stay (`notes/assumptions/13.md`, DEDUCED; that such a call stands
in `State.call` is the model's choice, `17.md`); that a `T.set_clock` that is cut off is given up in the same
way (the model's reading, `7.md`, `13.md`); and that the inputs are a list of which reset takes one (`8.md`).
What the slots and the other sequencer registers hold is the model's choice (`2.md`, `3.md`) and not stated. -/
def Obligations.ResetGivesTheInitialState : Prop :=
  (∀ (s : State) (rest : List Input), s.nextInput = some (.reset, rest) →
    ∃ t, step s = .next t ∧ t.bus.busy = false ∧ t.seq.phase = .idle ∧ t.call = none ∧
      t.clockCall = none ∧
      t.bus.speed = s.params.resetSpeed ∧ t.bus.retries = s.params.resetRetries ∧
      t.bus.timeout = s.params.resetTimeout ∧ t.params = s.params ∧ t.buf = s.buf ∧
      t.trace = s.trace ∧ t.responses = s.responses ∧ t.replies = s.replies ∧ t.inputs = rest) ∧
  State.reset.bus.busy = false ∧ State.reset.seq.phase = .idle ∧
  State.reset.bus.speed = State.reset.params.resetSpeed ∧
  State.reset.bus.retries = State.reset.params.resetRetries ∧
  State.reset.bus.timeout = State.reset.params.resetTimeout

/-- The state view (R28; its numbers are the spec's decision D25): each number reads its field,
zero-extended to 16 bits. -/
def Obligations.StateViewReadsTheFields : Prop :=
  ∀ (s : State) (d : Slot), d.toNat < s.params.nDesc →
    s.view (.br 0) = some s.bus.speed ∧
    s.view (.br 1) = some (s.bus.retries.setWidth 16) ∧
    s.view (.br 2) = some (s.bus.timeout.setWidth 16) ∧
    s.view (.br 3) = some (if s.bus.busy then 1 else 0) ∧
    s.view (.dr d 0) = some ((s.slot d).address.setWidth 16) ∧
    s.view (.dr d 1) = some ((s.slot d).registerSize.setWidth 16) ∧
    s.view (.dr d 2) = some (s.slot d).cache ∧
    s.view (.dr d 3) = some ((s.slot d).status.setWidth 16) ∧
    s.view (.dr d 4) = some (s.slot d).wrSel ∧
    s.view (.dr d 5) = some (s.slot d).rdSel

/-! ### A call in a command step -/

/-- `T.set_clock` blocks the block as every transport call does (R52, R58, R120, R276). With nothing pending but
commands, of either context: (1) a call of the sequencer that is outstanding returns first, for calls are made
one at a time (a state that no run reaches, by `StepKeepsTheInvariant`); (2) with none outstanding the machine
stays where it is for ever while `T.set_clock` has not returned; (3) when it returns SETSPD responds with the
effective speed before anything else moves. How the model holds the call is `notes/assumptions/7.md`. -/
def Obligations.ClockCallHoldsTheBlock : Prop :=
  ∀ (s : State) (eff : Word), s.clockCall = some eff →
    (∀ x ∈ s.inputs, ∃ ctx w, x = .command ctx w) →
    (s.call ≠ none → step s = s.microStep) ∧
    (s.call = none → s.replies = [] → ∀ k, Sys2Proof.core.run k s = .next s) ∧
    ∀ (v : Word) (vs : List Word), s.call = none → s.replies = v :: vs →
      step s = .next
        { s with
          clockCall := none
          replies := vs
          trace := s.trace ++ [.clk (BitVec.ofNat 32 (eff.toNat * 1000))]
          responses := s.responses ++ [eff] }
end

