-- ==== Sys2Proof/Laws/Memory.lean ====
section
/-! SUPPORT. The laws of `BUF`: a read after a write, the canonical form, and that equal canonical
memories are equal lists. -/

namespace Sys2Proof.Machine

@[simp] theorem read_nil (a : Nat) : Memory.read [] a = Memory.unlisted := rfl

@[simp] theorem read_cons (c : Host.Cell) (m : Memory) (a : Nat) :
    Memory.read (c :: m) a = if c.1 = a then c.2 else Memory.read m a := rfl

theorem wfFrom_mono {lo lo' : Nat} {m : Memory} (h : lo' ≤ lo) (hm : Memory.wfFrom lo m = true) :
    Memory.wfFrom lo' m = true := by
  cases m with
  | nil => rfl
  | cons c m =>
    simp only [Memory.wfFrom, Bool.and_eq_true, decide_eq_true_eq] at hm ⊢
    exact ⟨⟨⟨le_trans h hm.1.1.1, hm.1.1.2⟩, hm.1.2⟩, hm.2⟩

/-- An address below the canonical form's start is not listed. -/
theorem read_of_lt_wfFrom {lo a : Nat} {m : Memory} (hm : Memory.wfFrom lo m = true) (h : a < lo) :
    Memory.read m a = Memory.unlisted := by
  induction m generalizing lo with
  | nil => rfl
  | cons c m ih =>
    simp only [Memory.wfFrom, Bool.and_eq_true, decide_eq_true_eq] at hm
    rw [read_cons, if_neg (by omega)]
    exact ih hm.2 (by omega)

/-- The cell put in front reads back, and hides nothing else. -/
theorem read_consCell {a lo : Nat} {b : Byte} {m : Memory} (hm : Memory.wfFrom lo m = true)
    (h : a < lo) (a' : Nat) :
    Memory.read (Memory.cons a b m) a' = if a' = a then b else Memory.read m a' := by
  unfold Memory.cons
  by_cases hb : b = Memory.unlisted
  · rw [if_pos hb]
    by_cases ha : a' = a
    · subst ha; rw [if_pos rfl, hb]; exact read_of_lt_wfFrom hm h
    · rw [if_neg ha]
  · rw [if_neg hb, read_cons]
    by_cases ha : a' = a
    · subst ha; simp
    · rw [if_neg ha, if_neg (fun h => ha h.symm)]

/-- `MemWrite` then `MemRead`: the byte written at its address, the old byte everywhere else. -/
theorem read_writeFrom {lo : Nat} {m : Memory} (hm : Memory.wfFrom lo m = true) (a : Nat) (b : Byte)
    (a' : Nat) :
    Memory.read (Memory.write m a b) a' = if a' = a then b else Memory.read m a' := by
  induction m generalizing lo with
  | nil =>
    exact read_consCell (lo := a + 1) rfl (Nat.lt_succ_self a) a'
  | cons c m ih =>
    have hm' := hm
    simp only [Memory.wfFrom, Bool.and_eq_true, decide_eq_true_eq] at hm
    unfold Memory.write
    split
    · next h =>
      refine read_consCell (lo := c.1) ?_ h a'
      simp only [Memory.wfFrom, Bool.and_eq_true, decide_eq_true_eq]
      exact ⟨⟨⟨le_refl _, hm.1.1.2⟩, hm.1.2⟩, hm.2⟩
    · split
      · next h =>
        rw [read_consCell hm.2 (by omega) a']
        by_cases ha : a' = a
        · simp [ha]
        · rw [if_neg ha, if_neg ha, read_cons, if_neg (by omega)]
      · rw [read_cons, ih hm.2, read_cons]
        by_cases hc : c.1 = a'
        · rw [if_pos hc, if_pos hc, if_neg (by omega)]
        · rw [if_neg hc, if_neg hc]

theorem read_write {m : Memory} (hm : Memory.wf m = true) (a : Nat) (b : Byte) (a' : Nat) :
    Memory.read (Memory.write m a b) a' = if a' = a then b else Memory.read m a' :=
  read_writeFrom hm a b a'

theorem read_write_self {m : Memory} (hm : Memory.wf m = true) (a : Nat) (b : Byte) :
    Memory.read (Memory.write m a b) a = b := by simp [read_write hm]

theorem read_write_ne {m : Memory} (hm : Memory.wf m = true) {a a' : Nat} (h : a' ≠ a) (b : Byte) :
    Memory.read (Memory.write m a b) a' = Memory.read m a' := by simp [read_write hm, h]

theorem wfFrom_consCell {lo a : Nat} {b : Byte} {m : Memory} (hlo : lo ≤ a)
    (ha : a < Config.bufSize) (hm : Memory.wfFrom (a + 1) m = true) :
    Memory.wfFrom lo (Memory.cons a b m) = true := by
  unfold Memory.cons
  split
  · exact wfFrom_mono (by omega) hm
  · next hb =>
    simp only [Memory.wfFrom, Bool.and_eq_true, decide_eq_true_eq]
    exact ⟨⟨⟨hlo, ha⟩, hb⟩, hm⟩

theorem wfFrom_write {lo : Nat} {m : Memory} (hm : Memory.wfFrom lo m = true) {a : Nat}
    (hlo : lo ≤ a) (ha : a < Config.bufSize) (b : Byte) :
    Memory.wfFrom lo (Memory.write m a b) = true := by
  induction m generalizing lo with
  | nil => exact wfFrom_consCell hlo ha rfl
  | cons c m ih =>
    have hm' := hm
    simp only [Memory.wfFrom, Bool.and_eq_true, decide_eq_true_eq] at hm
    unfold Memory.write
    split
    · next h =>
      refine wfFrom_consCell hlo ha ?_
      simp only [Memory.wfFrom, Bool.and_eq_true, decide_eq_true_eq]
      exact ⟨⟨⟨h, hm.1.1.2⟩, hm.1.2⟩, hm.2⟩
    · split
      · next h => subst h; exact wfFrom_consCell hlo ha hm.2
      · simp only [Memory.wfFrom, Bool.and_eq_true, decide_eq_true_eq]
        exact ⟨⟨⟨hm.1.1.1, hm.1.1.2⟩, hm.1.2⟩, ih hm.2 (by omega)⟩

/-- A write inside `BUF` keeps the canonical form. -/
theorem wf_write {m : Memory} (hm : Memory.wf m = true) {a : Nat} (ha : a < Config.bufSize)
    (b : Byte) : Memory.wf (Memory.write m a b) = true :=
  wfFrom_write hm (Nat.zero_le a) ha b

/-- Every index of `BUF` is inside it (R43). -/
theorem index_lt_bufSize (i : Word) : i.toNat < Config.bufSize := i.isLt

theorem wf_writeAll {m : Memory} (hm : Memory.wf m = true) (ps : List (Word × Byte)) :
    Memory.wf (Memory.writeAll m ps) = true := by
  induction ps generalizing m with
  | nil => exact hm
  | cons p ps ih => exact ih (wf_write hm (index_lt_bufSize p.1) p.2)

/-- Canonical memories that read alike are the same list. -/
theorem eq_of_read_eqFrom {lo : Nat} {m m' : Memory} (hm : Memory.wfFrom lo m = true)
    (hm' : Memory.wfFrom lo m' = true) (h : ∀ a, Memory.read m a = Memory.read m' a) : m = m' := by
  induction m generalizing m' lo with
  | nil =>
    cases m' with
    | nil => rfl
    | cons c' m' =>
      simp only [Memory.wfFrom, Bool.and_eq_true, decide_eq_true_eq] at hm'
      have := h c'.1
      simp at this
      exact absurd this.symm hm'.1.2
  | cons c m ih =>
    simp only [Memory.wfFrom, Bool.and_eq_true, decide_eq_true_eq] at hm
    cases m' with
    | nil =>
      have := h c.1
      simp at this
      exact absurd this hm.1.2
    | cons c' m' =>
      simp only [Memory.wfFrom, Bool.and_eq_true, decide_eq_true_eq] at hm'
      have hkey : c.1 = c'.1 := by
        rcases Nat.lt_trichotomy c.1 c'.1 with hlt | heq | hgt
        · have := h c.1
          rw [read_cons, if_pos rfl, read_cons, if_neg (by omega),
            read_of_lt_wfFrom hm'.2 (by omega)] at this
          exact absurd this hm.1.2
        · exact heq
        · have := h c'.1
          rw [read_cons, if_neg (by omega), read_cons, if_pos rfl,
            read_of_lt_wfFrom hm.2 (by omega)] at this
          exact absurd this.symm hm'.1.2
      have hval : c.2 = c'.2 := by
        have := h c.1
        rwa [read_cons, if_pos rfl, read_cons, if_pos hkey.symm] at this
      have hc : c = c' := Prod.ext hkey hval
      subst hc
      congr 1
      refine ih hm.2 hm'.2 fun a => ?_
      by_cases ha : c.1 = a
      · subst ha
        rw [read_of_lt_wfFrom hm.2 (by omega), read_of_lt_wfFrom hm'.2 (by omega)]
      · have := h a
        rwa [read_cons, if_neg ha, read_cons, if_neg ha] at this

theorem eq_of_read_eq {m m' : Memory} (hm : Memory.wf m = true) (hm' : Memory.wf m' = true)
    (h : ∀ a, Memory.read m a = Memory.read m' a) : m = m' :=
  eq_of_read_eqFrom hm hm' h

end Sys2Proof.Machine
end

