-- ==== Sys2Proof/Laws/Operands.lean ====
section
/-! SUPPORT. The operand checks and clamps as comparisons and minima of unsigned values (R72, R176). -/

namespace Sys2Proof.Machine

theorem addressValid_iff (a : Word) : addressValid a = true ↔ a ≤ 0x7F := by
  unfold addressValid Config.addrMax
  exact decide_eq_true_iff

theorem addressValid_false_iff (a : Word) : addressValid a = false ↔ 0x7F < a := by
  rw [← Bool.not_eq_true, addressValid_iff, BitVec.not_le]

theorem sizeValid_iff (a : Word) : sizeValid a = true ↔ a ≤ 2 := by
  unfold sizeValid Config.regSizeMax
  exact decide_eq_true_iff

theorem sizeValid_false_iff (a : Word) : sizeValid a = false ↔ 2 < a := by
  rw [← Bool.not_eq_true, sizeValid_iff, BitVec.not_le]

theorem storedSize_eq (a : Word) : storedSize a = if a ≤ 2 then a.extractLsb' 0 2 else 2 := by
  unfold storedSize
  by_cases h : a ≤ 2
  · rw [if_pos ((sizeValid_iff a).2 h), if_pos h]
  · rw [if_neg fun h' => h ((sizeValid_iff a).1 h'), if_neg h]

/-- The size stored is always a defined mode: code 3 is never stored (R18). -/
theorem storedSize_ne_three (a : Word) : storedSize a ≠ 3 := by
  rw [storedSize_eq]
  split
  · next h =>
    have h' : a.toNat ≤ 2 := h
    intro hc
    have := congrArg BitVec.toNat hc
    simp only [BitVec.extractLsb'_toNat, Nat.shiftRight_zero] at this
    have h3 : (3 : BitVec 2).toNat = 3 := rfl
    omega
  · decide

theorem toNat_minWord (a b : Word) : (minWord a b).toNat = min a.toNat b.toNat := by
  unfold minWord
  split
  · next h => exact (Nat.min_eq_left h).symm
  · next h => exact (Nat.min_eq_right (Nat.le_of_lt (Nat.lt_of_not_le h))).symm

theorem toNat_effectiveTimeout (a : Word) : (effectiveTimeout a).toNat = min a.toNat 500 :=
  toNat_minWord a Config.timeoutMax

theorem toNat_effectiveRetries (a : Word) : (effectiveRetries a).toNat = min a.toNat 8 :=
  toNat_minWord a Config.retriesMax

/-- The conversion to hertz is exact in 32 bits (R176 (a)). -/
theorem toNat_clockHz (eff : Word) : (clockHz eff).toNat = eff.toNat * 1000 := by
  have := eff.isLt
  unfold clockHz
  simp only [BitVec.toNat_mul, BitVec.toNat_setWidth]
  have h : (1000 : BitVec 32).toNat = 1000 := rfl
  rw [h]
  omega

theorem replyOk_iff (v : Word) : replyOk v = true ↔ v ≠ 0 := by
  unfold replyOk
  exact decide_eq_true_iff

theorem replyOk_false_iff (v : Word) : replyOk v = false ↔ v = 0 := by
  rw [← Bool.not_eq_true, replyOk_iff, not_not]

end Sys2Proof.Machine
end

