-- ==== Sys2Proof/Laws/State.lean ====
section
/-! SUPPORT. What each update of the state does to each field, true by `rfl`, and what it does to the
slots of the descriptor file. -/

namespace Sys2Proof.Machine

/-! ### `setSlot` -/

section
variable (d : Slot) (x : SlaveDescriptor) (s : State)

@[simp] theorem setSlot_params : (s.setSlot d x).params = s.params := rfl
@[simp] theorem setSlot_bus : (s.setSlot d x).bus = s.bus := rfl
@[simp] theorem setSlot_desc : (s.setSlot d x).desc = s.desc.set d.toNat x d.isLt := rfl
@[simp] theorem setSlot_seq : (s.setSlot d x).seq = s.seq := rfl
@[simp] theorem setSlot_call : (s.setSlot d x).call = s.call := rfl
@[simp] theorem setSlot_clockCall : (s.setSlot d x).clockCall = s.clockCall := rfl
@[simp] theorem setSlot_buf : (s.setSlot d x).buf = s.buf := rfl
@[simp] theorem setSlot_inputs : (s.setSlot d x).inputs = s.inputs := rfl
@[simp] theorem setSlot_replies : (s.setSlot d x).replies = s.replies := rfl
@[simp] theorem setSlot_extReplies : (s.setSlot d x).extReplies = s.extReplies := rfl
@[simp] theorem setSlot_trace : (s.setSlot d x).trace = s.trace := rfl
@[simp] theorem setSlot_responses : (s.setSlot d x).responses = s.responses := rfl
@[simp] theorem setSlot_draws : (s.setSlot d x).draws = s.draws := rfl
end

/-! ### `setStatus` -/

section
variable (d : Slot) (v : BitVec 2) (s : State)

@[simp] theorem setStatus_params : (s.setStatus d v).params = s.params := rfl
@[simp] theorem setStatus_bus : (s.setStatus d v).bus = s.bus := rfl
@[simp] theorem setStatus_desc :
    (s.setStatus d v).desc = s.desc.set d.toNat { s.slot d with status := v } d.isLt := rfl
@[simp] theorem setStatus_seq : (s.setStatus d v).seq = s.seq := rfl
@[simp] theorem setStatus_call : (s.setStatus d v).call = s.call := rfl
@[simp] theorem setStatus_clockCall : (s.setStatus d v).clockCall = s.clockCall := rfl
@[simp] theorem setStatus_buf : (s.setStatus d v).buf = s.buf := rfl
@[simp] theorem setStatus_inputs : (s.setStatus d v).inputs = s.inputs := rfl
@[simp] theorem setStatus_replies : (s.setStatus d v).replies = s.replies := rfl
@[simp] theorem setStatus_extReplies : (s.setStatus d v).extReplies = s.extReplies := rfl
@[simp] theorem setStatus_trace : (s.setStatus d v).trace = s.trace := rfl
@[simp] theorem setStatus_responses : (s.setStatus d v).responses = s.responses := rfl
@[simp] theorem setStatus_draws : (s.setStatus d v).draws = s.draws := rfl
end

/-! ### `cacheSet` -/

section
variable (d : Slot) (reg : Word) (s : State)

@[simp] theorem cacheSet_params : (s.cacheSet d reg).params = s.params := rfl
@[simp] theorem cacheSet_bus : (s.cacheSet d reg).bus = s.bus := rfl
@[simp] theorem cacheSet_desc :
    (s.cacheSet d reg).desc = s.desc.set d.toNat { s.slot d with cache := reg } d.isLt := rfl
@[simp] theorem cacheSet_seq : (s.cacheSet d reg).seq = s.seq := rfl
@[simp] theorem cacheSet_call : (s.cacheSet d reg).call = s.call := rfl
@[simp] theorem cacheSet_clockCall : (s.cacheSet d reg).clockCall = s.clockCall := rfl
@[simp] theorem cacheSet_buf : (s.cacheSet d reg).buf = s.buf := rfl
@[simp] theorem cacheSet_inputs : (s.cacheSet d reg).inputs = s.inputs := rfl
@[simp] theorem cacheSet_replies : (s.cacheSet d reg).replies = s.replies := rfl
@[simp] theorem cacheSet_extReplies : (s.cacheSet d reg).extReplies = s.extReplies := rfl
@[simp] theorem cacheSet_trace : (s.cacheSet d reg).trace = s.trace := rfl
@[simp] theorem cacheSet_responses : (s.cacheSet d reg).responses = s.responses := rfl
@[simp] theorem cacheSet_draws : (s.cacheSet d reg).draws = s.draws := rfl
end

/-! ### `cacheInc` -/

section
variable (d : Slot) (s : State)

@[simp] theorem cacheInc_params : (s.cacheInc d).params = s.params := rfl
@[simp] theorem cacheInc_bus : (s.cacheInc d).bus = s.bus := rfl
@[simp] theorem cacheInc_desc :
    (s.cacheInc d).desc = s.desc.set d.toNat { s.slot d with cache := (s.slot d).cache + 1 } d.isLt := rfl
@[simp] theorem cacheInc_seq : (s.cacheInc d).seq = s.seq := rfl
@[simp] theorem cacheInc_call : (s.cacheInc d).call = s.call := rfl
@[simp] theorem cacheInc_clockCall : (s.cacheInc d).clockCall = s.clockCall := rfl
@[simp] theorem cacheInc_buf : (s.cacheInc d).buf = s.buf := rfl
@[simp] theorem cacheInc_inputs : (s.cacheInc d).inputs = s.inputs := rfl
@[simp] theorem cacheInc_replies : (s.cacheInc d).replies = s.replies := rfl
@[simp] theorem cacheInc_extReplies : (s.cacheInc d).extReplies = s.extReplies := rfl
@[simp] theorem cacheInc_trace : (s.cacheInc d).trace = s.trace := rfl
@[simp] theorem cacheInc_responses : (s.cacheInc d).responses = s.responses := rfl
@[simp] theorem cacheInc_draws : (s.cacheInc d).draws = s.draws := rfl
end

/-! ### `setPhase` -/

section
variable (p : Phase) (s : State)

@[simp] theorem setPhase_params : (s.setPhase p).params = s.params := rfl
@[simp] theorem setPhase_bus : (s.setPhase p).bus = s.bus := rfl
@[simp] theorem setPhase_desc : (s.setPhase p).desc = s.desc := rfl
@[simp] theorem setPhase_seq : (s.setPhase p).seq = { s.seq with phase := p } := rfl
@[simp] theorem setPhase_call : (s.setPhase p).call = s.call := rfl
@[simp] theorem setPhase_clockCall : (s.setPhase p).clockCall = s.clockCall := rfl
@[simp] theorem setPhase_buf : (s.setPhase p).buf = s.buf := rfl
@[simp] theorem setPhase_inputs : (s.setPhase p).inputs = s.inputs := rfl
@[simp] theorem setPhase_replies : (s.setPhase p).replies = s.replies := rfl
@[simp] theorem setPhase_extReplies : (s.setPhase p).extReplies = s.extReplies := rfl
@[simp] theorem setPhase_trace : (s.setPhase p).trace = s.trace := rfl
@[simp] theorem setPhase_responses : (s.setPhase p).responses = s.responses := rfl
@[simp] theorem setPhase_draws : (s.setPhase p).draws = s.draws := rfl
@[simp] theorem setPhase_slot (e : Slot) : (s.setPhase p).slot e = s.slot e := rfl
end

/-! ### `setIndex` -/

section
variable (v : Word) (s : State)

@[simp] theorem setIndex_params : (s.setIndex v).params = s.params := rfl
@[simp] theorem setIndex_bus : (s.setIndex v).bus = s.bus := rfl
@[simp] theorem setIndex_desc : (s.setIndex v).desc = s.desc := rfl
@[simp] theorem setIndex_seq : (s.setIndex v).seq = { s.seq with i := v } := rfl
@[simp] theorem setIndex_call : (s.setIndex v).call = s.call := rfl
@[simp] theorem setIndex_clockCall : (s.setIndex v).clockCall = s.clockCall := rfl
@[simp] theorem setIndex_buf : (s.setIndex v).buf = s.buf := rfl
@[simp] theorem setIndex_inputs : (s.setIndex v).inputs = s.inputs := rfl
@[simp] theorem setIndex_replies : (s.setIndex v).replies = s.replies := rfl
@[simp] theorem setIndex_extReplies : (s.setIndex v).extReplies = s.extReplies := rfl
@[simp] theorem setIndex_trace : (s.setIndex v).trace = s.trace := rfl
@[simp] theorem setIndex_responses : (s.setIndex v).responses = s.responses := rfl
@[simp] theorem setIndex_draws : (s.setIndex v).draws = s.draws := rfl
@[simp] theorem setIndex_slot (e : Slot) : (s.setIndex v).slot e = s.slot e := rfl
end

/-! ### `setRetry` -/

section
variable (v : BitVec 4) (s : State)

@[simp] theorem setRetry_params : (s.setRetry v).params = s.params := rfl
@[simp] theorem setRetry_bus : (s.setRetry v).bus = s.bus := rfl
@[simp] theorem setRetry_desc : (s.setRetry v).desc = s.desc := rfl
@[simp] theorem setRetry_seq : (s.setRetry v).seq = { s.seq with retry := v } := rfl
@[simp] theorem setRetry_call : (s.setRetry v).call = s.call := rfl
@[simp] theorem setRetry_clockCall : (s.setRetry v).clockCall = s.clockCall := rfl
@[simp] theorem setRetry_buf : (s.setRetry v).buf = s.buf := rfl
@[simp] theorem setRetry_inputs : (s.setRetry v).inputs = s.inputs := rfl
@[simp] theorem setRetry_replies : (s.setRetry v).replies = s.replies := rfl
@[simp] theorem setRetry_extReplies : (s.setRetry v).extReplies = s.extReplies := rfl
@[simp] theorem setRetry_trace : (s.setRetry v).trace = s.trace := rfl
@[simp] theorem setRetry_responses : (s.setRetry v).responses = s.responses := rfl
@[simp] theorem setRetry_draws : (s.setRetry v).draws = s.draws := rfl
@[simp] theorem setRetry_slot (e : Slot) : (s.setRetry v).slot e = s.slot e := rfl
end

/-! ### `setAck` -/

section
variable (v : Bool) (s : State)

@[simp] theorem setAck_params : (s.setAck v).params = s.params := rfl
@[simp] theorem setAck_bus : (s.setAck v).bus = s.bus := rfl
@[simp] theorem setAck_desc : (s.setAck v).desc = s.desc := rfl
@[simp] theorem setAck_seq : (s.setAck v).seq = { s.seq with ack := v } := rfl
@[simp] theorem setAck_call : (s.setAck v).call = s.call := rfl
@[simp] theorem setAck_clockCall : (s.setAck v).clockCall = s.clockCall := rfl
@[simp] theorem setAck_buf : (s.setAck v).buf = s.buf := rfl
@[simp] theorem setAck_inputs : (s.setAck v).inputs = s.inputs := rfl
@[simp] theorem setAck_replies : (s.setAck v).replies = s.replies := rfl
@[simp] theorem setAck_extReplies : (s.setAck v).extReplies = s.extReplies := rfl
@[simp] theorem setAck_trace : (s.setAck v).trace = s.trace := rfl
@[simp] theorem setAck_responses : (s.setAck v).responses = s.responses := rfl
@[simp] theorem setAck_draws : (s.setAck v).draws = s.draws := rfl
@[simp] theorem setAck_slot (e : Slot) : (s.setAck v).slot e = s.slot e := rfl
end

/-! ### `raiseAttemptFail` -/

section
variable (c : Cause) (s : State)

@[simp] theorem raiseAttemptFail_params : (s.raiseAttemptFail c).params = s.params := rfl
@[simp] theorem raiseAttemptFail_bus : (s.raiseAttemptFail c).bus = s.bus := rfl
@[simp] theorem raiseAttemptFail_desc : (s.raiseAttemptFail c).desc = s.desc := rfl
@[simp] theorem raiseAttemptFail_seq :
    (s.raiseAttemptFail c).seq = { s.seq with phase := .attFail } := rfl
@[simp] theorem raiseAttemptFail_call : (s.raiseAttemptFail c).call = s.call := rfl
@[simp] theorem raiseAttemptFail_clockCall : (s.raiseAttemptFail c).clockCall = s.clockCall := rfl
@[simp] theorem raiseAttemptFail_buf : (s.raiseAttemptFail c).buf = s.buf := rfl
@[simp] theorem raiseAttemptFail_inputs : (s.raiseAttemptFail c).inputs = s.inputs := rfl
@[simp] theorem raiseAttemptFail_replies : (s.raiseAttemptFail c).replies = s.replies := rfl
@[simp] theorem raiseAttemptFail_extReplies : (s.raiseAttemptFail c).extReplies = s.extReplies := rfl
@[simp] theorem raiseAttemptFail_trace : (s.raiseAttemptFail c).trace = s.trace := rfl
@[simp] theorem raiseAttemptFail_responses : (s.raiseAttemptFail c).responses = s.responses := rfl
@[simp] theorem raiseAttemptFail_draws : (s.raiseAttemptFail c).draws = s.draws := rfl
@[simp] theorem raiseAttemptFail_slot (e : Slot) : (s.raiseAttemptFail c).slot e = s.slot e := rfl
end

/-! ### `attemptSucceeds` -/

section
variable (s : State)

@[simp] theorem attemptSucceeds_params : (s.attemptSucceeds).params = s.params := rfl
@[simp] theorem attemptSucceeds_bus : (s.attemptSucceeds).bus = s.bus := rfl
@[simp] theorem attemptSucceeds_desc : (s.attemptSucceeds).desc = s.desc := rfl
@[simp] theorem attemptSucceeds_seq :
    (s.attemptSucceeds).seq = { s.seq with ack := true, phase := .release } := rfl
@[simp] theorem attemptSucceeds_call : (s.attemptSucceeds).call = s.call := rfl
@[simp] theorem attemptSucceeds_clockCall : (s.attemptSucceeds).clockCall = s.clockCall := rfl
@[simp] theorem attemptSucceeds_buf : (s.attemptSucceeds).buf = s.buf := rfl
@[simp] theorem attemptSucceeds_inputs : (s.attemptSucceeds).inputs = s.inputs := rfl
@[simp] theorem attemptSucceeds_replies : (s.attemptSucceeds).replies = s.replies := rfl
@[simp] theorem attemptSucceeds_extReplies : (s.attemptSucceeds).extReplies = s.extReplies := rfl
@[simp] theorem attemptSucceeds_trace : (s.attemptSucceeds).trace = s.trace := rfl
@[simp] theorem attemptSucceeds_responses : (s.attemptSucceeds).responses = s.responses := rfl
@[simp] theorem attemptSucceeds_draws : (s.attemptSucceeds).draws = s.draws := rfl
@[simp] theorem attemptSucceeds_slot (e : Slot) : (s.attemptSucceeds).slot e = s.slot e := rfl
end

/-! ### `attStart` -/

section
variable (s : State)

@[simp] theorem attStart_params : (s.attStart).params = s.params := rfl
@[simp] theorem attStart_bus : (s.attStart).bus = s.bus := rfl
@[simp] theorem attStart_desc : (s.attStart).desc = s.desc := rfl
@[simp] theorem attStart_seq :
    (s.attStart).seq = { s.seq with
      phase := if s.seq.sel = 0 then .wBegin else if s.seq.sel = 1 then .rStart else .ext } := rfl
@[simp] theorem attStart_call : (s.attStart).call = s.call := rfl
@[simp] theorem attStart_clockCall : (s.attStart).clockCall = s.clockCall := rfl
@[simp] theorem attStart_buf : (s.attStart).buf = s.buf := rfl
@[simp] theorem attStart_inputs : (s.attStart).inputs = s.inputs := rfl
@[simp] theorem attStart_replies : (s.attStart).replies = s.replies := rfl
@[simp] theorem attStart_extReplies : (s.attStart).extReplies = s.extReplies := rfl
@[simp] theorem attStart_trace : (s.attStart).trace = s.trace := rfl
@[simp] theorem attStart_responses : (s.attStart).responses = s.responses := rfl
@[simp] theorem attStart_draws : (s.attStart).draws = s.draws := rfl
@[simp] theorem attStart_slot (e : Slot) : (s.attStart).slot e = s.slot e := rfl
end

/-! ### `setBusy` -/

section
variable (v : Bool) (s : State)

@[simp] theorem setBusy_params : (s.setBusy v).params = s.params := rfl
@[simp] theorem setBusy_bus : (s.setBusy v).bus = { s.bus with busy := v } := rfl
@[simp] theorem setBusy_desc : (s.setBusy v).desc = s.desc := rfl
@[simp] theorem setBusy_seq : (s.setBusy v).seq = s.seq := rfl
@[simp] theorem setBusy_call : (s.setBusy v).call = s.call := rfl
@[simp] theorem setBusy_clockCall : (s.setBusy v).clockCall = s.clockCall := rfl
@[simp] theorem setBusy_buf : (s.setBusy v).buf = s.buf := rfl
@[simp] theorem setBusy_inputs : (s.setBusy v).inputs = s.inputs := rfl
@[simp] theorem setBusy_replies : (s.setBusy v).replies = s.replies := rfl
@[simp] theorem setBusy_extReplies : (s.setBusy v).extReplies = s.extReplies := rfl
@[simp] theorem setBusy_trace : (s.setBusy v).trace = s.trace := rfl
@[simp] theorem setBusy_responses : (s.setBusy v).responses = s.responses := rfl
@[simp] theorem setBusy_draws : (s.setBusy v).draws = s.draws := rfl
@[simp] theorem setBusy_slot (e : Slot) : (s.setBusy v).slot e = s.slot e := rfl
end

/-! ### `setSpeed` -/

section
variable (v : Word) (s : State)

@[simp] theorem setSpeed_params : (s.setSpeed v).params = s.params := rfl
@[simp] theorem setSpeed_bus : (s.setSpeed v).bus = { s.bus with speed := v } := rfl
@[simp] theorem setSpeed_desc : (s.setSpeed v).desc = s.desc := rfl
@[simp] theorem setSpeed_seq : (s.setSpeed v).seq = s.seq := rfl
@[simp] theorem setSpeed_call : (s.setSpeed v).call = s.call := rfl
@[simp] theorem setSpeed_clockCall : (s.setSpeed v).clockCall = s.clockCall := rfl
@[simp] theorem setSpeed_buf : (s.setSpeed v).buf = s.buf := rfl
@[simp] theorem setSpeed_inputs : (s.setSpeed v).inputs = s.inputs := rfl
@[simp] theorem setSpeed_replies : (s.setSpeed v).replies = s.replies := rfl
@[simp] theorem setSpeed_extReplies : (s.setSpeed v).extReplies = s.extReplies := rfl
@[simp] theorem setSpeed_trace : (s.setSpeed v).trace = s.trace := rfl
@[simp] theorem setSpeed_responses : (s.setSpeed v).responses = s.responses := rfl
@[simp] theorem setSpeed_draws : (s.setSpeed v).draws = s.draws := rfl
@[simp] theorem setSpeed_slot (e : Slot) : (s.setSpeed v).slot e = s.slot e := rfl
end

/-! ### `setTimeout` -/

section
variable (v : BitVec 9) (s : State)

@[simp] theorem setTimeout_params : (s.setTimeout v).params = s.params := rfl
@[simp] theorem setTimeout_bus : (s.setTimeout v).bus = { s.bus with timeout := v } := rfl
@[simp] theorem setTimeout_desc : (s.setTimeout v).desc = s.desc := rfl
@[simp] theorem setTimeout_seq : (s.setTimeout v).seq = s.seq := rfl
@[simp] theorem setTimeout_call : (s.setTimeout v).call = s.call := rfl
@[simp] theorem setTimeout_clockCall : (s.setTimeout v).clockCall = s.clockCall := rfl
@[simp] theorem setTimeout_buf : (s.setTimeout v).buf = s.buf := rfl
@[simp] theorem setTimeout_inputs : (s.setTimeout v).inputs = s.inputs := rfl
@[simp] theorem setTimeout_replies : (s.setTimeout v).replies = s.replies := rfl
@[simp] theorem setTimeout_extReplies : (s.setTimeout v).extReplies = s.extReplies := rfl
@[simp] theorem setTimeout_trace : (s.setTimeout v).trace = s.trace := rfl
@[simp] theorem setTimeout_responses : (s.setTimeout v).responses = s.responses := rfl
@[simp] theorem setTimeout_draws : (s.setTimeout v).draws = s.draws := rfl
@[simp] theorem setTimeout_slot (e : Slot) : (s.setTimeout v).slot e = s.slot e := rfl
end

/-! ### `setRetries` -/

section
variable (v : BitVec 4) (s : State)

@[simp] theorem setRetries_params : (s.setRetries v).params = s.params := rfl
@[simp] theorem setRetries_bus : (s.setRetries v).bus = { s.bus with retries := v } := rfl
@[simp] theorem setRetries_desc : (s.setRetries v).desc = s.desc := rfl
@[simp] theorem setRetries_seq : (s.setRetries v).seq = s.seq := rfl
@[simp] theorem setRetries_call : (s.setRetries v).call = s.call := rfl
@[simp] theorem setRetries_clockCall : (s.setRetries v).clockCall = s.clockCall := rfl
@[simp] theorem setRetries_buf : (s.setRetries v).buf = s.buf := rfl
@[simp] theorem setRetries_inputs : (s.setRetries v).inputs = s.inputs := rfl
@[simp] theorem setRetries_replies : (s.setRetries v).replies = s.replies := rfl
@[simp] theorem setRetries_extReplies : (s.setRetries v).extReplies = s.extReplies := rfl
@[simp] theorem setRetries_trace : (s.setRetries v).trace = s.trace := rfl
@[simp] theorem setRetries_responses : (s.setRetries v).responses = s.responses := rfl
@[simp] theorem setRetries_draws : (s.setRetries v).draws = s.draws := rfl
@[simp] theorem setRetries_slot (e : Slot) : (s.setRetries v).slot e = s.slot e := rfl
end

/-! ### `writeBuf` -/

section
variable (i : Word) (b : Byte) (s : State)

@[simp] theorem writeBuf_params : (s.writeBuf i b).params = s.params := rfl
@[simp] theorem writeBuf_bus : (s.writeBuf i b).bus = s.bus := rfl
@[simp] theorem writeBuf_desc : (s.writeBuf i b).desc = s.desc := rfl
@[simp] theorem writeBuf_seq : (s.writeBuf i b).seq = s.seq := rfl
@[simp] theorem writeBuf_call : (s.writeBuf i b).call = s.call := rfl
@[simp] theorem writeBuf_clockCall : (s.writeBuf i b).clockCall = s.clockCall := rfl
@[simp] theorem writeBuf_buf : (s.writeBuf i b).buf = Memory.write s.buf i.toNat b := rfl
@[simp] theorem writeBuf_inputs : (s.writeBuf i b).inputs = s.inputs := rfl
@[simp] theorem writeBuf_replies : (s.writeBuf i b).replies = s.replies := rfl
@[simp] theorem writeBuf_extReplies : (s.writeBuf i b).extReplies = s.extReplies := rfl
@[simp] theorem writeBuf_trace : (s.writeBuf i b).trace = s.trace := rfl
@[simp] theorem writeBuf_responses : (s.writeBuf i b).responses = s.responses := rfl
@[simp] theorem writeBuf_draws : (s.writeBuf i b).draws = s.draws := rfl
@[simp] theorem writeBuf_slot (e : Slot) : (s.writeBuf i b).slot e = s.slot e := rfl
end

/-! ### `countDraw` -/

section
variable (a : Word) (s : State)

@[simp] theorem countDraw_params : (s.countDraw a).params = s.params := rfl
@[simp] theorem countDraw_bus : (s.countDraw a).bus = s.bus := rfl
@[simp] theorem countDraw_desc : (s.countDraw a).desc = s.desc := rfl
@[simp] theorem countDraw_seq : (s.countDraw a).seq = s.seq := rfl
@[simp] theorem countDraw_call : (s.countDraw a).call = s.call := rfl
@[simp] theorem countDraw_clockCall : (s.countDraw a).clockCall = s.clockCall := rfl
@[simp] theorem countDraw_buf : (s.countDraw a).buf = s.buf := rfl
@[simp] theorem countDraw_inputs : (s.countDraw a).inputs = s.inputs := rfl
@[simp] theorem countDraw_replies : (s.countDraw a).replies = s.replies := rfl
@[simp] theorem countDraw_extReplies : (s.countDraw a).extReplies = s.extReplies := rfl
@[simp] theorem countDraw_trace : (s.countDraw a).trace = s.trace := rfl
@[simp] theorem countDraw_responses : (s.countDraw a).responses = s.responses := rfl
@[simp] theorem countDraw_draws :
    (s.countDraw a).draws = if addressValid a then s.draws else s.draws + 1 := rfl
@[simp] theorem countDraw_slot (e : Slot) : (s.countDraw a).slot e = s.slot e := rfl
end

/-! ### `respond` -/

section
variable (v : Word) (s : State)

@[simp] theorem respond_params : (s.respond v).params = s.params := rfl
@[simp] theorem respond_bus : (s.respond v).bus = s.bus := rfl
@[simp] theorem respond_desc : (s.respond v).desc = s.desc := rfl
@[simp] theorem respond_seq : (s.respond v).seq = s.seq := rfl
@[simp] theorem respond_call : (s.respond v).call = s.call := rfl
@[simp] theorem respond_clockCall : (s.respond v).clockCall = s.clockCall := rfl
@[simp] theorem respond_buf : (s.respond v).buf = s.buf := rfl
@[simp] theorem respond_inputs : (s.respond v).inputs = s.inputs := rfl
@[simp] theorem respond_replies : (s.respond v).replies = s.replies := rfl
@[simp] theorem respond_extReplies : (s.respond v).extReplies = s.extReplies := rfl
@[simp] theorem respond_trace : (s.respond v).trace = s.trace := rfl
@[simp] theorem respond_responses : (s.respond v).responses = s.responses ++ [v] := rfl
@[simp] theorem respond_draws : (s.respond v).draws = s.draws := rfl
@[simp] theorem respond_slot (e : Slot) : (s.respond v).slot e = s.slot e := rfl
end

/-! ### `emit` -/

section
variable (ev : Event) (s : State)

@[simp] theorem emit_params : (s.emit ev).params = s.params := rfl
@[simp] theorem emit_bus : (s.emit ev).bus = s.bus := rfl
@[simp] theorem emit_desc : (s.emit ev).desc = s.desc := rfl
@[simp] theorem emit_seq : (s.emit ev).seq = s.seq := rfl
@[simp] theorem emit_call : (s.emit ev).call = s.call := rfl
@[simp] theorem emit_clockCall : (s.emit ev).clockCall = s.clockCall := rfl
@[simp] theorem emit_buf : (s.emit ev).buf = s.buf := rfl
@[simp] theorem emit_inputs : (s.emit ev).inputs = s.inputs := rfl
@[simp] theorem emit_replies : (s.emit ev).replies = s.replies := rfl
@[simp] theorem emit_extReplies : (s.emit ev).extReplies = s.extReplies := rfl
@[simp] theorem emit_trace : (s.emit ev).trace = s.trace ++ [ev] := rfl
@[simp] theorem emit_responses : (s.emit ev).responses = s.responses := rfl
@[simp] theorem emit_draws : (s.emit ev).draws = s.draws := rfl
@[simp] theorem emit_slot (e : Slot) : (s.emit ev).slot e = s.slot e := rfl
end

/-! ### `setCall` -/

section
variable (c : Option Call) (s : State)

@[simp] theorem setCall_params : (s.setCall c).params = s.params := rfl
@[simp] theorem setCall_bus : (s.setCall c).bus = s.bus := rfl
@[simp] theorem setCall_desc : (s.setCall c).desc = s.desc := rfl
@[simp] theorem setCall_seq : (s.setCall c).seq = s.seq := rfl
@[simp] theorem setCall_call : (s.setCall c).call = c := rfl
@[simp] theorem setCall_clockCall : (s.setCall c).clockCall = s.clockCall := rfl
@[simp] theorem setCall_buf : (s.setCall c).buf = s.buf := rfl
@[simp] theorem setCall_inputs : (s.setCall c).inputs = s.inputs := rfl
@[simp] theorem setCall_replies : (s.setCall c).replies = s.replies := rfl
@[simp] theorem setCall_extReplies : (s.setCall c).extReplies = s.extReplies := rfl
@[simp] theorem setCall_trace : (s.setCall c).trace = s.trace := rfl
@[simp] theorem setCall_responses : (s.setCall c).responses = s.responses := rfl
@[simp] theorem setCall_draws : (s.setCall c).draws = s.draws := rfl
@[simp] theorem setCall_slot (e : Slot) : (s.setCall c).slot e = s.slot e := rfl
end

/-! ### `setClockCall` -/

section
variable (c : Option Word) (s : State)

@[simp] theorem setClockCall_params : (s.setClockCall c).params = s.params := rfl
@[simp] theorem setClockCall_bus : (s.setClockCall c).bus = s.bus := rfl
@[simp] theorem setClockCall_desc : (s.setClockCall c).desc = s.desc := rfl
@[simp] theorem setClockCall_seq : (s.setClockCall c).seq = s.seq := rfl
@[simp] theorem setClockCall_call : (s.setClockCall c).call = s.call := rfl
@[simp] theorem setClockCall_clockCall : (s.setClockCall c).clockCall = c := rfl
@[simp] theorem setClockCall_buf : (s.setClockCall c).buf = s.buf := rfl
@[simp] theorem setClockCall_inputs : (s.setClockCall c).inputs = s.inputs := rfl
@[simp] theorem setClockCall_replies : (s.setClockCall c).replies = s.replies := rfl
@[simp] theorem setClockCall_extReplies : (s.setClockCall c).extReplies = s.extReplies := rfl
@[simp] theorem setClockCall_trace : (s.setClockCall c).trace = s.trace := rfl
@[simp] theorem setClockCall_responses : (s.setClockCall c).responses = s.responses := rfl
@[simp] theorem setClockCall_draws : (s.setClockCall c).draws = s.draws := rfl
@[simp] theorem setClockCall_slot (e : Slot) : (s.setClockCall c).slot e = s.slot e := rfl
end

/-! ### `addReply` -/

section
variable (v : Word) (s : State)

@[simp] theorem addReply_params : (s.addReply v).params = s.params := rfl
@[simp] theorem addReply_bus : (s.addReply v).bus = s.bus := rfl
@[simp] theorem addReply_desc : (s.addReply v).desc = s.desc := rfl
@[simp] theorem addReply_seq : (s.addReply v).seq = s.seq := rfl
@[simp] theorem addReply_call : (s.addReply v).call = s.call := rfl
@[simp] theorem addReply_clockCall : (s.addReply v).clockCall = s.clockCall := rfl
@[simp] theorem addReply_buf : (s.addReply v).buf = s.buf := rfl
@[simp] theorem addReply_inputs : (s.addReply v).inputs = s.inputs := rfl
@[simp] theorem addReply_replies : (s.addReply v).replies = s.replies ++ [v] := rfl
@[simp] theorem addReply_extReplies : (s.addReply v).extReplies = s.extReplies := rfl
@[simp] theorem addReply_trace : (s.addReply v).trace = s.trace := rfl
@[simp] theorem addReply_responses : (s.addReply v).responses = s.responses := rfl
@[simp] theorem addReply_draws : (s.addReply v).draws = s.draws := rfl
@[simp] theorem addReply_slot (e : Slot) : (s.addReply v).slot e = s.slot e := rfl
end

/-! ### `addExtReply` -/

section
variable (r : ExtResult) (s : State)

@[simp] theorem addExtReply_params : (s.addExtReply r).params = s.params := rfl
@[simp] theorem addExtReply_bus : (s.addExtReply r).bus = s.bus := rfl
@[simp] theorem addExtReply_desc : (s.addExtReply r).desc = s.desc := rfl
@[simp] theorem addExtReply_seq : (s.addExtReply r).seq = s.seq := rfl
@[simp] theorem addExtReply_call : (s.addExtReply r).call = s.call := rfl
@[simp] theorem addExtReply_clockCall : (s.addExtReply r).clockCall = s.clockCall := rfl
@[simp] theorem addExtReply_buf : (s.addExtReply r).buf = s.buf := rfl
@[simp] theorem addExtReply_inputs : (s.addExtReply r).inputs = s.inputs := rfl
@[simp] theorem addExtReply_replies : (s.addExtReply r).replies = s.replies := rfl
@[simp] theorem addExtReply_extReplies : (s.addExtReply r).extReplies = s.extReplies ++ [r] := rfl
@[simp] theorem addExtReply_trace : (s.addExtReply r).trace = s.trace := rfl
@[simp] theorem addExtReply_responses : (s.addExtReply r).responses = s.responses := rfl
@[simp] theorem addExtReply_draws : (s.addExtReply r).draws = s.draws := rfl
@[simp] theorem addExtReply_slot (e : Slot) : (s.addExtReply r).slot e = s.slot e := rfl
end

/-! ### `loadSequencer` -/

section
variable (d : Slot) (dir : Direction) (a b : Word) (s : State)

@[simp] theorem loadSequencer_params : (s.loadSequencer d dir a b).params = s.params := rfl
@[simp] theorem loadSequencer_bus : (s.loadSequencer d dir a b).bus = s.bus := rfl
@[simp] theorem loadSequencer_desc : (s.loadSequencer d dir a b).desc = s.desc := rfl
@[simp] theorem loadSequencer_seq :
    (s.loadSequencer d dir a b).seq = { s.seq with
      phase := .attStart, d := d, dir := dir, sel := (s.slot d).select dir,
      reg := a, n := b, retry := s.bus.retries } := rfl
@[simp] theorem loadSequencer_call : (s.loadSequencer d dir a b).call = s.call := rfl
@[simp] theorem loadSequencer_clockCall : (s.loadSequencer d dir a b).clockCall = s.clockCall := rfl
@[simp] theorem loadSequencer_buf : (s.loadSequencer d dir a b).buf = s.buf := rfl
@[simp] theorem loadSequencer_inputs : (s.loadSequencer d dir a b).inputs = s.inputs := rfl
@[simp] theorem loadSequencer_replies : (s.loadSequencer d dir a b).replies = s.replies := rfl
@[simp] theorem loadSequencer_extReplies : (s.loadSequencer d dir a b).extReplies = s.extReplies := rfl
@[simp] theorem loadSequencer_trace : (s.loadSequencer d dir a b).trace = s.trace := rfl
@[simp] theorem loadSequencer_responses : (s.loadSequencer d dir a b).responses = s.responses := rfl
@[simp] theorem loadSequencer_draws : (s.loadSequencer d dir a b).draws = s.draws := rfl
@[simp] theorem loadSequencer_slot (e : Slot) : (s.loadSequencer d dir a b).slot e = s.slot e := rfl
end

/-! ### `release` -/

section
variable (s : State)

@[simp] theorem release_params : (s.release).params = s.params := rfl
@[simp] theorem release_bus : (s.release).bus = { s.bus with busy := false } := rfl
@[simp] theorem release_desc :
    (s.release).desc = s.desc.set s.seq.d.toNat
      { s.slot s.seq.d with status := statusOfAck s.seq.ack } s.seq.d.isLt := rfl
@[simp] theorem release_seq : (s.release).seq = { s.seq with phase := .idle } := rfl
@[simp] theorem release_call : (s.release).call = s.call := rfl
@[simp] theorem release_clockCall : (s.release).clockCall = s.clockCall := rfl
@[simp] theorem release_buf : (s.release).buf = s.buf := rfl
@[simp] theorem release_inputs : (s.release).inputs = s.inputs := rfl
@[simp] theorem release_replies : (s.release).replies = s.replies := rfl
@[simp] theorem release_extReplies : (s.release).extReplies = s.extReplies := rfl
@[simp] theorem release_trace : (s.release).trace = s.trace := rfl
@[simp] theorem release_responses :
    (s.release).responses = s.responses ++ [statusWord (statusOfAck s.seq.ack)] := rfl
@[simp] theorem release_draws : (s.release).draws = s.draws := rfl
end

/-! ### `resetBlock` -/

section
variable (s : State)

@[simp] theorem resetBlock_params : (s.resetBlock).params = s.params := rfl
@[simp] theorem resetBlock_bus : (s.resetBlock).bus = BusState.reset s.params := rfl
@[simp] theorem resetBlock_desc :
    (s.resetBlock).desc = Vector.replicate 16 SlaveDescriptor.reset := rfl
@[simp] theorem resetBlock_seq : (s.resetBlock).seq = Sequencer.reset := rfl
@[simp] theorem resetBlock_call : (s.resetBlock).call = none := rfl
@[simp] theorem resetBlock_clockCall : (s.resetBlock).clockCall = none := rfl
@[simp] theorem resetBlock_buf : (s.resetBlock).buf = s.buf := rfl
@[simp] theorem resetBlock_inputs : (s.resetBlock).inputs = s.inputs := rfl
@[simp] theorem resetBlock_replies : (s.resetBlock).replies = s.replies := rfl
@[simp] theorem resetBlock_extReplies : (s.resetBlock).extReplies = s.extReplies := rfl
@[simp] theorem resetBlock_trace : (s.resetBlock).trace = s.trace := rfl
@[simp] theorem resetBlock_responses : (s.resetBlock).responses = s.responses := rfl
@[simp] theorem resetBlock_draws : (s.resetBlock).draws = s.draws := rfl
end

/-! ### Slots -/

/-- A slot index is determined by its number. -/
theorem slot_toNat_ne {d e : Slot} (h : e ≠ d) : d.toNat ≠ e.toNat :=
  fun h' => h (BitVec.eq_of_toNat_eq h'.symm)

/-- One slot changes and no other (R16). -/
theorem slot_setSlot (d : Slot) (x : SlaveDescriptor) (s : State) (e : Slot) :
    (s.setSlot d x).slot e = if e = d then x else s.slot e := by
  by_cases h : e = d
  · subst h; simp [State.slot, State.setSlot]
  · simp [State.slot, State.setSlot, h, Vector.getElem_set_ne, slot_toNat_ne h]

@[simp] theorem slot_setSlot_self (d : Slot) (x : SlaveDescriptor) (s : State) :
    (s.setSlot d x).slot d = x := by simp [slot_setSlot]

@[simp] theorem slot_setSlot_ne {d e : Slot} (h : e ≠ d) (x : SlaveDescriptor) (s : State) :
    (s.setSlot d x).slot e = s.slot e := by simp [slot_setSlot, h]

@[simp] theorem slot_setStatus (d : Slot) (v : BitVec 2) (s : State) (e : Slot) :
    (s.setStatus d v).slot e = if e = d then { s.slot d with status := v } else s.slot e :=
  slot_setSlot ..

@[simp] theorem slot_cacheSet (d : Slot) (reg : Word) (s : State) (e : Slot) :
    (s.cacheSet d reg).slot e = if e = d then { s.slot d with cache := reg } else s.slot e :=
  slot_setSlot ..

@[simp] theorem slot_cacheInc (d : Slot) (s : State) (e : Slot) :
    (s.cacheInc d).slot e =
      if e = d then { s.slot d with cache := (s.slot d).cache + 1 } else s.slot e :=
  slot_setSlot ..

@[simp] theorem slot_release (s : State) (e : Slot) :
    s.release.slot e =
      if e = s.seq.d then { s.slot s.seq.d with status := statusOfAck s.seq.ack }
      else s.slot e :=
  slot_setSlot ..

@[simp] theorem slot_resetBlock (s : State) (e : Slot) :
    s.resetBlock.slot e = SlaveDescriptor.reset := by
  simp [State.slot, State.resetBlock]

@[simp] theorem slot_withInputs (s : State) (rest : List Input) (e : Slot) :
    State.slot { s with inputs := rest } e = s.slot e := rfl

/-- Fields outside the descriptor file do not decide what a slot holds. -/
theorem slot_congr {s t : State} (h : s.desc = t.desc) (e : Slot) : s.slot e = t.slot e := by
  simp [State.slot, h]

end Sys2Proof.Machine
end

