-- ==== Sys2Proof/Laws/Ops.lean ====
section
/-! SUPPORT. What each shared operation can do, said once: slot checks, transport calls, admission,
command steps, micro-steps and steps. Proofs cite these lemmas instead of unfolding the operations. -/

namespace Sys2Proof.Machine

/-! ### Slot check -/

theorem requireSlot_next {d : Slot} {s t : State} {r : Result} :
    s.requireSlot d r = .next t ↔ d.toNat < s.params.nDesc ∧ r = .next t := by
  unfold State.requireSlot
  split <;> simp_all

theorem requireSlot_present {d : Slot} {s : State} (h : d.toNat < s.params.nDesc) (r : Result) :
    s.requireSlot d r = r := if_pos h

theorem requireSlot_absent {d : Slot} {s : State} (h : ¬ d.toNat < s.params.nDesc) (r : Result) :
    s.requireSlot d r = .refused (.slotAbsent d) := if_neg h

/-! ### Transport calls -/

/-- The state in which a transport call has returned: its event is in the trace and its reply taken. -/
def State.called (e : Event) (vs : List Word) (s : State) : State :=
  { s with replies := vs, trace := s.trace ++ [e] }

section
variable (e : Event) (vs : List Word) (s : State)
@[simp] theorem called_params : (s.called e vs).params = s.params := rfl
@[simp] theorem called_bus : (s.called e vs).bus = s.bus := rfl
@[simp] theorem called_desc : (s.called e vs).desc = s.desc := rfl
@[simp] theorem called_seq : (s.called e vs).seq = s.seq := rfl
@[simp] theorem called_call : (s.called e vs).call = s.call := rfl
@[simp] theorem called_clockCall : (s.called e vs).clockCall = s.clockCall := rfl
@[simp] theorem called_buf : (s.called e vs).buf = s.buf := rfl
@[simp] theorem called_inputs : (s.called e vs).inputs = s.inputs := rfl
@[simp] theorem called_replies : (s.called e vs).replies = vs := rfl
@[simp] theorem called_extReplies : (s.called e vs).extReplies = s.extReplies := rfl
@[simp] theorem called_trace : (s.called e vs).trace = s.trace ++ [e] := rfl
@[simp] theorem called_responses : (s.called e vs).responses = s.responses := rfl
@[simp] theorem called_draws : (s.called e vs).draws = s.draws := rfl
@[simp] theorem called_slot (d : Slot) : (s.called e vs).slot d = s.slot d := rfl
end

/-- The state in which the call `c` of a micro-step has returned `v`. -/
def State.returned (c : Call) (v : Word) (vs : List Word) (s : State) : State :=
  (s.called (c.event v) vs).setCall none

section
variable (c : Call) (v : Word) (vs : List Word) (s : State)
@[simp] theorem returned_params : (s.returned c v vs).params = s.params := rfl
@[simp] theorem returned_bus : (s.returned c v vs).bus = s.bus := rfl
@[simp] theorem returned_desc : (s.returned c v vs).desc = s.desc := rfl
@[simp] theorem returned_seq : (s.returned c v vs).seq = s.seq := rfl
@[simp] theorem returned_call : (s.returned c v vs).call = none := rfl
@[simp] theorem returned_clockCall : (s.returned c v vs).clockCall = s.clockCall := rfl
@[simp] theorem returned_buf : (s.returned c v vs).buf = s.buf := rfl
@[simp] theorem returned_inputs : (s.returned c v vs).inputs = s.inputs := rfl
@[simp] theorem returned_replies : (s.returned c v vs).replies = vs := rfl
@[simp] theorem returned_extReplies : (s.returned c v vs).extReplies = s.extReplies := rfl
@[simp] theorem returned_trace : (s.returned c v vs).trace = s.trace ++ [c.event v] := rfl
@[simp] theorem returned_responses : (s.returned c v vs).responses = s.responses := rfl
@[simp] theorem returned_draws : (s.returned c v vs).draws = s.draws := rfl
@[simp] theorem returned_slot (d : Slot) : (s.returned c v vs).slot d = s.slot d := rfl
end

/-- Making the call that is outstanding changes nothing. -/
theorem setCall_self {s : State} {c : Call} (h : s.call = some c) : s.setCall (some c) = s := by
  unfold State.setCall
  rw [← h]

/-- Everything a transport call of a micro-step can do: it waits, made before or made now, or the call that was
made, before or now, returns with the oldest reply. It never stops the machine. -/
theorem transportCall_next {s t : State} {c : Call} {k : Call → Word → State → State}
    (h : s.transportCall c k = .next t) :
    (t = s ∧ s.call.isSome = true ∧ s.replies = []) ∨
      (s.call = none ∧ s.replies = [] ∧ t = s.setCall (some c)) ∨
        ∃ v vs, s.replies = v :: vs ∧
          t = k (s.call.getD c) v (s.returned (s.call.getD c) v vs) := by
  unfold State.transportCall at h
  split at h
  · next hr =>
    cases h
    cases hc : s.call with
    | none => exact .inr (.inl ⟨rfl, hr, by simp⟩)
    | some c' => exact .inl ⟨setCall_self hc, rfl, hr⟩
  · next hr => cases h; exact .inr (.inr ⟨_, _, hr, rfl⟩)

theorem transportCall_cons {s : State} {v : Word} {vs : List Word} (h : s.replies = v :: vs) (c : Call)
    (k : Call → Word → State → State) :
    s.transportCall c k = .next (k (s.call.getD c) v (s.returned (s.call.getD c) v vs)) := by
  unfold State.transportCall
  rw [h]
  rfl

theorem transportCall_nil {s : State} (h : s.replies = []) (hc : s.call = none) (c : Call)
    (k : Call → Word → State → State) : s.transportCall c k = .next (s.setCall (some c)) := by
  unfold State.transportCall
  rw [h, hc]
  rfl

/-- A call that was made and has not returned leaves the state as it is (R148). -/
theorem transportCall_waits {s : State} (h : s.replies = []) (hc : s.call.isSome = true) (c : Call)
    (k : Call → Word → State → State) : s.transportCall c k = .next s := by
  obtain ⟨c', hc⟩ := Option.isSome_iff_exists.1 hc
  unfold State.transportCall
  rw [h, hc]
  exact congrArg _ (setCall_self hc)

theorem transportCall_ne_refused {s : State} {c : Call} {k : Call → Word → State → State} {r : Refusal} :
    s.transportCall c k ≠ .refused r := by
  unfold State.transportCall
  split <;> exact nofun

/-! ### Each primitive, returned and made -/

theorem tBegin_cons {s : State} {v : Word} {vs : List Word} (h : s.replies = v :: vs)
    (a : SlaveAddr) (next : Addressing) (k : Addressing → State → State) :
    s.tBegin a next k =
      .next (k (s.call.getD (.begin a next)).next (s.returned (s.call.getD (.begin a next)) v vs)) :=
  transportCall_cons h _ _

theorem tBegin_nil {s : State} (h : s.replies = []) (hc : s.call = none)
    (a : SlaveAddr) (next : Addressing) (k : Addressing → State → State) :
    s.tBegin a next k = .next (s.setCall (some (.begin a next))) :=
  transportCall_nil h hc _ _

theorem tWrite_cons {s : State} {v : Word} {vs : List Word} (h : s.replies = v :: vs)
    (b : Byte) (k : Bool → State → State) :
    s.tWrite b k =
      .next (k (replyOk v) (s.returned (s.call.getD (.write b)) v vs)) :=
  transportCall_cons h _ _

theorem tWrite_nil {s : State} (h : s.replies = []) (hc : s.call = none)
    (b : Byte) (k : Bool → State → State) :
    s.tWrite b k = .next (s.setCall (some (.write b))) :=
  transportCall_nil h hc _ _

theorem tEnd_cons {s : State} {v : Word} {vs : List Word} (h : s.replies = v :: vs)
    (stop : Bool) (k : Word → State → State) :
    s.tEnd stop k =
      .next (k v (s.returned (s.call.getD (.close stop)) v vs)) :=
  transportCall_cons h _ _

theorem tEnd_nil {s : State} (h : s.replies = []) (hc : s.call = none)
    (stop : Bool) (k : Word → State → State) :
    s.tEnd stop k = .next (s.setCall (some (.close stop))) :=
  transportCall_nil h hc _ _

theorem tRequest_cons {s : State} {v : Word} {vs : List Word} (h : s.replies = v :: vs)
    (a : SlaveAddr) (n : Word) (k : Word → State → State) :
    s.tRequest a n k =
      .next (k v (s.returned (s.call.getD (.request a n)) v vs)) :=
  transportCall_cons h _ _

theorem tRequest_nil {s : State} (h : s.replies = []) (hc : s.call = none)
    (a : SlaveAddr) (n : Word) (k : Word → State → State) :
    s.tRequest a n k = .next (s.setCall (some (.request a n))) :=
  transportCall_nil h hc _ _

theorem tRead_cons {s : State} {v : Word} {vs : List Word} (h : s.replies = v :: vs)
    (k : Byte → State → State) :
    s.tRead k =
      .next (k (replyByte v) (s.returned (s.call.getD .read) v vs)) :=
  transportCall_cons h _ _

theorem tRead_nil {s : State} (h : s.replies = []) (hc : s.call = none)
    (k : Byte → State → State) :
    s.tRead k = .next (s.setCall (some .read)) :=
  transportCall_nil h hc _ _

theorem tDelay_cons {s : State} {v : Word} {vs : List Word} (h : s.replies = v :: vs)
    (ms : Word) (k : State → State) :
    s.tDelay ms k =
      .next (k (s.returned (s.call.getD (.delay ms)) v vs)) :=
  transportCall_cons h _ _

theorem tDelay_nil {s : State} (h : s.replies = []) (hc : s.call = none)
    (ms : Word) (k : State → State) :
    s.tDelay ms k = .next (s.setCall (some (.delay ms))) :=
  transportCall_nil h hc _ _

theorem tBegin_waits {s : State} (h : s.replies = []) (hc : s.call.isSome = true)
    (a : SlaveAddr) (next : Addressing) (k : Addressing → State → State) :
    s.tBegin a next k = .next s := transportCall_waits h hc _ _

theorem tWrite_waits {s : State} (h : s.replies = []) (hc : s.call.isSome = true)
    (b : Byte) (k : Bool → State → State) :
    s.tWrite b k = .next s := transportCall_waits h hc _ _

theorem tEnd_waits {s : State} (h : s.replies = []) (hc : s.call.isSome = true)
    (stop : Bool) (k : Word → State → State) :
    s.tEnd stop k = .next s := transportCall_waits h hc _ _

theorem tRequest_waits {s : State} (h : s.replies = []) (hc : s.call.isSome = true)
    (a : SlaveAddr) (n : Word) (k : Word → State → State) :
    s.tRequest a n k = .next s := transportCall_waits h hc _ _

theorem tRead_waits {s : State} (h : s.replies = []) (hc : s.call.isSome = true)
    (k : Byte → State → State) :
    s.tRead k = .next s := transportCall_waits h hc _ _

theorem tDelay_waits {s : State} (h : s.replies = []) (hc : s.call.isSome = true)
    (ms : Word) (k : State → State) :
    s.tDelay ms k = .next s := transportCall_waits h hc _ _

/-! ### `T.set_clock` -/

/-- `T.set_clock` returned (R58): no call of the sequencer is outstanding and a reply is pending. -/
theorem finishSetspd_cons {s : State} {v : Word} {vs : List Word} (hc : s.call = none)
    (h : s.replies = v :: vs) (eff : Word) :
    s.finishSetspd eff =
      .next (((s.called (.clk (clockHz eff)) vs).setClockCall none).respond eff) := by
  cases s
  simp only at hc h
  subst hc h
  rfl

/-- `T.set_clock` waits: a call of the sequencer is outstanding, or no reply is pending (R52). -/
theorem finishSetspd_waits {s : State} (h : s.call.isSome = true ∨ s.replies = []) (eff : Word) :
    s.finishSetspd eff = .next s := by
  unfold State.finishSetspd State.tSetClock
  rcases h with h | h
  · obtain ⟨c, hc⟩ := Option.isSome_iff_exists.1 h
    rw [hc]
  · rw [h]
    cases s.call <;> rfl

/-- Everything `finishSetspd` can do. -/
theorem finishSetspd_next {s t : State} {eff : Word} (h : s.finishSetspd eff = .next t) :
    ((s.call.isSome = true ∨ s.replies = []) ∧ t = s) ∨
      ∃ v vs, s.call = none ∧ s.replies = v :: vs ∧
        t = ((s.called (.clk (clockHz eff)) vs).setClockCall none).respond eff := by
  cases hc : s.call with
  | some c =>
    rw [finishSetspd_waits (.inl (by simp [hc]))] at h
    cases h
    exact .inl ⟨.inl rfl, rfl⟩
  | none =>
    cases hr : s.replies with
    | nil =>
      rw [finishSetspd_waits (.inr hr)] at h
      cases h
      exact .inl ⟨.inr rfl, rfl⟩
    | cons v vs =>
      rw [finishSetspd_cons hc hr] at h
      cases h
      exact .inr ⟨v, vs, rfl, rfl, rfl⟩

/-! ### The addressing decision -/

/-- When an attempt needs an addressing phase (R171). -/
theorem needAddressing_iff (s : State) (d : Slot) (reg : Word) :
    s.needAddressing d reg = true ↔ (s.slot d).registerSize ≠ 0 ∧ reg ≠ (s.slot d).cache := by
  simp [State.needAddressing]

theorem needAddressing_false_iff (s : State) (d : Slot) (reg : Word) :
    s.needAddressing d reg = false ↔
      ¬ ((s.slot d).registerSize ≠ 0 ∧ reg ≠ (s.slot d).cache) := by
  rw [← needAddressing_iff, Bool.not_eq_true]

/-- The addressing decision by its three outcomes (R191, R211). -/
theorem addressing_eq (s : State) (d : Slot) (reg : Word) :
    s.addressing d reg =
      if (s.slot d).registerSize ≠ 0 ∧ reg ≠ (s.slot d).cache then
        if (s.slot d).registerSize = 2 then .high else .low
      else .skip := by
  unfold State.addressing
  simp only [needAddressing_iff]

/-! ### External strategies -/

/-- What an external strategy's result does, by whether it succeeded (R151). -/
theorem applyExt_eq (r : ExtResult) (s : State) :
    State.applyExt r s =
      { s with
        desc := s.desc.set s.seq.d.toNat r.slot s.seq.d.isLt
        buf := Memory.writeAll s.buf r.bufWrites
        trace := s.trace ++ r.events
        seq := if r.success then { s.seq with ack := true, phase := .release }
          else { s.seq with phase := .attFail } } := by
  unfold State.applyExt
  cases r.success <;> rfl

theorem slot_applyExt (r : ExtResult) (s : State) (e : Slot) :
    (State.applyExt r s).slot e = if e = s.seq.d then r.slot else s.slot e := by
  rw [applyExt_eq]
  exact slot_setSlot s.seq.d r.slot s e

/-! ### Admission -/

theorem admission_busy {s : State} (h : s.bus.busy = true) (d : Slot) (dir : Direction)
    (a b : Word) :
    s.admission d dir a b = (s.setStatus d statusBusy).respond (statusWord statusBusy) := by
  simp [State.admission, h]

theorem admission_free {s : State} (h : s.bus.busy = false) (d : Slot) (dir : Direction)
    (a b : Word) : s.admission d dir a b = (s.loadSequencer d dir a b).setBusy true := by
  simp [State.admission, h]

/-! ### Command steps -/

theorem requireSlot_answers (d : Slot) (s t : State) :
    (d.toNat < s.params.nDesc ∧ s.requireSlot d (.next t) = .next t) ∨
      (¬ d.toNat < s.params.nDesc ∧ s.requireSlot d (.next t) = .refused (.slotAbsent d)) := by
  by_cases h : d.toNat < s.params.nDesc
  · exact .inl ⟨h, requireSlot_present h _⟩
  · exact .inr ⟨h, requireSlot_absent h _⟩

/-- A command is well formed exactly when the slot it names, if any, exists. -/
theorem wellFormed_iff (i : Instr) (n : Nat) :
    i.wellFormed n = true ↔ ∀ d, i.slot? = some d → d.toNat < n := by
  cases i <;> simp [Instr.wellFormed, Instr.slot?]

/-- A command step either answers a next state, or the command names a slot that does not exist and is
refused (R79 (d)). -/
theorem exec_answers (i : Instr) (s : State) :
    (i.wellFormed s.params.nDesc = true ∧ ∃ t, exec i s = .next t) ∨
      ∃ d, i.slot? = some d ∧ ¬ d.toNat < s.params.nDesc ∧
        exec i s = .refused (.slotAbsent d) := by
  have key (d : Slot) (t : State) (hd : i.slot? = some d)
      (he : exec i s = s.requireSlot d (.next t)) :
      (i.wellFormed s.params.nDesc = true ∧ ∃ t, exec i s = .next t) ∨
        ∃ d, i.slot? = some d ∧ ¬ d.toNat < s.params.nDesc ∧
          exec i s = .refused (.slotAbsent d) := by
    rcases requireSlot_answers d s t with ⟨h, h'⟩ | ⟨h, h'⟩
    · exact .inl ⟨(wellFormed_iff i _).2 (by simp [hd, h]), t, he.trans h'⟩
    · exact .inr ⟨d, hd, h, he.trans h'⟩
  cases i with
  | init d a b => exact key d _ rfl rfl
  | setaddr d a => exact key d _ rfl rfl
  | setrsz d a => exact key d _ rfl rfl
  | bindw d a => exact key d _ rfl rfl
  | bindr d a => exact key d _ rfl rfl
  | setspd a =>
    refine .inl ⟨rfl, ?_⟩
    unfold exec execSetspd
    cases hc : s.call with
    | some c => exact ⟨_, finishSetspd_waits (.inl (by simp [hc])) _⟩
    | none =>
      cases hr : s.replies with
      | nil => exact ⟨_, finishSetspd_waits (.inr (by simpa using hr)) _⟩
      | cons v vs => exact ⟨_, finishSetspd_cons (by simpa using hc) (by simpa using hr) _⟩
  | settmo a => exact .inl ⟨rfl, _, rfl⟩
  | setrty a => exact .inl ⟨rfl, _, rfl⟩
  | isbusy => exact .inl ⟨rfl, _, rfl⟩
  | write d a b => exact key d _ rfl rfl
  | read d a b => exact key d _ rfl rfl

end Sys2Proof.Machine
end

