-- ==== Sys2Proof/Laws/Commands.lean ====
section
/-! SUPPORT. Everything a command step can do, said once: `exec_next`. Proofs about command steps split on
`Command` instead of unfolding the meanings. -/

namespace Sys2Proof.Machine

/-- The command steps that answer a next state, one row for each outcome of a command. -/
inductive Command (s : State) : Instr → State → Prop where
  | init (d : Slot) (a b : Word) (hd : d.toNat < s.params.nDesc) :
      Command s (.init d a b) (((s.setSlot d (s.initSlot a b)).countDraw a).respond 0)
  | setaddr (d : Slot) (a : Word) (hd : d.toNat < s.params.nDesc) (ha : addressValid a = true) :
      Command s (.setaddr d a)
        ((s.setSlot d { s.slot d with address := storedAddress a }).respond (boolWord true))
  | setaddrFail (d : Slot) (a : Word) (hd : d.toNat < s.params.nDesc) (ha : addressValid a = false) :
      Command s (.setaddr d a) (s.respond (boolWord false))
  | setrsz (d : Slot) (a : Word) (hd : d.toNat < s.params.nDesc) :
      Command s (.setrsz d a)
        ((s.setSlot d { s.slot d with registerSize := storedSize a }).respond (boolWord (sizeValid a)))
  | bindw (d : Slot) (a : Word) (hd : d.toNat < s.params.nDesc) :
      Command s (.bindw d a) ((s.setSlot d { s.slot d with wrSel := a }).respond 0)
  | bindr (d : Slot) (a : Word) (hd : d.toNat < s.params.nDesc) :
      Command s (.bindr d a) ((s.setSlot d { s.slot d with rdSel := a }).respond 0)
  | setspd (a : Word) {v : Word} {vs : List Word} (hc : s.call = none) (hr : s.replies = v :: vs) :
      Command s (.setspd a)
        ((((s.setSpeed (effectiveSpeed s.params a)).called
          (.clk (clockHz (effectiveSpeed s.params a))) vs).setClockCall none).respond
            (effectiveSpeed s.params a))
  | setspdWaits (a : Word) (hr : s.call.isSome = true ∨ s.replies = []) :
      Command s (.setspd a)
        ((s.setSpeed (effectiveSpeed s.params a)).setClockCall (some (effectiveSpeed s.params a)))
  | settmo (a : Word) :
      Command s (.settmo a)
        ((s.setTimeout ((effectiveTimeout a).extractLsb' 0 9)).respond (effectiveTimeout a))
  | setrty (a : Word) :
      Command s (.setrty a)
        ((s.setRetries ((effectiveRetries a).extractLsb' 0 4)).respond (effectiveRetries a))
  | isbusy : Command s .isbusy (s.respond (boolWord s.bus.busy))
  | admitted (i : Instr) (d : Slot) (dir : Direction) (a b : Word) (hd : d.toNat < s.params.nDesc)
      (hb : s.bus.busy = false)
      (hi : i = .write d a b ∧ dir = .write ∨ i = .read d a b ∧ dir = .read) :
      Command s i ((s.loadSequencer d dir a b).setBusy true)
  | rejected (i : Instr) (d : Slot) (a b : Word) (hd : d.toNat < s.params.nDesc)
      (hb : s.bus.busy = true) (hi : i = .write d a b ∨ i = .read d a b) :
      Command s i ((s.setStatus d statusBusy).respond (statusWord statusBusy))

theorem exec_next {i : Instr} {s t : State} (h : exec i s = .next t) : Command s i t := by
  cases i with
  | init d a b =>
    obtain ⟨hd, h⟩ := requireSlot_next.1 h
    cases h
    exact .init d a b hd
  | setaddr d a =>
    obtain ⟨hd, h⟩ := requireSlot_next.1 h
    cases ha : addressValid a <;> simp only [ha] at h <;> cases h
    · exact .setaddrFail d a hd ha
    · exact .setaddr d a hd ha
  | setrsz d a =>
    obtain ⟨hd, h⟩ := requireSlot_next.1 h
    cases h
    exact .setrsz d a hd
  | bindw d a =>
    obtain ⟨hd, h⟩ := requireSlot_next.1 h
    cases h
    exact .bindw d a hd
  | bindr d a =>
    obtain ⟨hd, h⟩ := requireSlot_next.1 h
    cases h
    exact .bindr d a hd
  | setspd a =>
    rcases finishSetspd_next h with ⟨hr, rfl⟩ | ⟨v, vs, hc, hr, rfl⟩
    · exact .setspdWaits a hr
    · exact .setspd a hc hr
  | settmo a => cases h; exact .settmo a
  | setrty a => cases h; exact .setrty a
  | isbusy => cases h; exact .isbusy
  | write d a b =>
    obtain ⟨hd, h⟩ := requireSlot_next.1 h
    cases hb : s.bus.busy
    · rw [admission_free hb] at h
      cases h
      exact .admitted _ d .write a b hd hb (.inl ⟨rfl, rfl⟩)
    · rw [admission_busy hb] at h
      cases h
      exact .rejected _ d a b hd hb (.inl rfl)
  | read d a b =>
    obtain ⟨hd, h⟩ := requireSlot_next.1 h
    cases hb : s.bus.busy
    · rw [admission_free hb] at h
      cases h
      exact .admitted _ d .read a b hd hb (.inr ⟨rfl, rfl⟩)
    · rw [admission_busy hb] at h
      cases h
      exact .rejected _ d a b hd hb (.inr rfl)

end Sys2Proof.Machine
end

