-- ==== Sys2Proof/Laws/Decode.lean ====
section
/-! SUPPORT. The fields of a command word, and that no two rows of the opcode table overlap. -/

namespace Sys2Proof

theorem toNat_commandWord (op : BitVec 4) (d : Slot) (a b : Word) :
    (commandWord op d a b).toNat =
      op.toNat * 2 ^ 36 + d.toNat * 2 ^ 32 + a.toNat * 2 ^ 16 + b.toNat := by
  have hd := d.isLt
  have ha := a.isLt
  have hb := b.isLt
  have h1 : (op.toNat <<< 4 ||| d.toNat) = op.toNat * 2 ^ 4 + d.toNat := by
    rw [← Nat.shiftLeft_add_eq_or_of_lt hd, Nat.shiftLeft_eq]
  have h2 : ((op.toNat <<< 4 ||| d.toNat) <<< 16 ||| a.toNat) =
      (op.toNat * 2 ^ 4 + d.toNat) * 2 ^ 16 + a.toNat := by
    rw [← Nat.shiftLeft_add_eq_or_of_lt ha, Nat.shiftLeft_eq, h1]
  unfold commandWord
  simp only [BitVec.toNat_append]
  rw [h2, ← Nat.shiftLeft_add_eq_or_of_lt hb, Nat.shiftLeft_eq]
  ring

@[simp] theorem opField_commandWord (op : BitVec 4) (d : Slot) (a b : Word) :
    opField (commandWord op d a b) = op := by
  apply BitVec.eq_of_toNat_eq
  have := d.isLt; have := a.isLt; have := b.isLt; have := op.isLt
  simp only [opField, BitVec.extractLsb'_toNat, Nat.shiftRight_eq_div_pow, toNat_commandWord]
  omega

@[simp] theorem dField_commandWord (op : BitVec 4) (d : Slot) (a b : Word) :
    dField (commandWord op d a b) = d := by
  apply BitVec.eq_of_toNat_eq
  have := d.isLt; have := a.isLt; have := b.isLt; have := op.isLt
  simp only [dField, BitVec.extractLsb'_toNat, Nat.shiftRight_eq_div_pow, toNat_commandWord]
  omega

@[simp] theorem aField_commandWord (op : BitVec 4) (d : Slot) (a b : Word) :
    aField (commandWord op d a b) = a := by
  apply BitVec.eq_of_toNat_eq
  have := d.isLt; have := a.isLt; have := b.isLt; have := op.isLt
  simp only [aField, BitVec.extractLsb'_toNat, Nat.shiftRight_eq_div_pow, toNat_commandWord]
  omega

@[simp] theorem bField_commandWord (op : BitVec 4) (d : Slot) (a b : Word) :
    bField (commandWord op d a b) = b := by
  apply BitVec.eq_of_toNat_eq
  have := d.isLt; have := a.isLt; have := b.isLt; have := op.isLt
  simp only [bField, BitVec.extractLsb'_toNat, Nat.shiftRight_eq_div_pow, toNat_commandWord]
  omega

/-- A word is its four fields (R71). -/
theorem commandWord_fields (w : CmdWord) :
    commandWord (opField w) (dField w) (aField w) (bField w) = w := by
  apply BitVec.eq_of_toNat_eq
  have := w.isLt
  simp only [toNat_commandWord, opField, dField, aField, bField, BitVec.extractLsb'_toNat,
    Nat.shiftRight_eq_div_pow]
  omega

theorem acceptIfZero_ok {zero : Bool} {i j : Instr} :
    acceptIfZero zero i = .ok j ↔ zero = true ∧ i = j := by
  cases zero <;> simp [acceptIfZero]

/-- Two rows share a word only if their fixed bits agree where both fix them; no two rows of the table
do, so each word belongs to at most one row. -/
theorem opcodeTable_rows_disjoint :
    opcodeTable.Pairwise fun r q => r.matchBits &&& q.mask ≠ q.matchBits &&& r.mask := by
  decide

end Sys2Proof
end

