-- ==== Sys2Proof/Laws/Moves.lean ====
section
/-! SUPPORT. Everything a micro-step can do, said once (the phase table R150): `microStep_next` and
`microStep_refused`. Proofs about micro-steps split on `Move` instead of unfolding the phases. -/

namespace Sys2Proof.Machine

/-- The call that the micro-step of a state makes, or goes on with (R150), if it makes one. -/
def State.stepCall (s : State) : Option Call :=
  match s.seq.phase with
  | .wBegin =>
    if s.seq.n = 0 then none
    else some (s.call.getD (.begin (s.slot s.seq.d).address (s.addressing s.seq.d s.seq.reg)))
  | .rStart =>
    if s.seq.n = 0 then none
    else
      match s.call with
      | some c => some c
      | none =>
        if s.needAddressing s.seq.d s.seq.reg then
          some (.begin (s.slot s.seq.d).address (s.addressing s.seq.d s.seq.reg))
        else none
  | .attFail =>
    if s.seq.retry = 0 then none else some (s.call.getD (.delay s.params.retryDelayMs))
  | .wAhi => some (s.call.getD (.write (regHigh s.seq.reg)))
  | .wAlo => some (s.call.getD (.write (regLow s.seq.reg)))
  | .wData => some (s.call.getD (.write (Memory.read s.buf s.seq.i.toNat)))
  | .wEnd => some (s.call.getD (.close true))
  | .rAhi => some (s.call.getD (.write (regHigh s.seq.reg)))
  | .rAlo => some (s.call.getD (.write (regLow s.seq.reg)))
  | .rEnd => some (s.call.getD (.close false))
  | .rReq => some (s.call.getD (.request (s.slot s.seq.d).address s.seq.n))
  | .rDrain => some (s.call.getD .read)
  | .idle | .attStart | .ext | .release => none

/-- What a micro-step writes before its call: the cache in `R_START` (R211), and nothing else. -/
def State.beforeCall (s : State) : State :=
  if s.seq.phase = .rStart then s.cacheSet s.seq.d s.seq.reg else s

section
variable (s : State)
@[simp] theorem beforeCall_params : s.beforeCall.params = s.params := by
  unfold State.beforeCall; split <;> rfl
@[simp] theorem beforeCall_bus : s.beforeCall.bus = s.bus := by
  unfold State.beforeCall; split <;> rfl
@[simp] theorem beforeCall_seq : s.beforeCall.seq = s.seq := by
  unfold State.beforeCall; split <;> rfl
@[simp] theorem beforeCall_call : s.beforeCall.call = s.call := by
  unfold State.beforeCall; split <;> rfl
@[simp] theorem beforeCall_clockCall : s.beforeCall.clockCall = s.clockCall := by
  unfold State.beforeCall; split <;> rfl
@[simp] theorem beforeCall_buf : s.beforeCall.buf = s.buf := by
  unfold State.beforeCall; split <;> rfl
@[simp] theorem beforeCall_inputs : s.beforeCall.inputs = s.inputs := by
  unfold State.beforeCall; split <;> rfl
@[simp] theorem beforeCall_replies : s.beforeCall.replies = s.replies := by
  unfold State.beforeCall; split <;> rfl
@[simp] theorem beforeCall_extReplies : s.beforeCall.extReplies = s.extReplies := by
  unfold State.beforeCall; split <;> rfl
@[simp] theorem beforeCall_trace : s.beforeCall.trace = s.trace := by
  unfold State.beforeCall; split <;> rfl
@[simp] theorem beforeCall_responses : s.beforeCall.responses = s.responses := by
  unfold State.beforeCall; split <;> rfl
@[simp] theorem beforeCall_draws : s.beforeCall.draws = s.draws := by
  unfold State.beforeCall; split <;> rfl
/-- The slots, before the call of a micro-step. -/
theorem slot_beforeCall (e : Slot) :
    s.beforeCall.slot e =
      if s.seq.phase = .rStart ∧ e = s.seq.d then { s.slot s.seq.d with cache := s.seq.reg }
      else s.slot e := by
  unfold State.beforeCall
  by_cases hp : s.seq.phase = .rStart
  · simp [hp]
  · simp [hp]

/-- No status is written before the call of a micro-step. -/
@[simp] theorem status_beforeCall (e : Slot) : (s.beforeCall.slot e).status = (s.slot e).status := by
  rw [slot_beforeCall]
  split
  · next h => rw [h.2]
  · rfl
end

/-- One move of the sequencer: the rows of the phase table R150, each with its transport call, and the move in
which a call is made that does not return yet. -/
inductive Move (s : State) : State → Prop where
  | calls {c : Call} (hn : s.call = none) (hr : s.replies = []) (hc : s.stepCall = some c) :
      Move s (s.beforeCall.setCall (some c))
  | attStart (hp : s.seq.phase = .attStart) : Move s s.attStart
  | zeroCount (hp : s.seq.phase = .wBegin ∨ s.seq.phase = .rStart) (hn : s.seq.n = 0) :
      Move s (s.raiseAttemptFail .zeroCount)
  | wBeginAddress (hp : s.seq.phase = .wBegin) {c : Call} (hc : s.stepCall = some c) {v : Word}
      {vs : List Word} (hr : s.replies = v :: vs) (ha : c.next ≠ .skip) :
      Move s (((s.returned c v vs).cacheSet s.seq.d s.seq.reg).setPhase
        (if c.next = .high then .wAhi else .wAlo))
  | wBeginSkip (hp : s.seq.phase = .wBegin) {c : Call} (hc : s.stepCall = some c) {v : Word}
      {vs : List Word} (hr : s.replies = v :: vs) (ha : c.next = .skip) :
      Move s (((s.returned c v vs).setIndex 0).setPhase .wData)
  | rStart (hp : s.seq.phase = .rStart) (hn : s.call = none) {c : Call} (hc : s.stepCall = some c)
      {v : Word} {vs : List Word} (hr : s.replies = v :: vs) :
      Move s (((s.cacheSet s.seq.d s.seq.reg).returned c v vs).setPhase
        (if c.next = .high then .rAhi else .rAlo))
  | rStartReturns (hp : s.seq.phase = .rStart) {c : Call} (hn : s.seq.n ≠ 0) (hc : s.call = some c)
      {v : Word} {vs : List Word} (hr : s.replies = v :: vs) :
      Move s ((s.returned c v vs).setPhase
        (match c.next with | .high => .rAhi | .low => .rAlo | .skip => .rReq))
  | rStartSkip (hp : s.seq.phase = .rStart) (hn : s.seq.n ≠ 0) (hc : s.call = none)
      (ha : s.needAddressing s.seq.d s.seq.reg = false) :
      Move s (s.setPhase .rReq)
  | wAhiOk (hp : s.seq.phase = .wAhi) {c : Call} (hc : s.stepCall = some c) {v : Word}
      {vs : List Word} (hr : s.replies = v :: vs) (hv : replyOk v = true) :
      Move s ((s.returned c v vs).setPhase .wAlo)
  | wAhiFail (hp : s.seq.phase = .wAhi) {c : Call} (hc : s.stepCall = some c) {v : Word}
      {vs : List Word} (hr : s.replies = v :: vs) (hv : replyOk v = false) :
      Move s ((s.returned c v vs).raiseAttemptFail .addrHi)
  | wAloOk (hp : s.seq.phase = .wAlo) {c : Call} (hc : s.stepCall = some c) {v : Word}
      {vs : List Word} (hr : s.replies = v :: vs) (hv : replyOk v = true) :
      Move s (((s.returned c v vs).setIndex 0).setPhase .wData)
  | wAloFail (hp : s.seq.phase = .wAlo) {c : Call} (hc : s.stepCall = some c) {v : Word}
      {vs : List Word} (hr : s.replies = v :: vs) (hv : replyOk v = false) :
      Move s ((s.returned c v vs).raiseAttemptFail .addrLo)
  | wDataOk (hp : s.seq.phase = .wData) {c : Call} (hc : s.stepCall = some c) {v : Word}
      {vs : List Word} (hr : s.replies = v :: vs) (hv : replyOk v = true) :
      Move s ((((s.returned c v vs).cacheInc s.seq.d).setIndex (s.seq.i + 1)).setPhase
        (if s.seq.i + 1 = s.seq.n then .wEnd else .wData))
  | wDataFail (hp : s.seq.phase = .wData) {c : Call} (hc : s.stepCall = some c) {v : Word}
      {vs : List Word} (hr : s.replies = v :: vs) (hv : replyOk v = false) :
      Move s ((s.returned c v vs).raiseAttemptFail .dataWrite)
  | wEndOk (hp : s.seq.phase = .wEnd) {c : Call} (hc : s.stepCall = some c) {v : Word}
      {vs : List Word} (hr : s.replies = v :: vs) (hv : v = 0) :
      Move s (s.returned c v vs).attemptSucceeds
  | wEndFail (hp : s.seq.phase = .wEnd) {c : Call} (hc : s.stepCall = some c) {v : Word}
      {vs : List Word} (hr : s.replies = v :: vs) (hv : v ≠ 0) :
      Move s ((s.returned c v vs).raiseAttemptFail .close)
  | rAhiOk (hp : s.seq.phase = .rAhi) {c : Call} (hc : s.stepCall = some c) {v : Word}
      {vs : List Word} (hr : s.replies = v :: vs) (hv : replyOk v = true) :
      Move s ((s.returned c v vs).setPhase .rAlo)
  | rAhiFail (hp : s.seq.phase = .rAhi) {c : Call} (hc : s.stepCall = some c) {v : Word}
      {vs : List Word} (hr : s.replies = v :: vs) (hv : replyOk v = false) :
      Move s ((s.returned c v vs).raiseAttemptFail .addrHi)
  | rAloOk (hp : s.seq.phase = .rAlo) {c : Call} (hc : s.stepCall = some c) {v : Word}
      {vs : List Word} (hr : s.replies = v :: vs) (hv : replyOk v = true) :
      Move s ((s.returned c v vs).setPhase .rEnd)
  | rAloFail (hp : s.seq.phase = .rAlo) {c : Call} (hc : s.stepCall = some c) {v : Word}
      {vs : List Word} (hr : s.replies = v :: vs) (hv : replyOk v = false) :
      Move s ((s.returned c v vs).raiseAttemptFail .addrLo)
  | rEndOk (hp : s.seq.phase = .rEnd) {c : Call} (hc : s.stepCall = some c) {v : Word}
      {vs : List Word} (hr : s.replies = v :: vs) (hv : v = 0) :
      Move s ((s.returned c v vs).setPhase .rReq)
  | rEndFail (hp : s.seq.phase = .rEnd) {c : Call} (hc : s.stepCall = some c) {v : Word}
      {vs : List Word} (hr : s.replies = v :: vs) (hv : v ≠ 0) :
      Move s ((s.returned c v vs).raiseAttemptFail .addrClose)
  | rReqOk (hp : s.seq.phase = .rReq) {c : Call} (hc : s.stepCall = some c) {v : Word}
      {vs : List Word} (hr : s.replies = v :: vs) (hv : v ≠ 0) :
      Move s (((s.returned c v vs).setIndex 0).setPhase .rDrain)
  | rReqFail (hp : s.seq.phase = .rReq) {c : Call} (hc : s.stepCall = some c) {v : Word}
      {vs : List Word} (hr : s.replies = v :: vs) (hv : v = 0) :
      Move s ((s.returned c v vs).raiseAttemptFail .reqZero)
  | rDrainLast (hp : s.seq.phase = .rDrain) {c : Call} (hc : s.stepCall = some c) {v : Word}
      {vs : List Word} (hr : s.replies = v :: vs) (hi : s.seq.i + 1 = s.seq.n) :
      Move s ((((s.returned c v vs).writeBuf s.seq.i (replyByte v)).cacheInc
        s.seq.d).setIndex (s.seq.i + 1)).attemptSucceeds
  | rDrainMore (hp : s.seq.phase = .rDrain) {c : Call} (hc : s.stepCall = some c) {v : Word}
      {vs : List Word} (hr : s.replies = v :: vs) (hi : s.seq.i + 1 ≠ s.seq.n) :
      Move s (((((s.returned c v vs).writeBuf s.seq.i (replyByte v)).cacheInc
        s.seq.d).setIndex (s.seq.i + 1)).setPhase .rDrain)
  | ext (hp : s.seq.phase = .ext) (hx : s.params.hasExt s.seq.sel = true) {r : ExtResult}
      {rs : List ExtResult} (hr : s.extReplies = r :: rs) :
      Move s (State.applyExt r { s with extReplies := rs })
  | retry (hp : s.seq.phase = .attFail) {c : Call} (hc : s.stepCall = some c) {v : Word}
      {vs : List Word} (hr : s.replies = v :: vs) :
      Move s (((s.returned c v vs).setRetry (s.seq.retry - 1)).setPhase .attStart)
  | exhausted (hp : s.seq.phase = .attFail) (hn : s.seq.retry = 0) :
      Move s ((s.setAck false).setPhase .release)
  | release (hp : s.seq.phase = .release) : Move s s.release

/-! ### The call of each phase -/

theorem stepCall_wBegin {s : State} (hp : s.seq.phase = .wBegin) (hn : s.seq.n ≠ 0) :
    s.stepCall = some
      (s.call.getD (.begin (s.slot s.seq.d).address (s.addressing s.seq.d s.seq.reg))) := by
  simp only [State.stepCall, hp]
  exact if_neg hn

theorem stepCall_attFail {s : State} (hp : s.seq.phase = .attFail) (hn : s.seq.retry ≠ 0) :
    s.stepCall = some (s.call.getD (.delay s.params.retryDelayMs)) := by
  simp only [State.stepCall, hp]
  exact if_neg hn

theorem stepCall_rStart {s : State} (hp : s.seq.phase = .rStart) (hn : s.seq.n ≠ 0)
    (hc : s.call = none) (ha : s.needAddressing s.seq.d s.seq.reg = true) :
    s.stepCall = some
      (.begin (s.slot s.seq.d).address (s.addressing s.seq.d s.seq.reg)) := by
  simp only [State.stepCall, hp, hc]
  exact (if_neg hn).trans (if_pos ha)

theorem stepCall_rStart_iff {s : State} {c : Call} (hp : s.seq.phase = .rStart) (hn : s.call = none) :
    s.stepCall = some c ↔ s.seq.n ≠ 0 ∧ s.needAddressing s.seq.d s.seq.reg = true ∧
      c = .begin (s.slot s.seq.d).address (s.addressing s.seq.d s.seq.reg) := by
  simp only [State.stepCall, hp, hn]
  by_cases h0 : s.seq.n = 0
  · simp [h0]
  · rw [if_neg h0]
    cases s.needAddressing s.seq.d s.seq.reg
    · simp
    · simp only [if_true, Option.some.injEq, true_and]
      exact ⟨fun h => ⟨h0, h.symm⟩, fun h => h.2.symm⟩

theorem stepCall_wAhi {s : State} (hp : s.seq.phase = .wAhi) :
    s.stepCall = some (s.call.getD (.write (regHigh s.seq.reg))) := by simp only [State.stepCall, hp]

theorem stepCall_wAlo {s : State} (hp : s.seq.phase = .wAlo) :
    s.stepCall = some (s.call.getD (.write (regLow s.seq.reg))) := by simp only [State.stepCall, hp]

theorem stepCall_wData {s : State} (hp : s.seq.phase = .wData) :
    s.stepCall = some (s.call.getD (.write (Memory.read s.buf s.seq.i.toNat))) := by simp only [State.stepCall, hp]

theorem stepCall_wEnd {s : State} (hp : s.seq.phase = .wEnd) :
    s.stepCall = some (s.call.getD (.close true)) := by simp only [State.stepCall, hp]

theorem stepCall_rAhi {s : State} (hp : s.seq.phase = .rAhi) :
    s.stepCall = some (s.call.getD (.write (regHigh s.seq.reg))) := by simp only [State.stepCall, hp]

theorem stepCall_rAlo {s : State} (hp : s.seq.phase = .rAlo) :
    s.stepCall = some (s.call.getD (.write (regLow s.seq.reg))) := by simp only [State.stepCall, hp]

theorem stepCall_rEnd {s : State} (hp : s.seq.phase = .rEnd) :
    s.stepCall = some (s.call.getD (.close false)) := by simp only [State.stepCall, hp]

theorem stepCall_rReq {s : State} (hp : s.seq.phase = .rReq) :
    s.stepCall = some (s.call.getD (.request (s.slot s.seq.d).address s.seq.n)) := by simp only [State.stepCall, hp]

theorem stepCall_rDrain {s : State} (hp : s.seq.phase = .rDrain) :
    s.stepCall = some (s.call.getD .read) := by simp only [State.stepCall, hp]

/-- A call that is outstanding is the call of the micro-step. -/
theorem stepCall_outstanding {s : State} {c d : Call} (hd : s.call = some d) (h : s.stepCall = some c) :
    c = d := by
  cases hp : s.seq.phase <;>
    simp only [State.stepCall, hp, hd, reduceCtorEq, Option.getD_some, Option.some.injEq] at h
  case wBegin | rStart | attFail =>
    split at h
    · cases h
    · exact (Option.some.inj h).symm
  all_goals exact h.symm

/-- A call that is made now belongs to its phase (R150). -/
theorem stepCall_fits {s : State} {c : Call} (hn : s.call = none) (h : s.stepCall = some c) :
    c.fits s.seq := by
  cases hp : s.seq.phase <;>
    simp only [State.stepCall, hp, hn, reduceCtorEq, Option.getD_none, Option.some.injEq] at h
  case wBegin => split at h <;> cases h; exact ⟨‹_›, .inl hp⟩
  case rStart =>
    split at h
    · cases h
    · next h0 =>
      split at h
      · next ha =>
        cases h
        refine ⟨h0, .inr ⟨hp, ?_⟩⟩
        unfold State.addressing
        rw [if_pos ha]
        split <;> exact nofun
      · cases h
  case attFail => split at h <;> cases h; exact ⟨hp, ‹_›⟩
  all_goals
    cases h
    simp [Call.fits, hp]

/-! ### Each phase -/

/-- A micro-step that is one transport call, made before or now: it waits, makes the call, or goes on with what
the call returned. -/
theorem transportCall_move {s t : State} {c : Call} {k : Call → Word → State → State}
    (hb : s.beforeCall = s) (hc : s.stepCall = some (s.call.getD c))
    (h : s.transportCall c k = .next t)
    (hk : ∀ v vs, s.replies = v :: vs →
      Move s (k (s.call.getD c) v (s.returned (s.call.getD c) v vs))) :
    (t = s ∧ s.call.isSome = true ∧ s.replies = []) ∨ Move s t := by
  rcases transportCall_next h with h | ⟨hn, hr, rfl⟩ | ⟨v, vs, hr, rfl⟩
  · exact .inl h
  · rw [hn] at hc
    have := Move.calls hn hr hc
    rw [hb] at this
    exact .inr this
  · exact .inr (hk v vs hr)

theorem beforeCall_of_ne {s : State} (h : s.seq.phase ≠ .rStart) : s.beforeCall = s := if_neg h

theorem microWBegin_next {s t : State} (hp : s.seq.phase = .wBegin) (h : s.microWBegin = .next t) :
    (t = s ∧ s.seq.n ≠ 0 ∧ s.call.isSome = true ∧ s.replies = []) ∨ Move s t := by
  unfold State.microWBegin at h
  split at h
  · next hn => cases h; exact .inr (.zeroCount (.inl hp) hn)
  · next hn =>
    have hc := stepCall_wBegin hp hn
    refine (transportCall_move (beforeCall_of_ne (by simp [hp])) hc h fun v vs hr => ?_).imp_left
      fun hb => ⟨hb.1, hn, hb.2⟩
    cases ha : (s.call.getD (.begin (s.slot s.seq.d).address (s.addressing s.seq.d s.seq.reg))).next
    · simpa [ha] using Move.wBeginAddress hp hc hr (by simp [ha])
    · simpa [ha] using Move.wBeginAddress hp hc hr (by simp [ha])
    · simpa [ha] using Move.wBeginSkip hp hc hr ha

theorem microRStart_next {s t : State} (hp : s.seq.phase = .rStart) (h : s.microRStart = .next t) :
    (t = s ∧ s.seq.n ≠ 0 ∧ s.call.isSome = true ∧ s.replies = []) ∨ Move s t := by
  unfold State.microRStart at h
  split at h
  · next hn => cases h; exact .inr (.zeroCount (.inr hp) hn)
  next hn =>
  split at h
  · next hs =>
    unfold State.openForRead State.tBegin at h
    rcases transportCall_next h with h | ⟨hc, -, -⟩ | ⟨v, vs, hr, rfl⟩
    · exact .inl ⟨h.1, hn, h.2⟩
    · simp [hc] at hs
    · obtain ⟨c, hc⟩ := Option.isSome_iff_exists.1 hs
      rw [hc]
      exact .inr (.rStartReturns hp hn hc hr)
  next hs =>
  have hc : s.call = none := by simpa using hs
  split at h
  · next ha =>
    have hs := stepCall_rStart hp hn hc ha
    have hne : s.addressing s.seq.d s.seq.reg ≠ .skip := by
      unfold State.addressing
      rw [if_pos ha]
      split <;> exact nofun
    have hb : s.beforeCall = s.cacheSet s.seq.d s.seq.reg := if_pos hp
    have hd : ((s.cacheSet s.seq.d s.seq.reg).slot s.seq.d).address = (s.slot s.seq.d).address := by
      simp
    unfold State.openForRead State.tBegin at h
    simp only [cacheSet_seq, hd] at h
    rcases transportCall_next h with h | ⟨-, hr, rfl⟩ | ⟨v, vs, hr, rfl⟩
    · simp [hc] at h
    · exact .inr (hb ▸ Move.calls hc hr hs)
    · have := Move.rStart hp hc hs hr
      cases hx : s.addressing s.seq.d s.seq.reg <;> simp_all [Call.next]
  · next ha => cases h; exact .inr (.rStartSkip hp hn hc (Bool.eq_false_iff.2 ha))

theorem microWAhi_next {s t : State} (hp : s.seq.phase = .wAhi) (h : s.microWAhi = .next t) :
    (t = s ∧ s.call.isSome = true ∧ s.replies = []) ∨ Move s t := by
  have hc := stepCall_wAhi hp
  unfold State.microWAhi State.tWrite at h
  refine transportCall_move (beforeCall_of_ne (by simp [hp])) hc h fun v vs hr => ?_
  cases hv : replyOk v
  · exact .wAhiFail hp hc hr hv
  · exact .wAhiOk hp hc hr hv

theorem microWAlo_next {s t : State} (hp : s.seq.phase = .wAlo) (h : s.microWAlo = .next t) :
    (t = s ∧ s.call.isSome = true ∧ s.replies = []) ∨ Move s t := by
  have hc := stepCall_wAlo hp
  unfold State.microWAlo State.tWrite at h
  refine transportCall_move (beforeCall_of_ne (by simp [hp])) hc h fun v vs hr => ?_
  cases hv : replyOk v
  · exact .wAloFail hp hc hr hv
  · exact .wAloOk hp hc hr hv

theorem microWData_next {s t : State} (hp : s.seq.phase = .wData) (h : s.microWData = .next t) :
    (t = s ∧ s.call.isSome = true ∧ s.replies = []) ∨ Move s t := by
  have hc := stepCall_wData hp
  unfold State.microWData State.tWrite at h
  refine transportCall_move (beforeCall_of_ne (by simp [hp])) hc h fun v vs hr => ?_
  cases hv : replyOk v
  · exact .wDataFail hp hc hr hv
  · exact .wDataOk hp hc hr hv

theorem microRAhi_next {s t : State} (hp : s.seq.phase = .rAhi) (h : s.microRAhi = .next t) :
    (t = s ∧ s.call.isSome = true ∧ s.replies = []) ∨ Move s t := by
  have hc := stepCall_rAhi hp
  unfold State.microRAhi State.tWrite at h
  refine transportCall_move (beforeCall_of_ne (by simp [hp])) hc h fun v vs hr => ?_
  cases hv : replyOk v
  · exact .rAhiFail hp hc hr hv
  · exact .rAhiOk hp hc hr hv

theorem microRAlo_next {s t : State} (hp : s.seq.phase = .rAlo) (h : s.microRAlo = .next t) :
    (t = s ∧ s.call.isSome = true ∧ s.replies = []) ∨ Move s t := by
  have hc := stepCall_rAlo hp
  unfold State.microRAlo State.tWrite at h
  refine transportCall_move (beforeCall_of_ne (by simp [hp])) hc h fun v vs hr => ?_
  cases hv : replyOk v
  · exact .rAloFail hp hc hr hv
  · exact .rAloOk hp hc hr hv

theorem microWEnd_next {s t : State} (hp : s.seq.phase = .wEnd) (h : s.microWEnd = .next t) :
    (t = s ∧ s.call.isSome = true ∧ s.replies = []) ∨ Move s t := by
  have hc := stepCall_wEnd hp
  unfold State.microWEnd State.tEnd at h
  refine transportCall_move (beforeCall_of_ne (by simp [hp])) hc h fun v vs hr => ?_
  change Move s (ite _ _ _)
  split
  · next hv => exact .wEndOk hp hc hr hv
  · next hv => exact .wEndFail hp hc hr hv

theorem microREnd_next {s t : State} (hp : s.seq.phase = .rEnd) (h : s.microREnd = .next t) :
    (t = s ∧ s.call.isSome = true ∧ s.replies = []) ∨ Move s t := by
  have hc := stepCall_rEnd hp
  unfold State.microREnd State.tEnd at h
  refine transportCall_move (beforeCall_of_ne (by simp [hp])) hc h fun v vs hr => ?_
  change Move s (ite _ _ _)
  split
  · next hv => exact .rEndOk hp hc hr hv
  · next hv => exact .rEndFail hp hc hr hv

theorem microRReq_next {s t : State} (hp : s.seq.phase = .rReq) (h : s.microRReq = .next t) :
    (t = s ∧ s.call.isSome = true ∧ s.replies = []) ∨ Move s t := by
  have hc := stepCall_rReq hp
  unfold State.microRReq State.tRequest at h
  refine transportCall_move (beforeCall_of_ne (by simp [hp])) hc h fun v vs hr => ?_
  change Move s (ite _ _ _)
  split
  · next hv => exact .rReqFail hp hc hr hv
  · next hv => exact .rReqOk hp hc hr hv

theorem microRDrain_next {s t : State} (hp : s.seq.phase = .rDrain) (h : s.microRDrain = .next t) :
    (t = s ∧ s.call.isSome = true ∧ s.replies = []) ∨ Move s t := by
  have hc := stepCall_rDrain hp
  unfold State.microRDrain State.tRead at h
  refine transportCall_move (beforeCall_of_ne (by simp [hp])) hc h fun v vs hr => ?_
  change Move s (ite _ _ _)
  split
  · next hi => exact .rDrainLast hp hc hr hi
  · next hi => exact .rDrainMore hp hc hr hi

theorem microExt_next {s t : State} (hp : s.seq.phase = .ext) (h : s.microExt = .next t) :
    (t = s ∧ s.params.hasExt s.seq.sel = true ∧ s.extReplies = []) ∨ Move s t := by
  unfold State.microExt at h
  split at h
  · next hx =>
    split at h
    · next hr => cases h; exact .inl ⟨rfl, hx, hr⟩
    · next hr => cases h; exact .inr (.ext hp hx hr)
  · cases h

theorem microAttFail_next {s t : State} (hp : s.seq.phase = .attFail)
    (h : s.microAttFail = .next t) :
    (t = s ∧ s.seq.retry ≠ 0 ∧ s.call.isSome = true ∧ s.replies = []) ∨ Move s t := by
  unfold State.microAttFail at h
  split at h
  · next hn =>
    have hc := stepCall_attFail hp hn
    exact (transportCall_move (beforeCall_of_ne (by simp [hp])) hc h fun v vs hr =>
      .retry hp hc hr).imp_left fun hb => ⟨hb.1, hn, hb.2⟩
  · next hn => cases h; exact .inr (.exhausted hp (not_not.1 hn))

/-! ### Every micro-step -/

/-- A micro-step that answers a next state leaves the state as it is, in `IDLE` or waiting for the outside
world, or makes one of the moves. -/
theorem microStep_next {s t : State} (h : s.microStep = .next t) :
    (t = s ∧ (s.seq.phase = .idle ∨ s.blocked = true)) ∨ Move s t := by
  have wait {p : Prop} (hb : t = s ∧ p) (hs : p → s.blocked = true) :
      t = s ∧ (s.seq.phase = .idle ∨ s.blocked = true) := ⟨hb.1, .inr (hs hb.2)⟩
  cases hp : s.seq.phase <;> simp only [State.microStep, hp] at h
  case idle => cases h; exact .inl ⟨rfl, .inl rfl⟩
  case attStart => cases h; exact .inr (.attStart hp)
  case release => cases h; exact .inr (.release hp)
  case wBegin =>
    exact (microWBegin_next hp h).imp_left fun hb => hp ▸ wait hb fun hn => by
      simpa [State.blocked, hp, and_assoc] using hn
  case wAhi =>
    exact (microWAhi_next hp h).imp_left fun hb => hp ▸ wait hb fun hn => by
      simpa [State.blocked, hp] using hn
  case wAlo =>
    exact (microWAlo_next hp h).imp_left fun hb => hp ▸ wait hb fun hn => by
      simpa [State.blocked, hp] using hn
  case wData =>
    exact (microWData_next hp h).imp_left fun hb => hp ▸ wait hb fun hn => by
      simpa [State.blocked, hp] using hn
  case wEnd =>
    exact (microWEnd_next hp h).imp_left fun hb => hp ▸ wait hb fun hn => by
      simpa [State.blocked, hp] using hn
  case rStart =>
    exact (microRStart_next hp h).imp_left fun hb => hp ▸ wait hb fun hn => by
      simpa [State.blocked, hp, and_assoc] using hn
  case rAhi =>
    exact (microRAhi_next hp h).imp_left fun hb => hp ▸ wait hb fun hn => by
      simpa [State.blocked, hp] using hn
  case rAlo =>
    exact (microRAlo_next hp h).imp_left fun hb => hp ▸ wait hb fun hn => by
      simpa [State.blocked, hp] using hn
  case rEnd =>
    exact (microREnd_next hp h).imp_left fun hb => hp ▸ wait hb fun hn => by
      simpa [State.blocked, hp] using hn
  case rReq =>
    exact (microRReq_next hp h).imp_left fun hb => hp ▸ wait hb fun hn => by
      simpa [State.blocked, hp] using hn
  case rDrain =>
    exact (microRDrain_next hp h).imp_left fun hb => hp ▸ wait hb fun hn => by
      simpa [State.blocked, hp] using hn
  case ext =>
    exact (microExt_next hp h).imp_left fun hb => hp ▸ wait hb fun hn => by
      simpa [State.blocked, hp] using hn
  case attFail =>
    exact (microAttFail_next hp h).imp_left fun hb => hp ▸ wait hb fun hn => by
      simpa [State.blocked, hp, and_assoc] using hn

/-- A micro-step whose call is made and not returned. -/
theorem microStep_calls {s : State} {c : Call} (hn : s.call = none) (hr : s.replies = [])
    (hc : s.stepCall = some c) : s.microStep = .next (s.beforeCall.setCall (some c)) := by
  by_cases hs : s.seq.phase = .rStart
  · obtain ⟨h0, ha, rfl⟩ := (stepCall_rStart_iff hs hn).1 hc
    have hb : s.beforeCall = s.cacheSet s.seq.d s.seq.reg := if_pos hs
    simp only [State.microStep, hs, State.microRStart, hn, ha, hb, State.openForRead]
    rw [tBegin_nil (s := s.cacheSet s.seq.d s.seq.reg) hr hn]
    exact (if_neg h0).trans (by simp)
  · rw [beforeCall_of_ne hs]
    cases hp : s.seq.phase
    case rStart => exact absurd hp hs
    case wBegin =>
      have h0 : s.seq.n ≠ 0 := by rintro h0; simp [State.stepCall, hp, h0] at hc
      rw [stepCall_wBegin hp h0, hn] at hc
      cases hc
      simp only [State.microStep, hp, State.microWBegin]
      exact (if_neg h0).trans (tBegin_nil hr hn _ _ _)
    case attFail =>
      have h0 : s.seq.retry ≠ 0 := by rintro h0; simp [State.stepCall, hp, h0] at hc
      rw [stepCall_attFail hp h0, hn] at hc
      cases hc
      simp only [State.microStep, hp, State.microAttFail]
      exact (if_pos h0).trans (tDelay_nil hr hn _ _)
    all_goals
      simp only [State.stepCall, hp, hn, reduceCtorEq] at hc
    all_goals
      cases hc
      simp only [State.microStep, hp, State.microWAhi, State.microWAlo, State.microWData, State.microWEnd,
        State.microRAhi, State.microRAlo, State.microREnd, State.microRReq, State.microRDrain,
        tWrite_nil hr hn, tEnd_nil hr hn, tRequest_nil hr hn, tRead_nil hr hn, Option.getD_none]

/-- Every move is what the micro-step answers: with `microStep_next`, the moves are exactly the micro-steps
that do not wait. -/
theorem microStep_of_move {s t : State} (h : Move s t) : s.microStep = .next t := by
  cases h with
  | calls hn hr hc => exact microStep_calls hn hr hc
  | attStart hp => simp only [State.microStep, hp]
  | zeroCount hp hn =>
    rcases hp with hp | hp <;> simp only [State.microStep, hp]
    · exact if_pos hn
    · exact if_pos hn
  | wBeginAddress hp hc hr ha | wBeginSkip hp hc hr ha =>
    have h0 : s.seq.n ≠ 0 := by rintro h0; simp [State.stepCall, hp, h0] at hc
    rw [stepCall_wBegin hp h0] at hc
    obtain rfl := Option.some.inj hc
    simp only [State.microStep, hp, State.microWBegin]
    refine (if_neg h0).trans ((tBegin_cons hr _ _ _).trans (congrArg _ ?_))
    generalize s.call.getD _ = c at ha ⊢
    cases hx : c.next <;> simp_all
  | rStart hp hn hc hr =>
    obtain ⟨h0, ha, rfl⟩ := (stepCall_rStart_iff hp hn).1 hc
    simp only [State.microStep, hp, State.microRStart, hn, ha, State.openForRead]
    rw [tBegin_cons (s := s.cacheSet s.seq.d s.seq.reg) hr]
    refine (if_neg h0).trans ?_
    unfold State.addressing
    rw [if_pos ha]
    rw [if_neg (show ¬ (none : Option Call).isSome = true from nofun), if_pos True.intro]
    by_cases hs : (s.slot s.seq.d).registerSize = 2
    · rw [if_pos hs]; simp [hn, Call.next]
    · rw [if_neg hs]; simp [hn, Call.next]
  | rStartReturns hp h0 hc hr =>
    simp only [State.microStep, hp, State.microRStart, hc, State.openForRead, tBegin_cons hr]
    exact if_neg h0
  | rStartSkip hp hn hc ha =>
    simp only [State.microStep, hp, State.microRStart, hc, ha]
    exact if_neg hn
  | ext hp hx hr => simp only [State.microStep, hp, State.microExt, hx, hr]; rfl
  | retry hp hc hr =>
    have h0 : s.seq.retry ≠ 0 := by rintro h0; simp [State.stepCall, hp, h0] at hc
    rw [stepCall_attFail hp h0] at hc
    obtain rfl := Option.some.inj hc
    simp only [State.microStep, hp, State.microAttFail]
    exact (if_pos h0).trans (tDelay_cons hr _ _)
  | exhausted hp hn =>
    simp only [State.microStep, hp, State.microAttFail]
    exact if_neg (not_not.2 hn)
  | release hp => simp only [State.microStep, hp]
  | wAhiOk hp hc hr hv | wAhiFail hp hc hr hv | wAloOk hp hc hr hv | wAloFail hp hc hr hv
  | wDataOk hp hc hr hv | wDataFail hp hc hr hv | rAhiOk hp hc hr hv | rAhiFail hp hc hr hv
  | rAloOk hp hc hr hv | rAloFail hp hc hr hv =>
    simp only [State.stepCall, hp] at hc
    obtain rfl := Option.some.inj hc
    simp only [State.microStep, hp, State.microWAhi, State.microWAlo, State.microWData,
      State.microRAhi, State.microRAlo, tWrite_cons hr, hv]
    rfl
  | wEndOk hp hc hr hv | wEndFail hp hc hr hv | rEndOk hp hc hr hv | rEndFail hp hc hr hv
  | rReqOk hp hc hr hv | rReqFail hp hc hr hv | rDrainLast hp hc hr hv | rDrainMore hp hc hr hv =>
    simp only [State.stepCall, hp] at hc
    obtain rfl := Option.some.inj hc
    simp only [State.microStep, hp, State.microWEnd, State.microREnd, State.microRReq,
      State.microRDrain, tEnd_cons hr, tRequest_cons hr, tRead_cons hr]
    first | exact congrArg _ (if_pos hv) | exact congrArg _ (if_neg hv)

/-- Only `EXT` refuses, and only for a select `ext_strategy` gives no relation for (R151). -/
theorem microStep_refused {s : State} {r : Refusal} (h : s.microStep = .refused r) :
    s.seq.phase = .ext ∧ s.params.hasExt s.seq.sel = false ∧
      r = .externalStrategyAbsent s.seq.sel := by
  cases hp : s.seq.phase <;> simp only [State.microStep, hp, reduceCtorEq] at h
  case ext =>
    unfold State.microExt at h
    split at h
    · split at h <;> cases h
    · next hx => cases h; exact ⟨rfl, Bool.eq_false_iff.2 hx, rfl⟩
  case wBegin => unfold State.microWBegin at h; split at h; (· cases h); exact absurd h transportCall_ne_refused
  case rStart =>
    unfold State.microRStart State.openForRead State.tBegin at h
    split at h
    · cases h
    split at h
    · exact absurd h transportCall_ne_refused
    split at h
    · exact absurd h transportCall_ne_refused
    · cases h
  case attFail =>
    unfold State.microAttFail at h
    split at h
    · exact absurd h transportCall_ne_refused
    · cases h
  all_goals
    simp only [State.microWAhi, State.microWAlo, State.microWData, State.microWEnd,
      State.microRAhi, State.microRAlo, State.microREnd, State.microRReq, State.microRDrain] at h
    exact absurd h transportCall_ne_refused

/-- A micro-step that waits leaves the state as it is (R148). -/
theorem microStep_blocked {s : State} (h : s.blocked = true) : s.microStep = .next s := by
  cases hp : s.seq.phase <;>
    simp only [State.blocked, hp, Bool.and_eq_true, List.isEmpty_iff, decide_eq_true_eq,
      Bool.false_eq_true] at h
  case ext => simp [State.microStep, State.microExt, hp, h.1, h.2]
  case wBegin =>
    simp [State.microStep, State.microWBegin, hp, tBegin_waits h.2 h.1.2]
    exact fun h0 => absurd h0 h.1.1
  case rStart =>
    simp [State.microStep, State.microRStart, State.openForRead, hp, h.1.2,
      tBegin_waits h.2 h.1.2]
    exact fun h0 => absurd h0 h.1.1
  case attFail =>
    simp [State.microStep, State.microAttFail, hp, tDelay_waits h.2 h.1.2]
    exact fun h0 => absurd h0 h.1.1
  all_goals
    simp only [State.microStep, hp, State.microWAhi, State.microWAlo, State.microWData,
      State.microWEnd, State.microRAhi, State.microRAlo, State.microREnd, State.microRReq,
      State.microRDrain, tWrite_waits h.2 h.1, tEnd_waits h.2 h.1, tRequest_waits h.2 h.1,
      tRead_waits h.2 h.1]

/-! ### Every step -/

/-- The block's own move: the sequencer's micro-step, unless SETSPD waits and no call of the sequencer is
outstanding (R52). -/
theorem blockStep_none {s : State} (h : s.clockCall = none ∨ s.call.isSome = true) :
    s.blockStep = s.microStep := by
  unfold State.blockStep
  cases hc : s.call <;> cases hk : s.clockCall <;> simp [hc, hk] at h ⊢

theorem blockStep_some {s : State} {eff : Word} (hc : s.call = none) (h : s.clockCall = some eff) :
    s.blockStep = s.finishSetspd eff := by
  simp [State.blockStep, hc, h]

theorem blockStep_waits {s : State} (h : s.waits = true) : s.blockStep = .next s := by
  cases hc : s.call with
  | some c =>
    rw [blockStep_none (.inr (by simp [hc]))]
    exact microStep_blocked (by simpa [State.waits, hc] using h)
  | none =>
    cases hk : s.clockCall with
    | none =>
      rw [blockStep_none (.inl hk)]
      exact microStep_blocked (by simpa [State.waits, hc, hk] using h)
    | some eff =>
      rw [blockStep_some hc hk]
      exact finishSetspd_waits (.inr (by simpa [State.waits, hc, hk] using h)) eff

/-- The commands that have no place with the call `c` outstanding: SETSPD, and INIT of the slot of a `W_BEGIN`
that has still to set the cache. -/
theorem clashes_iff (s : State) (c : Call) (i : Instr) :
    s.clashes c i = true ↔ (∃ a, i = .setspd a) ∨
      ∃ a b, i = .init s.seq.d a b ∧ s.seq.phase = .wBegin ∧ c.next ≠ .skip := by
  cases i <;> simp [State.clashes, and_assoc, exists_and_left]

/-- A word is held back while a call of the sequencer is outstanding and its command has no place there. -/
theorem holdsBack_iff (s : State) (w : CmdWord) :
    s.holdsBack w = true ↔ ∃ c i, s.call = some c ∧ decode w = .ok i ∧
      i.wellFormed s.params.nDesc = true ∧ s.clashes c i = true := by
  unfold State.holdsBack
  cases s.call <;> cases decode w <;> simp

theorem holdsBack_none {s : State} (h : s.call = none) (w : CmdWord) : s.holdsBack w = false := by
  simp [State.holdsBack, h]

theorem holdsBack_of_not_clashes {s : State} {w : CmdWord} {i : Instr} (hd : decode w = .ok i)
    (h : ∀ c, s.call = some c → s.clashes c i = false) : s.holdsBack w = false := by
  cases hc : s.call with
  | none => exact holdsBack_none hc w
  | some c => simp [State.holdsBack, hc, hd, h c hc]

/-- A word is accepted with no SETSPD waiting, from the main context with no transaction in flight, and not
while it is held back. -/
theorem accepts_iff (s : State) (ctx : Context) (w : CmdWord) :
    s.accepts ctx w = true ↔
      s.clockCall = none ∧ (ctx = .main → s.seq.phase = .idle) ∧ s.holdsBack w = false := by
  unfold State.accepts
  cases s.clockCall <;> cases ctx <;> simp

/-! ### The next input -/

/-- An input that can be taken with contexts waiting can be taken with none waiting. -/
theorem takes_nil {s : State} {held : List Context} {x : Input} (h : s.takes held x = true) :
    s.takes [] x = true := by
  cases x <;> simp_all [State.takes]

/-- Only a command can fail to be taken. -/
theorem takes_false {s : State} {held : List Context} {x : Input} (h : s.takes held x = false) :
    ∃ ctx w, x = .command ctx w := by
  cases x <;> simp_all [State.takes]

@[simp] theorem takes_command (s : State) (ctx : Context) (w : CmdWord) :
    s.takes [] (.command ctx w) = s.accepts ctx w := by simp [State.takes]

theorem firstTaken_some {s : State} {x : Input} {rest : List Input} {held : List Context}
    {l : List Input} (h : s.firstTaken held l = some (x, rest)) :
    ∃ pre post, l = pre ++ x :: post ∧ rest = pre ++ post ∧ s.takes [] x = true ∧
      ∀ y ∈ pre, ∃ ctx w, y = .command ctx w := by
  induction l generalizing held x rest with
  | nil => cases h
  | cons y l ih =>
    unfold State.firstTaken at h
    split at h
    · next ht => cases h; exact ⟨[], l, rfl, rfl, takes_nil ht, nofun⟩
    · next ht =>
      obtain ⟨p, hp, he⟩ := Option.map_eq_some_iff.1 h
      cases he
      obtain ⟨pre, post, rfl, hr, hx, hc⟩ := ih hp
      refine ⟨y :: pre, post, rfl, by simp [hr], hx, ?_⟩
      rintro z (_ | ⟨_, hz⟩)
      · exact takes_false (Bool.eq_false_iff.2 ht)
      · exact hc z hz

theorem firstTaken_none {s : State} {held : List Context} {l : List Input}
    (h : ∀ x ∈ l, s.takes [] x = false) : s.firstTaken held l = none := by
  induction l generalizing held with
  | nil => rfl
  | cons y l ih =>
    have hy : ¬ s.takes held y = true := fun ht =>
      Bool.false_ne_true ((h y (by simp)).symm.trans (takes_nil ht))
    rw [State.firstTaken, if_neg hy, ih fun x hx => h x (by simp [hx])]
    rfl

/-- Which input is taken depends on the state through `takes` alone. -/
theorem firstTaken_congr {s t : State} (h : ∀ held x, s.takes held x = t.takes held x)
    (held : List Context) (l : List Input) : s.firstTaken held l = t.firstTaken held l := by
  induction l generalizing held with
  | nil => rfl
  | cons y l ih => simp only [State.firstTaken, h, ih]

/-- Everything `nextInput` can give: an input that can be taken, behind commands only, and the other inputs in
their order; the very next one while the block can move. -/
theorem nextInput_some {s : State} {x : Input} {rest : List Input}
    (h : s.nextInput = some (x, rest)) :
    ∃ pre post, s.inputs = pre ++ x :: post ∧ rest = pre ++ post ∧ s.takes [] x = true ∧
      (∀ y ∈ pre, ∃ ctx w, y = .command ctx w) ∧ (s.waits = false → pre = []) := by
  unfold State.nextInput at h
  split at h
  · next hw =>
    obtain ⟨pre, post, hi, hr, hx, hc⟩ := firstTaken_some h
    exact ⟨pre, post, hi, hr, hx, hc, fun h => by simp [h] at hw⟩
  · split at h
    · cases h
    · next y l hi =>
      split at h
      · next ht => cases h; exact ⟨[], _, hi, rfl, ht, nofun, fun _ => rfl⟩
      · cases h

theorem nextInput_accepts {s : State} {ctx : Context} {w : CmdWord} {rest : List Input}
    (h : s.nextInput = some (.command ctx w, rest)) : s.accepts ctx w = true := by
  obtain ⟨_, _, -, -, ht, -⟩ := nextInput_some h
  simpa using ht

/-- The input taken and the inputs left are inputs. -/
theorem nextInput_mem {s : State} {x : Input} {rest : List Input}
    (h : s.nextInput = some (x, rest)) : x ∈ s.inputs ∧ ∀ y ∈ rest, y ∈ s.inputs := by
  obtain ⟨pre, post, hi, rfl, -⟩ := nextInput_some h
  rw [hi]
  refine ⟨by simp, fun y hy => ?_⟩
  simp only [List.mem_append, List.mem_cons] at hy ⊢
  exact hy.imp_right .inr

theorem nextInput_nil {s : State} (h : s.inputs = []) : s.nextInput = none := by
  simp [State.nextInput, h, State.firstTaken]

/-- The very next input is taken if it can be. -/
theorem nextInput_head {s : State} {x : Input} {rest : List Input} (h : s.inputs = x :: rest)
    (ht : s.takes [] x = true) : s.nextInput = some (x, rest) := by
  simp [State.nextInput, h, State.firstTaken, ht]

/-- No input is taken if the next one cannot be and the block can move. -/
theorem nextInput_held {s : State} {x : Input} {rest : List Input} (h : s.inputs = x :: rest)
    (ht : s.takes [] x = false) (hw : s.waits = false) : s.nextInput = none := by
  simp [State.nextInput, h, ht, hw]

/-- A command that waits is passed over while the block cannot move. -/
theorem nextInput_behind {s : State} {ctx : Context} {w : CmdWord} {x : Input} {xs : List Input}
    (h : s.inputs = .command ctx w :: x :: xs) (ha : s.accepts ctx w = false)
    (hx : s.takes [ctx] x = true) (hw : s.waits = true) :
    s.nextInput = some (x, .command ctx w :: xs) := by
  simp [State.nextInput, State.firstTaken, h, hw, State.takes, ha, Input.contexts] at hx ⊢
  simp [hx]

theorem nextInput_none {s : State} (h : ∀ x ∈ s.inputs, s.takes [] x = false) :
    s.nextInput = none := by
  unfold State.nextInput
  split
  · exact firstTaken_none h
  · split
    · rfl
    · next x rest hi => simp [h x (by simp [hi])]

/-! ### A step, by the input it takes (R60, R149) -/

theorem step_none {s : State} (h : s.nextInput = none) : step s = s.blockStep := by simp [step, h]

theorem step_some {s : State} {x : Input} {rest : List Input} (h : s.nextInput = some (x, rest)) :
    step s = State.inputTurn x { s with inputs := rest } := by simp [step, h]

theorem step_nil {s : State} (h : s.inputs = []) : step s = s.blockStep := step_none (nextInput_nil h)

theorem step_command {s : State} {ctx : Context} {w : CmdWord} {rest : List Input}
    (h : s.inputs = .command ctx w :: rest) (ha : s.accepts ctx w = true) :
    step s = State.acceptCommand w { s with inputs := rest } :=
  step_some (nextInput_head h (by simpa using ha))

/-- Everything a step can do: a command step, a micro-step, the wait for or the return of `T.set_clock`, or
an input that is no command. -/
inductive Turn (s : State) : State → Prop where
  | command {ctx : Context} {w : CmdWord} {rest : List Input} {i : Instr} {t : State}
      (hi : s.nextInput = some (.command ctx w, rest)) (hd : decode w = .ok i)
      (he : exec i { s with inputs := rest } = .next t) : Turn s t
  | micro {rest : List Input} {t : State}
      (hi : rest = s.inputs ∨ s.nextInput = some (.micro, rest))
      (hc : s.clockCall = none ∨ s.call.isSome = true)
      (h : State.microStep { s with inputs := rest } = .next t) : Turn s t
  | clock {rest : List Input} {eff : Word} {t : State}
      (hi : rest = s.inputs ∨ s.nextInput = some (.micro, rest)) (hn : s.call = none)
      (hc : s.clockCall = some eff)
      (h : State.finishSetspd eff { s with inputs := rest } = .next t) : Turn s t
  | hostWrite {i : Word} {b : Byte} {rest : List Input}
      (hi : s.nextInput = some (.hostWrite i b, rest)) :
      Turn s (State.writeBuf i b { s with inputs := rest })
  | answer {v : Word} {rest : List Input} (hi : s.nextInput = some (.answer v, rest)) :
      Turn s (State.addReply v { s with inputs := rest })
  | strategyResult {r : ExtResult} {rest : List Input}
      (hi : s.nextInput = some (.strategyResult r, rest)) :
      Turn s (State.addExtReply r { s with inputs := rest })
  | reset {rest : List Input} (hi : s.nextInput = some (.reset, rest)) :
      Turn s (State.resetBlock { s with inputs := rest })

/-- The block's own move, with the inputs given, is a turn. -/
theorem turn_of_blockStep {s t : State} {rest : List Input}
    (hi : rest = s.inputs ∨ s.nextInput = some (.micro, rest))
    (h : State.blockStep { s with inputs := rest } = .next t) : Turn s t := by
  by_cases hm : s.clockCall = none ∨ s.call.isSome = true
  · exact .micro hi hm (blockStep_none (s := { s with inputs := rest }) hm ▸ h)
  · simp only [not_or, Bool.not_eq_true, Option.isSome_eq_false_iff, Option.isNone_iff_eq_none] at hm
    obtain ⟨eff, hc⟩ := Option.ne_none_iff_exists'.1 hm.1
    exact .clock hi hm.2 hc (blockStep_some (s := { s with inputs := rest }) hm.2 hc ▸ h)

theorem step_next {s t : State} (h : step s = .next t) : Turn s t := by
  cases hi : s.nextInput with
  | none =>
    rw [step_none hi] at h
    exact turn_of_blockStep (rest := s.inputs) (.inl rfl) h
  | some p =>
    obtain ⟨x, rest⟩ := p
    rw [step_some hi] at h
    cases x with
    | command ctx w =>
      simp only [State.inputTurn, State.acceptCommand] at h
      split at h
      · next hd => exact .command hi hd h
      · cases h
    | micro => exact turn_of_blockStep (.inr hi) h
    | hostWrite i b => cases h; exact .hostWrite hi
    | answer v => cases h; exact .answer hi
    | strategyResult r => cases h; exact .strategyResult hi
    | reset => cases h; exact .reset hi

end Sys2Proof.Machine
end

