-- ==== Sys2Proof/Laws/PerInstr.lean ====
section
/-! SUPPORT. The per-instruction family `RoundTrip`: decoding the word of a command gives the command back,
with every operand at every value (R71 to R73). -/

namespace Sys2Proof.Laws

/-- Decoding the word of `i` gives `i`. -/
def RoundTrip.Statement (i : Instr) : Prop := decode (encode i) = .ok i

theorem RoundTrip.init (d : Slot) (a b : Word) : RoundTrip.Statement (.init d a b) := by
  simp [RoundTrip.Statement, encode, decode]

theorem RoundTrip.setaddr (d : Slot) (a : Word) : RoundTrip.Statement (.setaddr d a) := by
  simp [RoundTrip.Statement, encode, decode, acceptIfZero]

theorem RoundTrip.setrsz (d : Slot) (a : Word) : RoundTrip.Statement (.setrsz d a) := by
  simp [RoundTrip.Statement, encode, decode, acceptIfZero]

theorem RoundTrip.bindw (d : Slot) (a : Word) : RoundTrip.Statement (.bindw d a) := by
  simp [RoundTrip.Statement, encode, decode]

theorem RoundTrip.bindr (d : Slot) (a : Word) : RoundTrip.Statement (.bindr d a) := by
  simp [RoundTrip.Statement, encode, decode]

theorem RoundTrip.setspd (a : Word) : RoundTrip.Statement (.setspd a) := by
  simp [RoundTrip.Statement, encode, decode, acceptIfZero]

theorem RoundTrip.settmo (a : Word) : RoundTrip.Statement (.settmo a) := by
  simp [RoundTrip.Statement, encode, decode, acceptIfZero]

theorem RoundTrip.setrty (a : Word) : RoundTrip.Statement (.setrty a) := by
  simp [RoundTrip.Statement, encode, decode, acceptIfZero]

theorem RoundTrip.isbusy : RoundTrip.Statement .isbusy := by
  simp [RoundTrip.Statement, encode, decode, acceptIfZero]

theorem RoundTrip.write (d : Slot) (a b : Word) : RoundTrip.Statement (.write d a b) := by
  simp [RoundTrip.Statement, encode, decode]

theorem RoundTrip.read (d : Slot) (a b : Word) : RoundTrip.Statement (.read d a b) := by
  simp [RoundTrip.Statement, encode, decode]

end Sys2Proof.Laws
end

