-- ==== Sys2Proof/Tests/Slice0.lean ====
section
/-! SUPPORT. The model's own tests: ill-formed terms that the checks refuse, words written out from the
spec's encoding, single steps whose expected values are those of `95_test_vectors.md` (named in each
docstring), and a witness for every statement that has hypotheses. -/

namespace Sys2Proof.Tests

open Sys2Proof.Machine

/-! ### Helpers -/

/-- The next state of an answer, the reset state for any other answer. -/
def after (r : Result) : State :=
  match r with
  | .next t => t
  | .fault _ => State.reset
  | .refused _ => State.reset

/-- The answer is a next state. -/
def goesOn (r : Result) : Bool :=
  match r with
  | .next _ => true
  | .fault _ => false
  | .refused _ => false

/-- Why the answer is a refusal, if it is one. -/
def refusal (r : Result) : Option Refusal :=
  match r with
  | .next _ => none
  | .fault _ => none
  | .refused why => some why

/-- The start of V42 and V40: slot 0 and slot 1, with the fixture parameters, in the mode and with the
cache given. -/
def twoSlots (size : BitVec 2) (cache : Word) : State :=
  { State.reset with
    desc := (State.reset.desc.set 0 ⟨0x50, size, cache, 0, 0, 1⟩).set 1 ⟨0x51, 1, 0xFFFF, 0, 0, 1⟩ }

/-- A transaction of slot 0 in flight in a phase, with replies pending. -/
def inFlight (p : Phase) (sel reg n : Word) (replies : List Word) : State :=
  { twoSlots 2 0xFFFF with
    bus := { State.reset.bus with busy := true }
    seq := { State.reset.seq with phase := p, sel := sel, reg := reg, n := n, retry := 2 }
    replies := replies }

/-- The same with a call outstanding. -/
def waiting (p : Phase) (sel n : Word) (c : Call) : State :=
  { inFlight p sel 0 n [] with call := some c }

/-! ### WellFormed and the parameters -/

theorem test_init_slot_absent : (Instr.init 4 0x50 2).wellFormed 4 = false := by decide
theorem test_setaddr_slot_absent : (Instr.setaddr 4 0x50).wellFormed 4 = false := by decide
theorem test_setrsz_slot_absent : (Instr.setrsz 4 1).wellFormed 4 = false := by decide
theorem test_bindw_slot_absent : (Instr.bindw 4 1).wellFormed 4 = false := by decide
theorem test_bindr_slot_absent : (Instr.bindr 4 1).wellFormed 4 = false := by decide
/-- V30: `0x8400100001` with `N_DESC` = 4. -/
theorem test_write_slot_absent : (Instr.write 4 0x10 1).wellFormed 4 = false := by decide
theorem test_read_slot_absent : (Instr.read 4 0x10 1).wellFormed 4 = false := by decide
/-- V30, nearest accepted neighbour: `0x8300100001` with `N_DESC` = 4. -/
theorem test_write_last_slot : (Instr.write 3 0x10 1).wellFormed 4 = true := by decide
/-- V30: with `N_DESC` = 4 the word `0x8400100001` is refused when it is accepted. -/
theorem test_step_slot_absent :
    refusal (step { State.reset with
      params := { Params.suggested with nDesc := 4 }, inputs := [.command .main 0x8400100001] }) =
    some (.slotAbsent 4) := by decide

theorem test_params_suggested : Params.suggested.legal = true := by decide
theorem test_params_no_slot : { Params.suggested with nDesc := 0 }.legal = false := by decide
theorem test_params_many_slots : { Params.suggested with nDesc := 17 }.legal = false := by decide
theorem test_params_default_zero :
    { Params.suggested with speedDefaultKhz := 0 }.legal = false := by decide
theorem test_params_max_below_default :
    { Params.suggested with speedMaxKhz := 99 }.legal = false := by decide
theorem test_params_reset_speed_zero :
    { Params.suggested with resetSpeed := 0 }.legal = false := by decide
theorem test_params_reset_speed_above_max :
    { Params.suggested with resetSpeed := 401 }.legal = false := by decide
theorem test_params_reset_retries :
    { Params.suggested with resetRetries := 9 }.legal = false := by decide
theorem test_params_reset_timeout :
    { Params.suggested with resetTimeout := 501 }.legal = false := by decide
theorem test_params_ext_select_default :
    { Params.suggested with extSelects := [1] }.legal = false := by decide

/-! ### Words written out bit by bit: `op`, `d`, `A`, `B` (R71, R73) -/

theorem test_word_init :
    decode (0b0000#4 ++ 0b0010#4 ++ 0b0000000010000000#16 ++ 0b0000000000000001#16) =
      .ok (.init 2 0x80 1) := by decide
theorem test_word_setaddr :
    decode (0b0001#4 ++ 0b0000#4 ++ 0b1111111111111111#16 ++ 0b0000000000000000#16) =
      .ok (.setaddr 0 0xFFFF) := by decide
theorem test_word_setrsz :
    decode (0b0010#4 ++ 0b1000#4 ++ 0b0000000000000011#16 ++ 0b0000000000000000#16) =
      .ok (.setrsz 8 3) := by decide
theorem test_word_bindw :
    decode (0b0011#4 ++ 0b0001#4 ++ 0b0000000000000101#16 ++ 0b0000000000000000#16) =
      .ok (.bindw 1 5) := by decide
theorem test_word_bindr :
    decode (0b0011#4 ++ 0b0000#4 ++ 0b0000000000000010#16 ++ 0b0000000000000001#16) =
      .ok (.bindr 0 2) := by decide
theorem test_word_setspd :
    decode (0b0100#4 ++ 0b0000#4 ++ 0b0000000011111010#16 ++ 0b0000000000000000#16) =
      .ok (.setspd 250) := by decide
theorem test_word_settmo :
    decode (0b0101#4 ++ 0b0000#4 ++ 0b0000001111101000#16 ++ 0b0000000000000000#16) =
      .ok (.settmo 1000) := by decide
theorem test_word_setrty :
    decode (0b0110#4 ++ 0b0000#4 ++ 0b0000000000010100#16 ++ 0b0000000000000000#16) =
      .ok (.setrty 20) := by decide
theorem test_word_isbusy :
    decode (0b0111#4 ++ 0b0000#4 ++ 0b0000000000000000#16 ++ 0b0000000000000000#16) =
      .ok .isbusy := by decide
theorem test_word_write :
    decode (0b1000#4 ++ 0b0000#4 ++ 0b0000000100100011#16 ++ 0b0000000000000011#16) =
      .ok (.write 0 0x0123 3) := by decide
theorem test_word_read :
    decode (0b1001#4 ++ 0b0100#4 ++ 0b0000000000000000#16 ++ 0b0000000000000001#16) =
      .ok (.read 4 0 1) := by decide
/-- V30: reserved opcodes and must-be-zero fields. -/
theorem test_word_illegal :
    decode 0xF123456789 = .error .reservedOpcode ∧ decode 0x2000010100 = .error .reservedField ∧
      decode 0x6000030001 = .error .reservedField ∧ decode 0x5F01F40000 = .error .reservedField ∧
      decode 0x7000000001 = .error .reservedField ∧ decode 0x30FFFFFFFF = .error .bindDirection := by
  decide
theorem test_table_word :
    decodeTableWord 40 0x91003B0006 = some (.read 1 0x3B 6) ∧ decodeTableWord 40 0xA000000000 = none := by
  decide
/-- The host's way in: the very next step runs the word, in the main context's place or not. -/
theorem test_withFetchWord :
    (after (step (State.reset.withFetchWord 40 0x5003E80000))).responses = [500] ∧
      (after (step ((inFlight .wData 0 0 2 [1]).withFetchWord 40 0x7000000000))).responses = [1] := by
  decide

/-! ### Command steps -/

/-- V40: INIT on a slot holding other values. -/
theorem test_init_overwrites :
    (after (exec (.init 0 0x50 2)
      (State.reset.setSlot 0 ⟨0x50, 2, 0x0014, 2, 5, 7⟩))).slot 0 = ⟨0x50, 2, 0xFFFF, 0, 0, 1⟩ := by
  decide
/-- V40: `INIT 3, 0x10, 0xFFFF`. -/
theorem test_init_size_clamps :
    (after (exec (.init 3 0x10 0xFFFF) State.reset)).slot 3 = ⟨0x10, 2, 0xFFFF, 0, 0, 1⟩ ∧
      (after (exec (.init 3 0x10 0xFFFF) State.reset)).responses = [0] := by decide
/-- V40: `SETADDR 0, 0x51` keeps the cache. -/
theorem test_setaddr_keeps_cache :
    (after (exec (.setaddr 0 0x51) (twoSlots 2 0x14))).slot 0 = ⟨0x51, 2, 0x14, 0, 0, 1⟩ := by decide
/-- V40: `SETADDR 0, 0x0150` is tested on all 16 bits. -/
theorem test_setaddr_all_bits :
    (after (exec (.setaddr 0 0x0150) (twoSlots 2 0x14))).slot 0 = ⟨0x50, 2, 0x14, 0, 0, 1⟩ ∧
      (after (exec (.setaddr 0 0x0150) (twoSlots 2 0x14))).responses = [0] := by decide
/-- S2: `SETRSZ 0, 3` fails and makes the mode 16-bit. -/
theorem test_setrsz_three :
    (after (exec (.setrsz 0 3) (twoSlots 1 0x14))).slot 0 = ⟨0x50, 2, 0x14, 0, 0, 1⟩ ∧
      (after (exec (.setrsz 0 3) (twoSlots 1 0x14))).responses = [0] := by decide
/-- S2: `SETRSZ 0, 0`. -/
theorem test_setrsz_zero :
    ((after (exec (.setrsz 0 0) (twoSlots 1 0x14))).slot 0).registerSize = 0 ∧
      (after (exec (.setrsz 0 0) (twoSlots 1 0x14))).responses = [1] := by decide
/-- V40: `BINDW 0, DEFR`. -/
theorem test_bindw :
    (after (exec (.bindw 0 1) (twoSlots 1 0xFFFF))).slot 0 = ⟨0x50, 1, 0xFFFF, 0, 1, 1⟩ := by decide
/-- V40: `BINDR 0, 0xFFFF`. -/
theorem test_bindr :
    (after (exec (.bindr 0 0xFFFF) (twoSlots 1 0xFFFF))).slot 0 =
      ⟨0x50, 1, 0xFFFF, 0, 0, 0xFFFF⟩ := by decide
/-- V41: `SETSPD 0` and `SETSPD 401`, the transport's clock set at once. -/
theorem test_setspd :
    (after (exec (.setspd 0) { State.reset with replies := [0] })).responses = [100] ∧
      (after (exec (.setspd 0) { State.reset with replies := [0] })).trace = [.clk 100000] ∧
      (after (exec (.setspd 401) { State.reset with replies := [0] })).bus.speed = 400 ∧
      (after (exec (.setspd 401) { State.reset with replies := [0] })).trace = [.clk 400000] := by
  decide
/-- R52, R120: the speed is stored and no response given while `T.set_clock` has not returned. -/
theorem test_setspd_waits :
    (after (exec (.setspd 401) State.reset)).bus.speed = 400 ∧
      (after (exec (.setspd 401) State.reset)).responses = [] := by decide
/-- S6: `SETTMO 1000`. -/
theorem test_settmo :
    (after (exec (.settmo 1000) State.reset)).bus.timeout = 500 ∧
      (after (exec (.settmo 1000) State.reset)).responses = [500] := by decide
/-- S6: `SETRTY 20`. -/
theorem test_setrty :
    (after (exec (.setrty 20) State.reset)).bus.retries = 8 ∧
      (after (exec (.setrty 20) State.reset)).responses = [8] := by decide
/-- V41: ISBUSY after reset, and between two micro-steps of a transaction. -/
theorem test_isbusy :
    (after (exec .isbusy State.reset)).responses = [0] ∧
      (after (exec .isbusy (inFlight .wData 0 0 2 []))).responses = [1] := by decide
/-- S5: a WRITE while busy is rejected and the transport not called. -/
theorem test_write_busy :
    ((after (exec (.write 1 0x10 1) (inFlight .wData 0 0x20 2 []))).slot 1).status = 1 ∧
      (after (exec (.write 1 0x10 1) (inFlight .wData 0 0x20 2 []))).responses = [1] := by decide
/-- P2, admission of line 3: the sequencer registers. -/
theorem test_read_admitted :
    (after (exec (.read 1 0x3B 6)
      { twoSlots 1 0xFFFF with bus := { State.reset.bus with retries := 2 } })).seq =
      ⟨.attStart, 1, .read, 1, 0x3B, 6, 2, 0, false⟩ := by decide

/-! ### Micro-steps -/

/-- V44: the first step of `WRITE 0, 0x0123, 3` in 16-bit mode. -/
theorem test_wBegin :
    (after (State.microStep (inFlight .wBegin 0 0x0123 3 [0]))).seq.phase = .wAhi ∧
      ((after (State.microStep (inFlight .wBegin 0 0x0123 3 [0]))).slot 0).cache = 0x0123 := by decide
/-- V44: the high address byte goes first. -/
theorem test_wAhi :
    (after (State.microStep (inFlight .wAhi 0 0x0123 3 [0]))).trace = [.wb 0x01 false] ∧
      (after (State.microStep (inFlight .wAhi 0 0x0123 3 [0]))).seq.phase = .attFail := by decide
/-- S4: a close with status 2 is a failure. -/
theorem test_wEnd_fails :
    (after (State.microStep (inFlight .wEnd 0 0x10 1 [2]))).seq.phase = .attFail ∧
      (after (State.microStep (inFlight .wEnd 0 0x10 1 [2]))).trace = [.close true 2] := by decide
/-- P4: the last-register hazard in `R_START`. -/
theorem test_rStart_hazard :
    (after (State.microStep (inFlight .rStart 1 0xFFFF 1 []))).seq.phase = .rReq := by decide
/-- V45: a short count is accepted. -/
theorem test_rReq_short :
    (after (State.microStep (inFlight .rReq 1 0x3B 2 [1]))).seq.phase = .rDrain ∧
      (after (State.microStep (inFlight .rReq 1 0x3B 2 [1]))).trace = [.req 0x50 2 1] := by decide
/-- V45: one byte received, with the reply's low eight bits. -/
theorem test_rDrain :
    (after (State.microStep (inFlight .rDrain 1 0x3B 2 [0x11]))).buf = [(0, 0x11)] ∧
      ((after (State.microStep (inFlight .rDrain 1 0x3B 2 [0x11]))).slot 0).cache = 0x0000 := by decide
/-- A change of `BUF[0]` while `T.write` is outstanding is not the byte that is sent (`notes/assumptions/17.md`). -/
theorem test_wData_outstanding :
    (after (State.microStep { waiting .wData 0 2 (.write 0x12) with
      buf := [(0, 0x34)], replies := [1] })).trace = [.wb 0x12 true] := by decide
/-- R149, R148: a nested `INIT 0, 0x51, 0` takes effect in a hang in `R_START` and does not end it; the cache
set before `T.begin` does not change the decision that was taken. -/
theorem test_rStart_hangs :
    let t := after (step { waiting .rStart 1 1 (.begin 0x50 .high) with
      inputs := [.command .reentrant 0x0000510000] })
    t.responses = [0] ∧ (t.slot 0).address = 0x51 ∧ t.blocked = true ∧
      (after (State.microStep { t with replies := [0] })).seq.phase = .rAhi := by decide

/-- R149: an `INIT 0, 0x51, 0` that meets the `T.begin` of `W_BEGIN` executes after that micro-step. -/
theorem test_init_after_wBegin :
    let t := after (Sys2Proof.core.run 2 { waiting .wBegin 0 1 (.begin 0x50 .high) with
      inputs := [.command .reentrant 0x0000510000], replies := [0] })
    t.trace = [.begin 0x50] ∧ t.seq.phase = .wAhi ∧ (t.slot 0).address = 0x51 ∧
      (t.slot 0).cache = 0xFFFF := by decide
/-- R148: a nested `WRITE 0` in the same hang is rejected BUSY at once. -/
theorem test_hang_rejects :
    (after (step { waiting .rStart 1 1 (.begin 0x50 .high) with
      inputs := [.command .reentrant 0x8000000001] })).responses = [1] ∧
      ((after (step { waiting .rStart 1 1 (.begin 0x50 .high) with
        inputs := [.command .reentrant 0x8000000001] })).slot 0).status = 1 := by decide
/-- R149 (b), (d), (f): in a hang ISBUSY answers 1, and SETRTY and SETTMO take effect at once. -/
theorem test_hang_answers :
    let t := after (Sys2Proof.core.run 3 { waiting .wBegin 0 1 (.begin 0x50 .high) with
      inputs := [.command .reentrant 0x7000000000, .command .reentrant 0x6000010000,
        .command .reentrant 0x5000070000] })
    t.responses = [1, 1, 7] ∧ t.bus.retries = 1 ∧ t.bus.timeout = 7 ∧ t.blocked = true := by decide
/-- R149 (c): an INIT of the slot that `W_DATA` writes, taken while its byte is outstanding, comes before that
micro-step, which then advances the new cache 0xFFFF. -/
theorem test_init_before_wData :
    let t := after (Sys2Proof.core.run 2 { waiting .wData 0 2 (.write 1) with
      inputs := [.command .reentrant 0x0000510000], replies := [1] })
    t.responses = [0] ∧ (t.slot 0).cache = 0 ∧ t.seq.i = 1 := by decide
/-- R52, R149, R260: a SETSPD that waits in front of a hang keeps back neither the answer that ends it nor a
reset, and then runs. -/
theorem test_hang_ends :
    (after (Sys2Proof.core.run 3 { waiting .wEnd 0 1 (.close true) with
      inputs := [.command .reentrant 0x4000FA0000, .answer 0] })).bus.speed = 250 ∧
      (after (Sys2Proof.core.run 2 { waiting .wEnd 0 1 (.close true) with
        inputs := [.command .reentrant 0x4000FA0000, .reset] })).bus.speed = 250 := by decide
/-- R243, R149: a command of the main context that waits for its transaction does not keep the re-entrant
context back in a hang. -/
theorem test_hang_main_waits :
    let t := after (step { waiting .wEnd 0 1 (.close true) with
      inputs := [.command .main 0x8000000001, .command .reentrant 0x7000000000] })
    t.responses = [1] ∧ t.inputs = [.command .main 0x8000000001] := by decide

/-- R211: the cache is set before `T.begin`, which then waits. -/
theorem test_rStart_calls :
    ((after (State.microStep (inFlight .rStart 1 0x123 1 []))).slot 0).cache = 0x123 ∧
      (after (State.microStep (inFlight .rStart 1 0x123 1 []))).call = some (.begin 0x50 .high) := by
  decide
/-- R52, R149 (e): a nested SETSPD comes after the sequencer's call, and `T.set_clock` with it. -/
theorem test_setspd_nested :
    (after (exec (.setspd 250) { waiting .wEnd 0 1 (.close true) with replies := [0, 0] })).trace = [] ∧
      (after (Sys2Proof.core.run 3 { waiting .wEnd 0 1 (.close true) with
        inputs := [.command .reentrant 0x4000FA0000], replies := [0, 0] })).trace =
        [.close true 0, .clk 250000] := by decide
/-- V42 (f): an external strategy with no relation is refused. -/
theorem test_ext_absent :
    refusal (State.microStep (inFlight .ext 9 0 1 [])) = some (.externalStrategyAbsent 9) := by decide
/-- S4: a retry is a delay of `RETRY_DELAY_MS`. -/
theorem test_retry :
    (after (State.microStep (inFlight .attFail 0 0x10 1 [0]))).trace = [.delay 1] ∧
      (after (State.microStep (inFlight .attFail 0 0x10 1 [0]))).seq.retry = 1 := by decide
/-- V42 (a): release without success is NACK, and the lock is given back. -/
theorem test_release_nack :
    (after (State.microStep (inFlight .release 0 0x10 0 []))).responses = [2] ∧
      (after (State.microStep (inFlight .release 0 0x10 0 []))).bus.busy = false := by decide

/-! ### Witnesses: a concrete state and operands that meet the hypotheses of each statement -/

theorem witness_EncodeOfDecodedWordIsTheWord : decode 0x8FFFFFFFFF = .ok (.write 15 0xFFFF 65535) := by
  decide

theorem witness_DecoderAcceptsTheTablesWords :
    decode 0x3000010001 = .ok (.bindr 0 1) ∧
      (opcodeTable.any fun r => r.covers 0x3000010001) = true ∧
      (opcodeTable.any fun r => r.covers 0xA000000000) = false := by decide

/-- The input taken is no other one. -/
theorem nextInput_ne {s : State} {x y : Input} {rest : List Input}
    (h : s.nextInput = some (x, rest)) (hy : x ≠ y) :
    ∀ rest', s.nextInput ≠ some (y, rest') := by
  simp [h, hy]

/-- A state whose next input is the word, from either context. -/
def presented (ctx : Context) (w : CmdWord) : State :=
  { State.reset with params := { Params.suggested with nDesc := 4 }, inputs := [.command ctx w] }

/-- Each condition of the statement at the first value that it refuses, beside the last that it does not. -/
theorem witness_IllegalWordsAreRefused :
    (presented .main 0xA000000000).inputs = .command .main 0xA000000000 :: [] ∧
      (presented .main 0xA000000000).clockCall = none ∧
      (presented .main 0xA000000000).seq.phase = .idle ∧
      ([0xA000000000, 0x3000000002, 0x1000000001, 0x2000000001] ++
        [0x4100000000, 0x4000000001, 0x5100000000, 0x6000000001, 0x7100000000, 0x7000010000] ++
        [0x7000000001, 0x0400000000, 0x3400000000, 0x8400000000, 0x9400000000]).all
        (fun w => (refusal (step (presented .main w))).isSome &&
          (refusal (step (presented .reentrant w))).isSome) = true ∧
      ([0x9300000000, 0x3000000001, 0x1000000000, 0x2000000000] ++
        [0x4000000000, 0x5000000000, 0x6000000000, 0x7000000000] ++
        [0x0300000000, 0x3300000000, 0x8300000000]).all
        (fun w => goesOn (step (presented .main w)) && goesOn (step (presented .reentrant w))) =
        true := by decide

/-- All the premises together, the clause on a call that is outstanding among them: a nested illegal word in a
hang. -/
theorem witness_IllegalWordsAreRefused_hang :
    let s : State := { waiting .wEnd 0 1 (.close true) with inputs := [.command .reentrant 0xA000000000] }
    s.inputs = .command .reentrant 0xA000000000 :: [] ∧ s.clockCall = none ∧
      (Context.reentrant = .main → s.seq.phase = .idle) ∧ s.callFits ∧
      (refusal (step s)).isSome = true := by
  refine ⟨rfl, rfl, nofun, ?_, by decide⟩
  rintro c h
  cases h
  exact rfl

theorem witness_StepRunsTheDecodedCommand :
    decode 0x7000000000 = .ok .isbusy ∧ (presented .main 0x7000000000).clockCall = none ∧
      (presented .reentrant 0x7000000000).inputs = .command .reentrant 0x7000000000 :: [] ∧
      (presented .main 0x7000000000).inputs = .command .main 0x7000000000 :: [] ∧
      (presented .main 0x7000000000).seq.phase = .idle ∧
      (presented .main 0x7000000000).call = none ∧
      ({ inFlight .wEnd 0 0 1 [0] with inputs := [.command .main 0x7000000000] } : State).seq.phase ≠
        .idle := by decide

/-- While a call is outstanding: an INIT of the slot and an ISBUSY, which run, and a SETSPD and an INIT of the
slot in `W_BEGIN`, which wait, in front of a hang and in front of a reply; what is behind is taken in the
hang. -/
theorem witness_StepRunsTheDecodedCommand_call :
    let s (p : Phase) (c : Call) (w : CmdWord) : State :=
      { waiting p 0 1 c with inputs := [.command .reentrant w, .answer 5] }
    decode 0x0000500002 = .ok (.init 0 0x50 2) ∧ decode 0x4000FA0000 = .ok (.setspd 250) ∧
      (Instr.init 0 0x50 2).wellFormed (waiting .wEnd 0 1 (.close true)).params.nDesc = true ∧
      (Instr.setspd 250).wellFormed (waiting .wEnd 0 1 (.close true)).params.nDesc = true ∧
      (s .wEnd (.close true) 0).clockCall = none ∧ (s .wEnd (.close true) 0).call = some (.close true) ∧
      [s .wEnd (.close true) 0x0000500002, s .wBegin (.begin 5 .skip) 0x0000500002,
        s .wEnd (.close true) 0x7000000000].all (fun t =>
          t.nextInput.map Prod.fst == t.inputs.head?) = true ∧
      [s .wEnd (.close true) 0x4000FA0000, s .wBegin (.begin 5 .low) 0x0000500002].all (fun t =>
        t.waits && t.nextInput.map Prod.fst == some (.answer 5) &&
          !({ t with replies := [1] } : State).waits) = true ∧
      ({ waiting .wEnd 0 1 (.close true) with
        inputs := [.command .main 0x7000000000, .command .reentrant 0x7000000000] } : State).nextInput =
        some (.command .reentrant 0x7000000000, [.command .main 0x7000000000]) := by decide

theorem witness_StepWithoutACommand :
    (waiting .wData 0 2 (.write 1)).call ≠ none ∧
      State.reset.inputs = [] ∧ State.reset.nextInput = none ∧
      ({ State.reset with inputs := [.micro] } : State).nextInput = some (.micro, []) ∧
      State.reset.clockCall = none ∧
      ({ State.reset with inputs := [.hostWrite 65535 7] } : State).nextInput =
        some (.hostWrite 65535 7, []) ∧
      ({ State.reset with inputs := [.answer 3] } : State).nextInput = some (.answer 3, []) ∧
      ({ State.reset with inputs := [.strategyResult ⟨.reset, [], [], true⟩] } : State).nextInput =
        some (.strategyResult ⟨.reset, [], [], true⟩, []) := by decide

/-- The slot exists, and the operand falls on either side of each boundary: `InitStoresTheSlot`,
`SetaddrSetsTheAddress`, `SetrszSetsTheMode`, `BindStoresTheSelect`, `BooleanFailuresOfTheSetters`. -/
theorem witness_descriptor_commands :
    (15 : Slot).toNat < State.reset.params.nDesc ∧ (0x7F : Word) ≤ 0x7F ∧ (0x7F : Word) < 0x80 ∧
      (2 : Word) ≤ 2 ∧ (2 : Word) < 3 := by decide

theorem witness_DescriptorCommandsInCommon :
    [Instr.init 15 1 1, .setaddr 15 1, .setrsz 15 1, .bindw 15 1, .bindr 15 1].all (fun i =>
      i.slot? == some 15 && i.isTransaction == false &&
        decide ((15 : Slot).toNat < State.reset.params.nDesc) && goesOn (exec i State.reset)) =
      true := by decide

theorem witness_BusCommandsInCommon :
    [Instr.setspd 1, .settmo 1, .setrty 1, .isbusy].all (fun i =>
      i.slot? == none && goesOn (exec i State.reset)) = true := by decide

/-- Each branch of the effective speed at its boundary, with a reply pending and with none. -/
theorem witness_SetspdSetsTheSpeed :
    ({ State.reset with replies := [7] } : State).replies = 7 :: [] ∧ State.reset.call = none ∧
      State.reset.replies = [] ∧ (waiting .wData 0 2 (.write 1)).call ≠ none ∧
    (400 : Word) = (if (400 : Word) = 0 then State.reset.params.speedDefaultKhz
        else if State.reset.params.speedMaxKhz < 400 then State.reset.params.speedMaxKhz else 400) ∧
      (400 : Word) = (if (401 : Word) = 0 then State.reset.params.speedDefaultKhz
        else if State.reset.params.speedMaxKhz < 401 then State.reset.params.speedMaxKhz else 401) ∧
      (100 : Word) = (if (0 : Word) = 0 then State.reset.params.speedDefaultKhz
        else if State.reset.params.speedMaxKhz < 0 then State.reset.params.speedMaxKhz else 0) := by
  decide

theorem witness_IsbusyAnswersTheFlag : State.reset.busyIffInFlight := by
  unfold State.busyIffInFlight
  decide

theorem witness_AdmissionTakesTheLock :
    (0 : Slot).toNat < State.reset.params.nDesc ∧ State.reset.bus.busy = false := by decide

/-- A rejection, as a command step and as a step that gives a slot the status BUSY. -/
theorem witness_BusyOnlyByRejectedAdmission :
    (1 : Slot).toNat < (inFlight .wData 0 0 2 []).params.nDesc ∧
      (inFlight .wData 0 0 2 []).bus.busy = true ∧
      goesOn (step { inFlight .wData 0 0 2 [] with inputs := [.command .reentrant 0x9100000001] }) =
        true ∧
      (inFlight .wData 0 0 2 []).seq.phase ≠ .ext ∧
      (∀ rest, ({ inFlight .wData 0 0 2 [] with
        inputs := [.command .reentrant 0x9100000001] } : State).nextInput ≠ some (.reset, rest)) ∧
      ((inFlight .wData 0 0 2 []).slot 1).status ≠ 1 ∧
      ((after (step { inFlight .wData 0 0 2 [] with
        inputs := [.command .reentrant 0x9100000001] })).slot 1).status = 1 :=
  ⟨by decide, by decide, by decide, by decide,
    nextInput_ne (x := .command .reentrant 0x9100000001) (rest := []) (by decide) nofun, by decide,
    by decide⟩

theorem witness_AdmissionFrame :
    (Instr.write 1 2 3).slot? = some 1 ∧ (Instr.write 1 2 3).isTransaction = true ∧
      (Instr.read 1 2 3).slot? = some 1 ∧ (Instr.read 1 2 3).isTransaction = true ∧
      goesOn (exec (.write 1 2 3) State.reset) = true ∧ State.reset.bus.busy = false ∧
      goesOn (exec (.read 1 2 3) (inFlight .wData 0 0 2 [])) = true ∧
      (inFlight .wData 0 0 2 []).bus.busy = true := by decide

theorem witness_CommandsLeaveTheTransactionAlone :
    (inFlight .wData 0 0 2 []).bus.busy = true ∧
      goesOn (exec (.write 0 1 1) (inFlight .wData 0 0 2 [])) = true ∧
      (Instr.write 0 1 1).isTransaction = true ∧
      goesOn (exec (.setspd 1) (inFlight .wData 0 0 2 [])) = true ∧
      goesOn (exec (.setspd 1) (waiting .wData 0 2 (.write 1))) = true := by decide

/-- Clause (2): a rejection and a SETADDR of the slot in use while its byte waits, and is then taken; and an INIT
of it where the micro-step writes no cache. -/
theorem witness_CommandsLeaveTheTransactionAlone_call :
    ({ waiting .wData 0 2 (.write 1) with replies := [1] } : State).callFits ∧
      ({ waiting .wData 0 2 (.write 1) with replies := [1] } : State).bus.busy = true ∧
      ({ waiting .wData 0 2 (.write 1) with replies := [1] } : State).call = some (.write 1) ∧
      goesOn (exec (.write 0 1 1) { waiting .wData 0 2 (.write 1) with replies := [1] }) = true ∧
      goesOn (exec (.setaddr 0 1) { waiting .wData 0 2 (.write 1) with replies := [1] }) = true ∧
      goesOn (State.microStep { waiting .wData 0 2 (.write 1) with replies := [1] }) = true ∧
      goesOn (exec (.init 0 1 1) (waiting .rStart 1 2 (.begin 5 .low))) = true ∧
      goesOn (State.microStep (waiting .rStart 1 2 (.begin 5 .low))) = true := by
  refine ⟨?_, by decide⟩
  rintro c h
  cases h
  exact .inr (.inr (.inl rfl))

/-- Clause (3): an INIT of the slot in use, in both phases. -/
theorem witness_CommandsLeaveTheTransactionAlone_before :
    [inFlight .wData 0 0 2 [], inFlight .rDrain 1 0 2 []].all (fun s =>
      s.bus.busy && s.call == none && s.replies == [] && goesOn s.microStep &&
        goesOn (exec (.init 0 1 1) (after s.microStep))) = true := by decide

theorem witness_OneResponseForEachCommand :
    (Instr.write 15 1 1).wellFormed State.reset.params.nDesc = true ∧ State.reset.bus.busy = false ∧
      (Instr.setspd 1).wellFormed State.reset.params.nDesc = true ∧ State.reset.replies = [] ∧
      (waiting .wData 0 2 (.write 1)).call ≠ none ∧
      Instr.isbusy.wellFormed State.reset.params.nDesc = true ∧
      goesOn (State.microStep (inFlight .release 0 0 1 [])) = true ∧
      goesOn (State.microStep (inFlight .wEnd 0 0 1 [0])) = true := by decide

theorem witness_AttStartDispatches :
    (inFlight .attStart 0 0 1 []).seq.phase = .attStart ∧
      (inFlight .attStart 1 0 1 []).seq.phase = .attStart ∧
      (inFlight .attStart 2 0 1 []).seq.phase = .attStart := by decide

/-- A zero count, addressing needed, and addressing not needed, for `W_BEGIN` and `R_START` alike. -/
theorem witness_WBeginOpensAndDecides_and_RStartDecides :
    (inFlight .wBegin 0 0xFFFE 1 [0]).call = none ∧ (inFlight .rStart 1 0xFFFE 1 [0]).call = none ∧
      (inFlight .wBegin 0 0 0 []).seq.n = 0 ∧ (inFlight .rStart 1 0 0 []).seq.n = 0 ∧
      (inFlight .wBegin 0 0xFFFE 1 [0]).seq.n ≠ 0 ∧
      (inFlight .wBegin 0 0xFFFE 1 [0]).replies = 0 :: [] ∧
      (inFlight .rStart 1 0xFFFE 1 [0]).replies = 0 :: [] ∧
      (((inFlight .wBegin 0 0xFFFE 1 [0]).slot 0).registerSize ≠ 0 ∧
        (inFlight .wBegin 0 0xFFFE 1 [0]).seq.reg ≠ ((inFlight .wBegin 0 0xFFFE 1 [0]).slot 0).cache) ∧
      ¬ (((inFlight .wBegin 0 0xFFFF 1 [0]).slot 0).registerSize ≠ 0 ∧
        (inFlight .wBegin 0 0xFFFF 1 [0]).seq.reg ≠
          ((inFlight .wBegin 0 0xFFFF 1 [0]).slot 0).cache) := by decide

/-- The statements about one transport call (`WriteAddressBytes`, `WDataSendsOneByte`, `WEndCloses`,
`ReadAddressBytesAndClose`, `RReqRequests`, `RDrainTakesOneByte`): in each phase a reply that is zero and one
that is not, for the last byte and for one that is not the last. -/
theorem witness_calls :
    [Phase.wAhi, .wAlo, .wData, .wEnd, .rAhi, .rAlo, .rEnd, .rReq, .rDrain].all (fun p =>
      [(1 : Word), 2].all fun n =>
        (inFlight p 0 0 n [0]).seq.phase == p && (inFlight p 0 0 n [0]).call == none &&
          (inFlight p 0 0 n [0]).replies == [0] &&
          (inFlight p 0 0 n [1]).replies == [1] && Memory.wf (inFlight p 0 0 n [1]).buf) = true := by
  decide

/-- An external strategy of the block: select 9. -/
def withExt (r : ExtResult) : State :=
  { inFlight .ext 9 0 1 [] with
    params := { Params.suggested with extSelects := [9] }, extReplies := [r] }

theorem witness_ExternalStrategyRunsOrIsRefused :
    (inFlight .ext 9 0 1 []).seq.phase = .ext ∧
      (inFlight .ext 9 0 1 []).seq.sel ∉ (inFlight .ext 9 0 1 []).params.extSelects ∧
      (withExt ⟨⟨0x50, 1, 7, 0, 0, 9⟩, [(0, 5)], [.begin 0x50], true⟩).seq.sel ∈
        (withExt ⟨⟨0x50, 1, 7, 0, 0, 9⟩, [(0, 5)], [.begin 0x50], true⟩).params.extSelects := by decide

theorem witness_AttFailRetriesOrGivesUp :
    (inFlight .attFail 0 0 1 [0]).seq.phase = .attFail ∧ (inFlight .attFail 0 0 1 [0]).seq.retry ≠ 0 ∧
      (inFlight .attFail 0 0 1 [0]).call = none ∧
      (inFlight .attFail 0 0 1 [0]).replies = 0 :: [] ∧
      ((inFlight .attFail 0 0 1 []).setRetry 0).seq.retry = 0 := by decide

theorem witness_ReleaseEndsTheTransaction : (inFlight .release 0 0 1 []).seq.phase = .release := by decide

theorem witness_AddressingDecision :
    [inFlight .wBegin 0 0xFFFF 1 [0], inFlight .wBegin 0 0xFFFE 1 [0], inFlight .rStart 1 0xFFFF 1 [0],
      inFlight .rStart 1 0xFFFE 1 [0]].all (fun s =>
        s.seq.n != 0 && s.call == none && s.replies == [0] && goesOn s.microStep) = true ∧
      [Addressing.high, .low, .skip].all (fun next =>
        goesOn (State.microStep { waiting .wBegin 0 1 (.begin 5 next) with replies := [0] }) &&
          goesOn (State.microStep { waiting .rStart 1 1 (.begin 5 next) with replies := [0] })) =
        true := by decide

/-- The statements about every micro-step (`MicroStepFollowsThePhaseTable`, `AtMostOneCallInAMicroStep`,
`DelaysCountTheRetries`): one that moves, one that makes its call, one that waits, one whose call returns, and
an idle sequencer, none of them in `EXT`. -/
theorem witness_microSteps :
    goesOn (State.microStep (inFlight .wData 0 0 2 [1])) = true ∧
      (inFlight .wData 0 0 2 [1]).seq.phase ≠ .ext ∧
      goesOn (State.microStep (inFlight .wData 0 0 2 [])) = true ∧
      (inFlight .wData 0 0 2 []).call = none ∧ (inFlight .wData 0 0 2 []).replies = [] ∧
      (after (State.microStep (inFlight .wData 0 0 2 []))).call ≠ none ∧
      goesOn (State.microStep (waiting .wData 0 2 (.write 1))) = true ∧
      (waiting .wData 0 2 (.write 1)).blocked = true ∧
      goesOn (State.microStep { waiting .wData 0 2 (.write 1) with replies := [1] }) = true ∧
      goesOn (State.microStep State.reset) = true := by decide

/-- An outstanding call of its phase, with a reply, in a phase with no addressing decision. -/
theorem witness_outstanding :
    ({ waiting .attFail 0 1 (.delay 1) with replies := [4] } : State).callFits ∧
      (waiting .attFail 0 1 (.delay 1)).seq.phase ≠ .wBegin ∧
      (waiting .attFail 0 1 (.delay 1)).seq.phase ≠ .rStart ∧
      goesOn (State.microStep { waiting .attFail 0 1 (.delay 1) with replies := [4] }) = true := by
  refine ⟨?_, by decide⟩
  rintro c h
  cases h
  exact ⟨rfl, by decide⟩

theorem witness_TransactionEndsWithinItsBound :
    (inFlight .attStart 0 0 1 (List.replicate 30 0)).call = none ∧
      (inFlight .attStart 0 0 1 (List.replicate 30 0)).seq.legal Params.suggested ∧
      (inFlight .attStart 0 0 1 (List.replicate 30 0)).seq.phase ≠ .idle ∧
      (inFlight .attStart 0 0 1 (List.replicate 30 0)).seq.sel < 2 ∧
      (inFlight .attStart 0 0 1 (List.replicate 30 0)).seq.microStepsLeft ≤
        (inFlight .attStart 0 0 1 (List.replicate 30 0)).replies.length := by
  unfold Sequencer.legal
  decide

theorem witness_StepKeepsBusyIffInFlight :
    (inFlight .wData 0 0 2 [1]).busyIffInFlight ∧ goesOn (step (inFlight .wData 0 0 2 [1])) = true := by
  unfold State.busyIffInFlight
  decide

/-- A transaction in flight, its call outstanding and answered, has the invariant and steps. -/
theorem witness_StepKeepsTheInvariant :
    ({ waiting .wData 0 2 (.write 7) with replies := [1] } : State).Inv ∧
      goesOn (step { waiting .wData 0 2 (.write 7) with replies := [1] }) = true := by
  refine ⟨⟨by decide, ?_, ?_, ?_, ?_, ?_, .inr rfl, nofun, by decide, nofun, nofun⟩, by decide⟩
  · unfold BusState.legal; decide
  · unfold SlaveDescriptor.legal; decide
  · unfold State.busyIffInFlight; decide
  · unfold Sequencer.legal; decide
  · rintro c h
    cases h
    exact .inr (.inr (.inl rfl))

theorem witness_CacheFollowsItsTransitionTable :
    goesOn (State.microStep (inFlight .wBegin 0 5 2 [1])) = true ∧
      (inFlight .wBegin 0 5 2 [1]).seq.phase ≠ .ext ∧
      goesOn (exec (.init 0 0x50 2) State.reset) = true := by decide

/-- Both ways a byte of `BUF` changes that are the block's and the host's. -/
theorem witness_BufChangesOnlyByDrainAndHost :
    Memory.wf (inFlight .rDrain 1 0 2 [7]).buf = true ∧
      goesOn (step (inFlight .rDrain 1 0 2 [7])) = true ∧
      Memory.read (after (step (inFlight .rDrain 1 0 2 [7]))).buf 0 ≠
        Memory.read (inFlight .rDrain 1 0 2 [7]).buf 0 ∧
      Memory.read (after (step { State.reset with inputs := [.hostWrite 65535 7] })).buf 65535 ≠
        Memory.read State.reset.buf 65535 := by decide

/-- Each of the three fields does change, in a step that is no reset. -/
theorem witness_ConfigurationChangesOnlyByItsSetters :
    (∀ rest, (presented .main 0x4000010000).nextInput ≠ some (.reset, rest)) ∧
      (after (step (presented .main 0x4000010000))).bus.speed ≠ State.reset.bus.speed ∧
      (after (step (presented .main 0x5000010000))).bus.timeout ≠ State.reset.bus.timeout ∧
      (after (step (presented .main 0x6000010000))).bus.retries ≠ State.reset.bus.retries :=
  ⟨nextInput_ne (x := .command .main 0x4000010000) (rest := []) (by decide) nofun, by decide⟩

theorem witness_BusyChangesOnlyAtAdmissionAndRelease :
    (presented .main 0x8000000001).bus.busy = false ∧
      (after (step (presented .main 0x8000000001))).bus.busy = true ∧
      (inFlight .release 0 0 1 []).bus.busy = true ∧
      (after (step (inFlight .release 0 0 1 []))).bus.busy = false := by decide

/-- Clauses (1) and (2): a call that is made, a transaction that waits and a SETSPD that waits. -/
theorem witness_UnansweredCallHangs_waits :
    goesOn (State.microStep (inFlight .rStart 1 0 2 [])) = true ∧
      (inFlight .rStart 1 0 2 []).call = none ∧
      (after (State.microStep (inFlight .rStart 1 0 2 []))).call ≠ none ∧
      (waiting .wData 0 2 (.write 1)).waits = true ∧ (waiting .wData 0 2 (.write 1)).inputs = [] ∧
      ({ State.reset with clockCall := some 1 } : State).waits = true ∧
      ({ waiting .wData 0 2 (.write 1) with inputs := [.command .main 0x7000000000] } : State).waits =
        true ∧
      ∀ x ∈ ({ waiting .wData 0 2 (.write 1) with
        inputs := [.command .main 0x7000000000] } : State).inputs, ∃ w, x = .command .main w :=
  ⟨by decide, by decide, by decide, by decide, by decide, by decide, by decide, by simp⟩

/-- Clause (3): every kind of command, those on the slot of a read in `R_START` among them. -/
theorem witness_UnansweredCallHangs_command :
    [Instr.init 0 0 1, .setaddr 0 1, .setrsz 0 0, .bindw 0 1, .bindr 0 1, .setspd 1, .settmo 1,
      .setrty 1, .isbusy, .write 0 0 1, .read 15 0 1].all (fun i =>
        let s := waiting .rStart 1 2 (.begin 5 .high)
        s.blocked && s.bus.busy && i.wellFormed s.params.nDesc && goesOn (exec i s)) = true := by
  decide

/-- Clause (4): a hang in `R_START` in which a nested `SETRSZ 0, 0` is taken. -/
theorem witness_UnansweredCallHangs_step :
    let s : State := { waiting .rStart 1 2 (.begin 5 .high) with
      inputs := [.command .reentrant 0x2000000000] }
    s.blocked = true ∧ s.bus.busy = true ∧ goesOn (step s) = true ∧
      s.nextInput = some (.command .reentrant 0x2000000000, []) ∧
      (∀ rest, s.nextInput ≠ some (.reset, rest)) ∧ (∀ v rest, s.nextInput ≠ some (.answer v, rest)) ∧
      ∀ r rest, s.nextInput ≠ some (.strategyResult r, rest) := by
  have h : State.nextInput { waiting .rStart 1 2 (.begin 5 .high) with
    inputs := [.command .reentrant 0x2000000000] } = some (.command .reentrant 0x2000000000, []) := by decide
  exact ⟨by decide, by decide, by decide, h, nextInput_ne h nofun, fun _ => nextInput_ne h nofun,
    fun _ => nextInput_ne h nofun⟩

theorem witness_TimeoutChangesNoBehaviour :
    goesOn (step (presented .main 0x4000010000)) = true ∧
      (∀ rest, (presented .main 0x4000010000).nextInput ≠ some (.reset, rest)) ∧
      (∀ ctx w rest a, (presented .main 0x4000010000).nextInput = some (.command ctx w, rest) →
        decode w ≠ .ok (.settmo a)) := by
  have h : (presented .main 0x4000010000).nextInput = some (.command .main 0x4000010000, []) := by decide
  refine ⟨by decide, nextInput_ne h nofun, ?_⟩
  intro ctx w rest a hi
  cases Option.some.inj (h.symm.trans hi)
  exact nofun

/-- A WRITE of two bytes in 16-bit mode, to be accepted whole. -/
def writeStart : State :=
  { twoSlots 2 0xFFFF with
    inputs := [.command .main (encode (.write 0 0x10 2))]
    replies := [0, 1, 1, 1, 1, 0] }

theorem witness_WriteTransactionCompletes :
    writeStart.inputs = [.command .main (encode (.write 0 0x10 2))] ∧ writeStart.call = none ∧
      writeStart.clockCall = none ∧
      writeStart.seq.phase = .idle ∧
      writeStart.bus.busy = false ∧ (0 : Slot).toNat < writeStart.params.nDesc ∧
      (writeStart.slot 0).wrSel = 0 ∧ (2 : Word) ≠ 0 ∧
      (List.replicate 4 (1 : Word)).length =
        (writeStart.addressingBytes 0 0x10).length + (2 : Word).toNat ∧
      (∀ v ∈ List.replicate 4 (1 : Word), v ≠ 0) ∧
      writeStart.replies = 0 :: (List.replicate 4 1 ++ 0 :: []) :=
  ⟨rfl, rfl, rfl, rfl, rfl, by decide, by decide, by decide, by decide, by simp, rfl⟩

/-- A READ of two bytes with an addressing phase, and one without. -/
def readStart (reg : Word) (replies : List Word) : State :=
  { twoSlots 2 0x10 with
    inputs := [.command .main (encode (.read 0 reg 2))]
    replies := replies }

theorem witness_ReadTransactionCompletes :
    (∀ reg replies, (readStart reg replies).inputs = [.command .main (encode (.read 0 reg 2))] ∧
      (readStart reg replies).call = none ∧ (readStart reg replies).clockCall = none ∧
      (readStart reg replies).seq.phase = .idle ∧ (readStart reg replies).bus.busy = false ∧
      (0 : Slot).toNat < (readStart reg replies).params.nDesc ∧
      ((readStart reg replies).slot 0).rdSel = 1 ∧ Memory.wf (readStart reg replies).buf = true) ∧
      (List.replicate 2 (1 : Word)).length = ((readStart 0x20 []).addressingBytes 0 0x20).length ∧
      (∀ v ∈ List.replicate 2 (1 : Word), v ≠ 0) ∧
      ([] : List Word).length = ((readStart 0x10 []).addressingBytes 0 0x10).length ∧
      (2 : Word) ≠ 0 ∧ [(8 : Word), 9].length = (2 : Word).toNat ∧
      (readStart 0x20 [0, 1, 1, 0, 2, 8, 9]).replies =
        (if (readStart 0x20 []).needAddressing 0 0x20 then 0 :: ([1, 1] ++ [0]) else []) ++
          2 :: ([8, 9] ++ []) ∧
      (readStart 0x10 [2, 8, 9]).replies =
        (if (readStart 0x10 []).needAddressing 0 0x10 then 0 :: ([] ++ [0]) else []) ++
          2 :: ([8, 9] ++ []) :=
  ⟨fun _ _ => ⟨rfl, rfl, rfl, rfl, rfl, (by decide : 0 < 16), rfl, rfl⟩, by decide, by simp, by decide,
    by decide, by decide, rfl, rfl⟩

/-- A command of zero bytes from reset, whose three retries the transport will delay. -/
def zeroStart (i : Instr) : State :=
  { State.reset with inputs := [.command .main (encode i)], replies := [0, 0, 0] }

/-- One state for WRITE and one for READ, with the input and the replies the statement asks for. -/
theorem witness_ZeroCountEndsNack :
    ∀ i dir, (i = .write 0 5 0 ∧ dir = .write ∨ i = .read 0 5 0 ∧ dir = .read) →
      (zeroStart i).inputs = [.command .main (encode i)] ∧ (zeroStart i).call = none ∧
      (zeroStart i).clockCall = none ∧
      (zeroStart i).seq.phase = .idle ∧ (zeroStart i).bus.busy = false ∧
      (0 : Slot).toNat < (zeroStart i).params.nDesc ∧ ((zeroStart i).slot 0).select dir < 2 ∧
      ([0, 0, 0] : List Word).length = (zeroStart i).bus.retries.toNat ∧
      (zeroStart i).replies = [0, 0, 0] ++ [] := by
  rintro i dir (⟨rfl, rfl⟩ | ⟨rfl, rfl⟩) <;> decide

/-- Attempts that succeed and attempts that fail, for both default strategies
(`WriteStrategyRefinesItsProcedure`, `ReadStrategyRefinesItsProcedure`). -/
theorem witness_StrategiesRefineTheirProcedures :
    (inFlight .wBegin 0 0x10 1 [0, 1, 1, 1, 0]).call = none ∧
      (inFlight .wBegin 0 0x10 1 [0, 1, 1, 1, 0]).writeAttempt.map Prod.fst = some true ∧
      (inFlight .wBegin 0 0x10 1 [0, 1, 0]).writeAttempt.map Prod.fst = some false ∧
      (inFlight .rStart 1 0x10 1 [0, 1, 1, 0, 1, 7]).readAttempt.map Prod.fst = some true ∧
      (inFlight .rStart 1 0x10 1 [0, 1, 1, 0, 0]).readAttempt.map Prod.fst = some false := by decide

/-- A transaction that succeeds on its second attempt, and one that uses up its retries. -/
theorem witness_SequencerRefinesTransact :
    (inFlight .attStart 0 0x10 1 []).seq.phase = .attStart ∧ (inFlight .attStart 0 0x10 1 []).call = none ∧
      (inFlight .attStart 0 0x10 1 []).seq.sel < 2 ∧
      (State.attemptLoop 2 (inFlight .attStart 0 0x10 1 [0, 0, 9, 0, 1, 0])).map
        (fun x => (x.1, x.2.1)) = some (2, true) ∧
      (State.attemptLoop 2 (inFlight .attStart 0 0x10 0 [9, 9])).map (fun x => (x.1, x.2.1)) =
        some (3, false) := by decide

theorem witness_LastRegisterHazardIsKept : goesOn (exec (.init 0 0x50 2) State.reset) = true := by decide

/-- Each way the attempt can fail: the first and the last byte of a write attempt, the first address byte of a
read attempt, its request and its close; with a delay to follow. -/
theorem witness_RetrySkipsTheFailedAddressing :
    ((inFlight .wBegin 0 0x10 1 []).addressingBytes 0 0x10).length = 2 ∧
      ((inFlight .rStart 1 0x10 1 []).addressingBytes 0 0x10).length = 2 ∧
      (∀ v ∈ List.replicate 2 (1 : Word), v ≠ 0) ∧
      (inFlight .wBegin 0 0x10 1 [9, 0, 5]).replies = 9 :: ([] ++ ([0] ++ [5])) ∧
      (inFlight .wBegin 0 0x10 1 [9, 1, 1, 0, 5]).replies =
        9 :: (List.replicate 2 1 ++ ([0] ++ [5])) ∧
      (inFlight .rStart 1 0x10 1 [9, 0, 5]).replies = 9 :: ([] ++ ([0] ++ [5])) ∧
      (inFlight .rStart 1 0x10 1 [9, 1, 1, 0, 0, 5]).replies =
        9 :: (List.replicate 2 1 ++ ([0, 0] ++ [5])) ∧
      (inFlight .rStart 1 0x10 1 [9, 1, 1, 4, 5]).replies =
        9 :: (List.replicate 2 1 ++ ([4] ++ [5])) ∧ (4 : Word) ≠ 0 ∧
      [inFlight .wBegin 0 0x10 1 [], inFlight .rStart 1 0x10 1 []].all (fun s =>
        s.call == none && s.seq.n != 0 && s.seq.retry != 0 && s.seq.d == 0 && (s.slot s.seq.d).registerSize != 0 &&
          s.seq.reg != (s.slot s.seq.d).cache) = true :=
  ⟨by decide, by decide, by simp, rfl, rfl, rfl, rfl, rfl, by decide, by decide⟩

theorem witness_ResetGivesTheInitialState :
    ({ inFlight .wData 0 0 2 [] with inputs := [.reset] } : State).nextInput = some (.reset, []) ∧
      ({ waiting .wData 0 2 (.write 1) with
        inputs := [.command .main 0x7000000000, .reset] } : State).nextInput =
        some (.reset, [.command .main 0x7000000000]) := by decide

theorem witness_StateViewReadsTheFields : (15 : Slot).toNat < State.reset.params.nDesc := by decide

/-- A SETSPD that waits: unanswered with nothing pending, and answered with a nested command pending. -/
theorem witness_ClockCallHoldsTheBlock :
    ({ State.reset with clockCall := some 100 } : State).clockCall = some 100 ∧
      ({ State.reset with clockCall := some 100 } : State).inputs = [] ∧
      ({ State.reset with clockCall := some 100 } : State).call = none ∧
      ({ waiting .wData 0 2 (.write 1) with clockCall := some 100 } : State).call ≠ none ∧
      ({ State.reset with clockCall := some 100 } : State).replies = [] ∧
      (∀ x ∈ ({ presented .reentrant 0x7000000000 with
        clockCall := some 100, replies := [7] } : State).inputs, ∃ ctx w, x = .command ctx w) ∧
      ({ presented .reentrant 0x7000000000 with clockCall := some 100, replies := [7] } : State).replies =
        7 :: [] :=
  ⟨by decide, by decide, by decide, by decide, by decide, by simp [presented], by decide⟩

end Sys2Proof.Tests
end

section
/-! PROOFS. What a move of the sequencer keeps (R150): one lemma for each part of the state that the statements
about every step speak of. -/

namespace Sys2Proof.Machine

/-! ### Fields that the result of an external strategy leaves alone -/

section
variable (r : ExtResult) (s : State)

@[simp] theorem applyExt_params : (State.applyExt r s).params = s.params := by simp [applyExt_eq]
@[simp] theorem applyExt_bus : (State.applyExt r s).bus = s.bus := by simp [applyExt_eq]
@[simp] theorem applyExt_call : (State.applyExt r s).call = s.call := by simp [applyExt_eq]
@[simp] theorem applyExt_clockCall : (State.applyExt r s).clockCall = s.clockCall := by
  simp [applyExt_eq]
@[simp] theorem applyExt_inputs : (State.applyExt r s).inputs = s.inputs := by simp [applyExt_eq]
@[simp] theorem applyExt_extReplies : (State.applyExt r s).extReplies = s.extReplies := by
  simp [applyExt_eq]
@[simp] theorem applyExt_buf :
    (State.applyExt r s).buf = Memory.writeAll s.buf r.bufWrites := by simp [applyExt_eq]
@[simp] theorem applyExt_seq :
    (State.applyExt r s).seq =
      if r.success then { s.seq with ack := true, phase := .release }
      else { s.seq with phase := .attFail } := by simp [applyExt_eq]
end

/-! ### The call of a phase -/

/-- A phase that makes a call is neither `IDLE` nor `RELEASE` (R150). -/
theorem phase_of_stepCall {s : State} {c : Call} (h : s.stepCall = some c) :
    s.seq.phase ≠ .idle ∧ s.seq.phase ≠ .release := by
  constructor <;> intro hp <;> simp [State.stepCall, hp] at h

/-- No call belongs to a phase that makes none (R150). -/
theorem not_fits_of_phase {x : Sequencer}
    (hp : x.phase = .idle ∨ x.phase = .attStart ∨ x.phase = .ext ∨ x.phase = .release) (c : Call) :
    ¬ c.fits x := by
  rcases hp with hp | hp | hp | hp <;> cases c <;> simp [Call.fits, hp, apply_ite]

/-- No call belongs to an attempt of no bytes (R191, R211). -/
theorem not_fits_of_zeroCount {x : Sequencer} (hp : x.phase = .wBegin ∨ x.phase = .rStart)
    (hn : x.n = 0) (c : Call) : ¬ c.fits x := by
  rcases hp with hp | hp <;> cases c <;> simp [Call.fits, hp, hn, apply_ite]

/-- No call belongs to a failed attempt with no retry left (R145). -/
theorem not_fits_of_exhausted {x : Sequencer} (hp : x.phase = .attFail) (hr : x.retry = 0)
    (c : Call) : ¬ c.fits x := by
  cases c <;> simp [Call.fits, hp, hr, apply_ite]

/-- No call is outstanding where none belongs. -/
theorem State.callFits.call_eq_none {s : State} (h : s.callFits) (hn : ∀ c, ¬ Call.fits c s.seq) :
    s.call = none :=
  Option.eq_none_iff_forall_ne_some.2 fun c hc => hn c (h c hc)

theorem callFits_of_call_eq_none {s : State} (h : s.call = none) : s.callFits := by
  simp [State.callFits, h]

/-! ### What a move keeps -/

section
variable {s t : State}

theorem Move.params_eq (h : Move s t) : t.params = s.params := by
  cases h <;> simp

theorem Move.inputs_eq (h : Move s t) : t.inputs = s.inputs := by
  cases h <;> simp

theorem Move.clockCall_eq (h : Move s t) : t.clockCall = s.clockCall := by
  cases h <;> simp

/-- A move takes results of external strategies and adds none. -/
theorem Move.mem_extReplies (h : Move s t) {r : ExtResult} (hr : r ∈ t.extReplies) :
    r ∈ s.extReplies := by
  cases h with
  | ext hp hx hq =>
    rw [hq]
    exact List.mem_cons_of_mem _ (by simpa using hr)
  | _ => simpa using hr

/-- A move keeps Bus State, but for the flag that the release clears (R146). -/
theorem Move.bus_eq (h : Move s t) :
    t.bus = if s.seq.phase = .release then { s.bus with busy := false } else s.bus := by
  cases h with
  | release hp => simp [hp]
  | calls hn hr hc => simp [(phase_of_stepCall hc).2]
  | zeroCount hp hn => rcases hp with hp | hp <;> simp [hp]
  | _ => simp [*]

/-- A move goes to a next phase of the phase table, or makes a call and stays (R150). -/
theorem Move.phase_mem_successors (h : Move s t) :
    (t.seq = s.seq ∧ s.stepCall.isSome = true) ∨ t.seq.phase ∈ s.seq.phase.successors := by
  cases h with
  | calls hn hr hc => exact .inl (by simp [hc])
  | zeroCount hp hn => exact .inr (by rcases hp with hp | hp <;> simp [hp, Phase.successors])
  | attStart hp =>
    refine .inr ?_
    simp only [hp, attStart_seq]
    split_ifs <;> simp [Phase.successors]
  | rStartReturns hp hn hc hr =>
    refine .inr ?_
    simp only [hp, setPhase_seq]
    split <;> simp [Phase.successors]
  | wBeginAddress hp | rStart hp | wDataOk hp =>
    refine .inr ?_
    simp only [hp, setPhase_seq]
    split_ifs <;> simp [Phase.successors]
  | ext hp hx hr =>
    refine .inr ?_
    simp only [hp, applyExt_seq]
    split_ifs <;> simp [Phase.successors]
  | _ => exact .inr (by simp [*, Phase.successors])

/-- No move begins in `IDLE`. -/
theorem Move.phase_ne_idle (h : Move s t) : s.seq.phase ≠ .idle := by
  intro hp
  cases h with
  | calls hn hr hc => exact (phase_of_stepCall hc).1 hp
  | zeroCount hq hn => rcases hq with hq | hq <;> simp [hp] at hq
  | _ => simp_all

/-- Of the phases only `RELEASE` is followed by `IDLE`. -/
theorem idle_mem_successors {p : Phase} : Phase.idle ∈ p.successors ↔ p = .release := by
  cases p <;> simp [Phase.successors]

/-- A move ends in `IDLE` exactly when it is the release. -/
theorem Move.ends_idle_iff (h : Move s t) : t.seq.phase = .idle ↔ s.seq.phase = .release := by
  rcases h.phase_mem_successors with ⟨hq, hc⟩ | hq
  · obtain ⟨c, hc⟩ := Option.isSome_iff_exists.1 hc
    simp [hq, phase_of_stepCall hc]
  · constructor
    · intro hi
      exact idle_mem_successors.1 (hi ▸ hq)
    · intro hr
      simpa [hr, Phase.successors] using hq

/-- What a move makes of a slot: another cache, the status of a release, or the result of an external
strategy (R146, R151, R172, R173). -/
theorem Move.slot_cases (h : Move s t) (e : Slot) :
    (∃ c, t.slot e = { s.slot e with cache := c }) ∨
      (∃ ack, t.slot e = { s.slot e with status := statusOfAck ack }) ∨
        ∃ r ∈ s.extReplies, t.slot e = r.slot := by
  have kept {u : State} (hu : u.slot e = s.slot e) :
      ∃ c, u.slot e = { s.slot e with cache := c } := ⟨_, hu⟩
  have one {u : State} {c : Word}
      (hu : u.slot e = if e = s.seq.d then { s.slot s.seq.d with cache := c } else s.slot e) :
      ∃ c, u.slot e = { s.slot e with cache := c } := by
    split at hu
    · next hd => exact ⟨c, by rw [hu, hd]⟩
    · exact kept hu
  cases h with
  | calls hn hr hc =>
    refine .inl ?_
    by_cases hp : s.seq.phase = .rStart
    · exact one (c := s.seq.reg) (by simp [slot_beforeCall, hp])
    · exact kept (by simp [slot_beforeCall, hp])
  | wBeginAddress | rStart => exact .inl (one (c := s.seq.reg) (by simp))
  | wDataOk | rDrainLast | rDrainMore =>
    exact .inl (one (c := (s.slot s.seq.d).cache + 1) (by simp))
  | ext hp hx hr =>
    rw [slot_applyExt]
    split
    · exact .inr (.inr ⟨_, by simp [hr], rfl⟩)
    · exact .inl ⟨_, rfl⟩
  | release hp =>
    rw [slot_release]
    split
    · next hd => exact .inr (.inl ⟨_, by rw [hd]⟩)
    · exact .inl ⟨_, rfl⟩
  | _ => exact .inl (kept (by simp))

/-- A move keeps the registers that the admission loaded, and only takes retries away (R143, R145). -/
theorem Move.registers (h : Move s t) :
    t.seq.d = s.seq.d ∧ t.seq.sel = s.seq.sel ∧ t.seq.n = s.seq.n ∧ t.seq.retry ≤ s.seq.retry := by
  cases h with
  | ext hp hx hr =>
    simp only [applyExt_seq]
    split_ifs <;> simp
  | retry hp hc hr =>
    have hn : s.seq.retry ≠ 0 := by
      intro h0
      simp [State.stepCall, hp, h0] at hc
    simp only [setPhase_seq, setRetry_seq, returned_seq, true_and]
    bv_omega
  | _ => simp

/-- A move that goes on past the count check, from it, has a byte to move (R191, R211). -/
theorem Move.count_ne_zero (h : Move s t) (hp : s.seq.phase = .wBegin ∨ s.seq.phase = .rStart)
    (hq : t.seq.phase ≠ .attFail) : s.seq.n ≠ 0 := by
  intro h0
  cases h with
  | zeroCount => simp at hq
  | calls _ _ hc | wBeginAddress _ hc | wBeginSkip _ hc | rStart _ _ hc =>
    rcases hp with hp | hp <;> simp [State.stepCall, hp, h0] at hc
  | rStartReturns _ hn | rStartSkip _ hn => exact hn h0
  | _ => simp_all

/-- A move that is to move a data byte next has one left to move (R194, R216). -/
theorem Move.index_lt_count (h : Move s t) (hn : s.seq.n ≠ 0)
    (hi : s.seq.phase.movesData = true → s.seq.i < s.seq.n) (hq : t.seq.phase.movesData = true) :
    t.seq.i < t.seq.n := by
  have first : 0 < s.seq.n := by bv_omega
  have next (hlt : s.seq.i < s.seq.n) (hne : s.seq.i + 1 ≠ s.seq.n) :
      s.seq.i + 1 < s.seq.n := by bv_omega
  cases h with
  | calls => simpa using hi (by simpa using hq)
  | wBeginSkip | wAloOk | rReqOk => exact first
  | wDataOk hp =>
    refine next (hi (by rw [hp]; rfl)) fun hl => ?_
    simp only [setPhase_seq, if_pos hl] at hq
    cases hq
  | rDrainMore hp _ _ hl => exact next (hi (by rw [hp]; rfl)) hl
  | attStart | wBeginAddress | rStart | ext =>
    simp only [attStart_seq, setPhase_seq, applyExt_seq] at hq
    split_ifs at hq <;> cases hq
  | rStartReturns =>
    simp only [setPhase_seq] at hq
    split at hq <;> cases hq
  | _ => cases hq

/-- A move from `ATT_START` is the dispatch on the select (R144). -/
theorem Move.eq_attStart (h : Move s t) (hp : s.seq.phase = .attStart) : t = s.attStart := by
  cases h with
  | attStart => rfl
  | calls _ _ hc => simp [State.stepCall, hp] at hc
  | zeroCount hq => simp [hp] at hq
  | _ => simp_all

/-- The dispatch apart, a phase of a default attempt comes after one of the same attempt, none is followed by
`EXT`, and the count check is passed once (R150). -/
theorem Phase.before_of_mem_successors {p q : Phase} (h : q ∈ p.successors) (hp : p ≠ .attStart) :
    (q.isWrite = true → p.isWrite = true) ∧ (q.isRead = true → p.isRead = true) ∧ q ≠ .ext ∧
      (q.pastCountCheck = true → p.pastCountCheck = true ∨ p = .wBegin ∨ p = .rStart) := by
  revert q
  cases p
  case attStart => exact absurd rfl hp
  all_goals decide

/-- Where the dispatch goes, by the select (R144). -/
theorem attStart_phase_cases (s : State) :
    (s.attStart.seq.phase = .wBegin ∧ s.attStart.seq.sel = 0) ∨
      (s.attStart.seq.phase = .rStart ∧ s.attStart.seq.sel = 1) ∨
        (s.attStart.seq.phase = .ext ∧ 2 ≤ s.attStart.seq.sel) := by
  simp only [attStart_seq]
  split_ifs with h0 h1
  · exact .inl ⟨rfl, h0⟩
  · exact .inr (.inl ⟨rfl, h1⟩)
  · exact .inr (.inr ⟨rfl, by bv_omega⟩)

/-- A phase that moves data bytes is past the count check. -/
theorem pastCountCheck_of_movesData {p : Phase} (h : p.movesData = true) :
    p.pastCountCheck = true := by
  revert h
  cases p <;> decide

/-- A move keeps the sequencer registers legal. -/
theorem Move.keeps_seq_legal (h : Move s t) {p : Params} (hs : s.seq.legal p) : t.seq.legal p := by
  obtain ⟨hflight, hwrite, hread, hext, hcount, hindex⟩ := hs
  obtain ⟨hd, hsel, hn, hretry⟩ := h.registers
  have flight : t.seq.phase ≠ .idle → t.seq.d.toNat < p.nDesc ∧ t.seq.retry ≤ 8 := fun _ =>
    ⟨hd ▸ (hflight h.phase_ne_idle).1, BitVec.le_trans hretry (hflight h.phase_ne_idle).2⟩
  by_cases ha : s.seq.phase = .attStart
  · refine ⟨flight, ?_⟩
    have hcases := attStart_phase_cases s
    rw [← h.eq_attStart ha] at hcases
    rcases hcases with ⟨hp, hv⟩ | ⟨hp, hv⟩ | ⟨hp, hv⟩ <;> rw [hp]
    · exact ⟨fun _ => hv, nofun, nofun, nofun, nofun⟩
    · exact ⟨nofun, fun _ => hv, nofun, nofun, nofun⟩
    · exact ⟨nofun, nofun, fun _ => hv, nofun, nofun⟩
  · rcases h.phase_mem_successors with ⟨hq, -⟩ | hq
    · exact hq ▸ ⟨hflight, hwrite, hread, hext, hcount, hindex⟩
    · obtain ⟨bwrite, bread, bext, bcount⟩ := Phase.before_of_mem_successors hq ha
      have count : t.seq.phase.pastCountCheck = true → t.seq.n ≠ 0 := fun hp => by
        rw [hn]
        rcases bcount hp with hp' | hp'
        · exact hcount hp'
        · exact h.count_ne_zero hp' (by rintro hf; simp [hf, Phase.pastCountCheck] at hp)
      refine ⟨flight, fun hp => hsel ▸ hwrite (bwrite hp), fun hp => hsel ▸ hread (bread hp),
        fun hp => absurd hp bext, count, fun hp => ?_⟩
      exact h.index_lt_count (hn ▸ count (pastCountCheck_of_movesData hp)) hindex hp

/-- A call that is outstanding after a move belongs to its phase, if that held before. -/
theorem Move.keeps_callFits (h : Move s t) (hs : s.callFits) : t.callFits := by
  cases h with
  | calls hn hr hc =>
    intro c' hc'
    rw [setCall_call, Option.some.injEq] at hc'
    simpa [← hc'] using stepCall_fits hn hc
  | attStart hp => exact callFits_of_call_eq_none (hs.call_eq_none (not_fits_of_phase (by simp [hp])))
  | zeroCount hp hn => exact callFits_of_call_eq_none (hs.call_eq_none (not_fits_of_zeroCount hp hn))
  | rStartSkip _ _ hc => exact callFits_of_call_eq_none hc
  | ext hp =>
    exact callFits_of_call_eq_none
      (by simpa using hs.call_eq_none (not_fits_of_phase (by simp [hp])))
  | exhausted hp hn => exact callFits_of_call_eq_none (hs.call_eq_none (not_fits_of_exhausted hp hn))
  | release hp => exact callFits_of_call_eq_none (hs.call_eq_none (not_fits_of_phase (by simp [hp])))
  | _ => exact callFits_of_call_eq_none (by simp)

/-- A move keeps the canonical form of `BUF`. -/
theorem Move.keeps_wf (h : Move s t) (hs : Memory.wf s.buf = true) : Memory.wf t.buf = true := by
  cases h with
  | rDrainLast | rDrainMore => exact wf_write hs (index_lt_bufSize _) _
  | ext => simpa using wf_writeAll hs _
  | _ => simpa using hs

end

/-! ### Legal slots, after a move -/

/-- Neither the cache nor the status of a release makes a slot illegal. -/
theorem Move.keeps_slots_legal {s t : State} (h : Move s t) (hs : ∀ d, (s.slot d).legal)
    (hx : ∀ r ∈ s.extReplies, r.slot.legal) (d : Slot) : (t.slot d).legal := by
  rcases h.slot_cases d with ⟨c, he⟩ | ⟨ack, he⟩ | ⟨r, hr, he⟩ <;> rw [he]
  · exact hs d
  · refine ⟨(hs d).1, ?_⟩
    cases ack <;> simp [statusOfAck, statusOk, statusNack]
  · exact hx r hr

end Sys2Proof.Machine
end

section
/-! PROOFS. What a command step keeps, and the values it stores (R100 to R105, R120 to R124, R143). -/

namespace Sys2Proof.Machine

/-! ### Legal slots, after a command -/

/-- A slot changed to legal content leaves every slot legal. -/
theorem setSlot_keeps_legal {s : State} (hs : ∀ d, (s.slot d).legal) (d : Slot)
    {x : SlaveDescriptor} (hx : x.legal) (e : Slot) : ((s.setSlot d x).slot e).legal := by
  rw [slot_setSlot]
  split
  · exact hx
  · exact hs e

/-- INIT stores a defined size and the status OK (R100). -/
theorem initSlot_legal (s : State) (a b : Word) : (s.initSlot a b).legal :=
  ⟨storedSize_ne_three b, by simp [State.initSlot, statusOk]⟩

/-! ### What a command step keeps -/

section
variable {i : Instr} {s t : State}

/-- A command step changes Bus State, the slots, the sequencer and its own call, and nothing else that the
invariant speaks of. -/
theorem Command.frame (h : Command s i t) :
    t.params = s.params ∧ t.call = s.call ∧ t.buf = s.buf ∧ t.inputs = s.inputs ∧
      t.extReplies = s.extReplies := by
  cases h <;> simp

theorem Command.keeps_slots_legal (h : Command s i t) (hs : ∀ d, (s.slot d).legal) (e : Slot) :
    (t.slot e).legal := by
  cases h with
  | init d a b => exact setSlot_keeps_legal hs d (initSlot_legal s a b) e
  | setaddr d | bindw d | bindr d =>
    refine setSlot_keeps_legal hs d ?_ e
    exact hs d
  | setrsz d a =>
    refine setSlot_keeps_legal hs d ?_ e
    exact ⟨storedSize_ne_three a, (hs d).2⟩
  | rejected _ d =>
    refine setSlot_keeps_legal hs d ?_ e
    exact ⟨(hs d).1, by simp [statusBusy]⟩
  | _ => exact hs e

/-- A command step keeps the flag and the sequencer, or it admits a transaction (R143). -/
theorem Command.admits_or_keeps (h : Command s i t) :
    (t.bus.busy = s.bus.busy ∧ t.seq = s.seq) ∨
      (i.isTransaction = true ∧ s.bus.busy = false ∧ t.bus.busy = true ∧
        ∃ d dir a b, d.toNat < s.params.nDesc ∧ t.seq = (s.loadSequencer d dir a b).seq) := by
  cases h with
  | admitted _ d dir a b hd hb hi =>
    refine .inr ⟨?_, hb, rfl, d, dir, a, b, hd, rfl⟩
    rcases hi with ⟨rfl, -⟩ | ⟨rfl, -⟩ <;> rfl
  | _ => exact .inl ⟨rfl, rfl⟩

theorem Command.speed_eq (h : Command s i t) (hi : ∀ a, i ≠ .setspd a) :
    t.bus.speed = s.bus.speed := by
  cases h with
  | setspd a | setspdWaits a => exact absurd rfl (hi a)
  | _ => rfl

theorem Command.timeout_eq (h : Command s i t) (hi : ∀ a, i ≠ .settmo a) :
    t.bus.timeout = s.bus.timeout := by
  cases h with
  | settmo a => exact absurd rfl (hi a)
  | _ => rfl

theorem Command.retries_eq (h : Command s i t) (hi : ∀ a, i ≠ .setrty a) :
    t.bus.retries = s.bus.retries := by
  cases h with
  | setrty a => exact absurd rfl (hi a)
  | _ => rfl

/-- What a SETSPD leaves waiting is the speed it stored, and no other command leaves a wait (R120). -/
theorem Command.clockCall_cases (h : Command s i t) :
    (t.clockCall = s.clockCall ∧ ∀ a, i ≠ .setspd a) ∨ t.clockCall = none ∨
      ((∃ a, i = .setspd a) ∧ t.clockCall = some t.bus.speed) := by
  cases h with
  | setspd a => exact .inr (.inl rfl)
  | setspdWaits a => exact .inr (.inr ⟨⟨a, rfl⟩, rfl⟩)
  | admitted _ d dir a b hd hb hi =>
    refine .inl ⟨rfl, fun a => ?_⟩
    rcases hi with ⟨rfl, -⟩ | ⟨rfl, -⟩ <;> exact nofun
  | rejected _ d a b hd hb hi =>
    refine .inl ⟨rfl, fun a => ?_⟩
    rcases hi with rfl | rfl <;> exact nofun
  | _ => exact .inl ⟨rfl, nofun⟩

end

/-! ### Reset and the operands of the Bus State commands -/

/-- The legal parameters, as comparisons (R6). -/
theorem params_legal_iff (p : Params) :
    p.legal = true ↔ (1 ≤ p.nDesc ∧ p.nDesc ≤ 16) ∧
      (1 ≤ p.speedDefaultKhz ∧ p.speedDefaultKhz ≤ p.speedMaxKhz) ∧
        (1 ≤ p.resetSpeed ∧ p.resetSpeed ≤ p.speedMaxKhz ∧ p.resetRetries ≤ 8 ∧
          p.resetTimeout ≤ 500) ∧ ∀ sel ∈ p.extSelects, 2 ≤ sel := by
  simp [Params.legal, and_assoc]

/-- The reset parameters are a legal configuration (R6, R31). -/
theorem reset_bus_legal {p : Params} (hp : p.legal = true) : (BusState.reset p).legal p := by
  obtain ⟨-, -, hreset, -⟩ := (params_legal_iff p).1 hp
  exact hreset

theorem reset_slot_legal : SlaveDescriptor.reset.legal := by
  simp [SlaveDescriptor.legal, SlaveDescriptor.reset]

/-- The idle sequencer of reset holds nothing of a transaction (R31). -/
theorem reset_seq_legal (p : Params) : Sequencer.reset.legal p :=
  ⟨fun h => absurd rfl h, nofun, nofun, nofun, nofun, nofun⟩

/-- The effective speed lies between 1 and the fastest tier (R11, R120). -/
theorem effectiveSpeed_legal {p : Params} (hp : p.legal = true) (a : Word) :
    1 ≤ effectiveSpeed p a ∧ effectiveSpeed p a ≤ p.speedMaxKhz := by
  obtain ⟨-, ⟨hone, hdefault⟩, -⟩ := (params_legal_iff p).1 hp
  unfold effectiveSpeed
  split_ifs with h0 hmax
  · exact ⟨hone, hdefault⟩
  · exact ⟨BitVec.le_trans hone hdefault, BitVec.le_refl _⟩
  · exact ⟨by bv_omega, BitVec.not_lt.1 hmax⟩

/-- The stored count is at most 8 (R12, R122). -/
theorem storedRetries_le (a : Word) : (effectiveRetries a).extractLsb' 0 4 ≤ (8 : BitVec 4) := by
  have := toNat_effectiveRetries a
  simp only [BitVec.le_def, BitVec.extractLsb'_toNat, Nat.shiftRight_zero]
  have h8 : (8 : BitVec 4).toNat = 8 := rfl
  omega

/-- The stored timeout is at most 500 (R13, R121). -/
theorem storedTimeout_le (a : Word) :
    (effectiveTimeout a).extractLsb' 0 9 ≤ (500 : BitVec 9) := by
  have := toNat_effectiveTimeout a
  simp only [BitVec.le_def, BitVec.extractLsb'_toNat, Nat.shiftRight_zero]
  have h500 : (500 : BitVec 9).toNat = 500 := rfl
  omega

theorem Command.keeps_bus_legal {i : Instr} {s t : State} (h : Command s i t)
    (hp : s.params.legal = true) (hs : s.bus.legal s.params) : t.bus.legal s.params := by
  obtain ⟨hlow, hhigh, hretries, htimeout⟩ := hs
  cases h with
  | setspd a | setspdWaits a =>
    obtain ⟨elow, ehigh⟩ := effectiveSpeed_legal hp a
    exact ⟨elow, ehigh, hretries, htimeout⟩
  | settmo a => exact ⟨hlow, hhigh, hretries, storedTimeout_le a⟩
  | setrty a => exact ⟨hlow, hhigh, storedRetries_le a, htimeout⟩
  | _ => exact ⟨hlow, hhigh, hretries, htimeout⟩

end Sys2Proof.Machine
end

section
/-! PROOFS. The invariant of the machine (R25 and the clauses of `State.Inv`), and what changes the flag and the
configuration. -/

namespace Sys2Proof.Machine

/-! ### Busy if and only if in flight -/

/-- The release clears the flag and meets `IDLE`, and every other move keeps both (R25). -/
theorem Move.keeps_busyIffInFlight {s t : State} (h : Move s t) (hs : s.busyIffInFlight) :
    t.busyIffInFlight := by
  unfold State.busyIffInFlight at hs ⊢
  rw [h.bus_eq, ne_eq, h.ends_idle_iff]
  by_cases hr : s.seq.phase = .release
  · simp [hr]
  · simp [hr, hs, h.phase_ne_idle]

/-- An admission sets the flag and leaves `IDLE`, and every other command keeps both (R25). -/
theorem Command.keeps_busyIffInFlight {i : Instr} {s t : State} (h : Command s i t)
    (hs : s.busyIffInFlight) : t.busyIffInFlight := by
  unfold State.busyIffInFlight at hs ⊢
  rcases h.admits_or_keeps with ⟨hb, hq⟩ | ⟨-, -, hb, d, dir, a, b, -, hq⟩
  · rw [hb, hq]
    exact hs
  · simp [hb, hq]

/-! ### The invariant, by what a step does -/

/-- The inputs left after a move of the block are inputs. -/
theorem mem_inputs_of_move {s : State} {rest : List Input}
    (h : rest = s.inputs ∨ s.nextInput = some (.micro, rest)) : ∀ x ∈ rest, x ∈ s.inputs := by
  rcases h with rfl | h
  · exact fun _ hx => hx
  · exact (nextInput_mem h).2

/-- A SETSPD is taken only with no call of the sequencer outstanding (R52, R149). -/
theorem call_eq_none_of_setspd {s : State} {ctx : Context} {w : CmdWord} {rest : List Input}
    {a : Word} (h : s.nextInput = some (.command ctx w, rest)) (hd : decode w = .ok (.setspd a)) :
    s.call = none := by
  obtain ⟨-, -, hb⟩ := (accepts_iff s ctx w).1 (nextInput_accepts h)
  refine Option.eq_none_iff_forall_ne_some.2 fun c hc => ?_
  have : s.holdsBack w = true :=
    (holdsBack_iff s w).2 ⟨c, _, hc, hd, rfl, (clashes_iff s c _).2 (.inl ⟨a, rfl⟩)⟩
  simp [hb] at this

section
variable {s t : State}

theorem State.Inv.withInputs (h : s.Inv) {rest : List Input} (hr : ∀ x ∈ rest, x ∈ s.inputs) :
    State.Inv { s with inputs := rest } :=
  { h with externalInputs := fun r hm => h.externalInputs r (hr _ hm) }

theorem State.Inv.move (h : s.Inv) (hk : s.clockCall = none) (hm : Move s t) : t.Inv where
  params := hm.params_eq ▸ h.params
  bus := by
    rw [hm.params_eq, hm.bus_eq]
    split
    · exact h.bus
    · exact h.bus
  slots := hm.keeps_slots_legal h.slots h.external
  busy := hm.keeps_busyIffInFlight h.busy
  seq := hm.params_eq ▸ hm.keeps_seq_legal h.seq
  call := hm.keeps_callFits h.call
  oneCall := .inr (hm.clockCall_eq ▸ hk)
  clock := by simp [hm.clockCall_eq, hk]
  buf := hm.keeps_wf h.buf
  external r hr := h.external r (hm.mem_extReplies hr)
  externalInputs := hm.inputs_eq ▸ h.externalInputs

/-- An admission loads legal registers, with the retries of Bus State (R143). -/
theorem Command.keeps_seq_legal {i : Instr} (hc : Command s i t) (h : s.Inv) :
    t.seq.legal s.params ∧ t.callFits := by
  obtain ⟨-, hcall, -⟩ := hc.frame
  rcases hc.admits_or_keeps with ⟨-, hq⟩ | ⟨-, hb, -, d, dir, a, b, hd, hq⟩
  · rw [State.callFits, hq, hcall]
    exact ⟨h.seq, h.call⟩
  · obtain ⟨-, -, hretries, -⟩ := h.bus
    have hidle : s.seq.phase = .idle := by
      have := h.busy
      simpa [State.busyIffInFlight, hb] using this
    rw [hq]
    refine ⟨⟨fun _ => ⟨hd, hretries⟩, nofun, nofun, nofun, nofun, nofun⟩, ?_⟩
    exact callFits_of_call_eq_none
      (hcall.trans (h.call.call_eq_none (not_fits_of_phase (.inl hidle))))

theorem State.Inv.command {i : Instr} (h : s.Inv) (hk : s.clockCall = none)
    (hset : ∀ a, i = .setspd a → s.call = none) (hc : Command s i t) : t.Inv := by
  obtain ⟨hparams, hcall, hbuf, hinputs, hext⟩ := hc.frame
  obtain ⟨hseq, hfits⟩ := hc.keeps_seq_legal h
  exact
    { params := hparams ▸ h.params
      bus := hparams ▸ hc.keeps_bus_legal h.params h.bus
      slots := hc.keeps_slots_legal h.slots
      busy := hc.keeps_busyIffInFlight h.busy
      seq := hparams ▸ hseq
      call := hfits
      oneCall := by
        rcases hc.clockCall_cases with ⟨hq, -⟩ | hq | ⟨⟨a, hi⟩, -⟩
        · exact .inr (hq.trans hk)
        · exact .inr hq
        · exact .inl (hcall.trans (hset a hi))
      clock := by
        rcases hc.clockCall_cases with ⟨hq, -⟩ | hq | ⟨-, hq⟩
        · simp [hq, hk]
        · simp [hq]
        · simp [hq]
      buf := hbuf ▸ h.buf
      external := hext ▸ h.external
      externalInputs := hinputs ▸ h.externalInputs }

/-- After reset the invariant rests on what reset leaves alone: the parameters, `BUF` and what the outside
world will do (R260). -/
theorem resetBlock_inv (hp : s.params.legal = true) (hb : Memory.wf s.buf = true)
    (hx : ∀ r ∈ s.extReplies, r.slot.legal)
    (hi : ∀ r, Input.strategyResult r ∈ s.inputs → r.slot.legal) : s.resetBlock.Inv where
  params := hp
  bus := reset_bus_legal hp
  slots d := by
    rw [slot_resetBlock]
    exact reset_slot_legal
  busy := by simp [State.busyIffInFlight, BusState.reset, Sequencer.reset]
  seq := reset_seq_legal s.params
  call := callFits_of_call_eq_none rfl
  oneCall := .inl rfl
  clock := nofun
  buf := hb
  external := hx
  externalInputs := hi

end

/-- Settles O42: each part of the invariant is kept by each kind of step. -/
theorem stepKeepsTheInvariant : Obligations.StepKeepsTheInvariant := by
  intro s t h hstep
  cases step_next hstep with
  | @command ctx w rest i _ hi hd he =>
    obtain ⟨hk, -, -⟩ := (accepts_iff s ctx w).1 (nextInput_accepts hi)
    have hset : ∀ a, i = .setspd a → s.call = none := fun a ha => call_eq_none_of_setspd hi (ha ▸ hd)
    exact (h.withInputs (nextInput_mem hi).2).command hk hset (exec_next he)
  | micro hi hc hm =>
    have hk : s.clockCall = none := hc.elim id fun hcall =>
      h.oneCall.resolve_left (Option.isSome_iff_ne_none.1 hcall)
    have hu := h.withInputs (mem_inputs_of_move hi)
    rcases microStep_next hm with ⟨rfl, -⟩ | hm
    · exact hu
    · exact hu.move hk hm
  | clock hi hn hc hf =>
    have hu := h.withInputs (mem_inputs_of_move hi)
    rcases finishSetspd_next hf with ⟨-, rfl⟩ | ⟨v, vs, -, -, rfl⟩
    · exact hu
    · exact { hu with oneCall := .inr rfl, clock := nofun }
  | @hostWrite i b rest hi =>
    have hu := h.withInputs (nextInput_mem hi).2
    exact { hu with buf := wf_write hu.buf (index_lt_bufSize i) b }
  | answer hi =>
    have hu := h.withInputs (nextInput_mem hi).2
    exact { hu with }
  | @strategyResult r rest hi =>
    have hu := h.withInputs (nextInput_mem hi).2
    have hr := h.externalInputs r (nextInput_mem hi).1
    refine { hu with external := fun r' hm => ?_ }
    rcases List.mem_append.1 hm with hm | hm
    · exact h.external r' hm
    · exact List.mem_singleton.1 hm ▸ hr
  | reset hi =>
    have hu := h.withInputs (nextInput_mem hi).2
    exact resetBlock_inv hu.params hu.buf hu.external hu.externalInputs

/-- Settles O43: the state after reset is what a reset makes of itself. -/
theorem resetStateHasTheInvariant : Obligations.ResetStateHasTheInvariant :=
  resetBlock_inv (s := State.reset) (by decide) rfl nofun nofun

/-- Settles O41: the flag and `IDLE` change together, at admission, release and reset. -/
theorem stepKeepsBusyIffInFlight : Obligations.StepKeepsBusyIffInFlight := by
  intro s t h hstep
  cases step_next hstep with
  | command hi hd he => exact (exec_next he).keeps_busyIffInFlight h
  | micro hi hc hm =>
    rcases microStep_next hm with ⟨rfl, -⟩ | hm
    · exact h
    · exact hm.keeps_busyIffInFlight h
  | clock hi hn hc hf =>
    rcases finishSetspd_next hf with ⟨-, rfl⟩ | ⟨v, vs, -, -, rfl⟩
    · exact h
    · exact h
  | hostWrite | answer | strategyResult => exact h
  | reset => simp [State.busyIffInFlight, BusState.reset, Sequencer.reset]

/-- Settles O47: of the moves the release alone changes the flag, and of the commands an admission alone. -/
theorem busyChangesOnlyAtAdmissionAndRelease :
    Obligations.BusyChangesOnlyAtAdmissionAndRelease := by
  intro s t hstep
  have kept {p q : Prop} (h : t.bus.busy = s.bus.busy) :
      (s.bus.busy = false → t.bus.busy = true → p) ∧
        (s.bus.busy = true → t.bus.busy = false → q) := by
    rw [h]
    exact ⟨fun hf ht => by simp [hf] at ht, fun ht hf => by simp [ht] at hf⟩
  cases step_next hstep with
  | command hi hd he =>
    rcases (exec_next he).admits_or_keeps with ⟨hb, -⟩ | ⟨ht, -, hb, d, dir, a, b, -, hq⟩
    · exact kept hb
    · exact ⟨fun _ _ => ⟨by simp [hq], _, _, _, _, hi, hd, ht⟩, fun _ hf => by simp [hb] at hf⟩
  | micro hi hc hm =>
    rcases microStep_next hm with ⟨rfl, -⟩ | hm
    · exact kept rfl
    · by_cases hr : s.seq.phase = .release
      · have hb : t.bus.busy = false := by simp [hm.bus_eq, hr]
        exact ⟨fun _ ht => by simp [hb] at ht, fun _ _ => ⟨hm.ends_idle_iff.2 hr, .inl hr⟩⟩
      · exact kept (by simp [hm.bus_eq, hr])
  | clock hi hn hc hf =>
    rcases finishSetspd_next hf with ⟨-, rfl⟩ | ⟨v, vs, -, -, rfl⟩
    · exact kept rfl
    · exact kept rfl
  | hostWrite | answer | strategyResult => exact kept rfl
  | reset hi => exact ⟨nofun, fun _ _ => ⟨rfl, .inr ⟨_, hi⟩⟩⟩

/-- A step is a reset, or a command, or it keeps the three configuration fields. -/
theorem step_configuration {s t : State} (h : step s = .next t) :
    t.params = s.params ∧
      ((∃ rest, s.nextInput = some (.reset, rest)) ∨
        (∃ ctx w rest i, s.nextInput = some (.command ctx w, rest) ∧ decode w = .ok i ∧
          Command { s with inputs := rest } i t) ∨
        ∃ b, t.bus = { s.bus with busy := b }) := by
  cases step_next h with
  | command hi hd he =>
    exact ⟨(exec_next he).frame.1, .inr (.inl ⟨_, _, _, _, hi, hd, exec_next he⟩)⟩
  | micro hi hc hm =>
    rcases microStep_next hm with ⟨rfl, -⟩ | hm
    · exact ⟨rfl, .inr (.inr ⟨_, rfl⟩)⟩
    · refine ⟨hm.params_eq, .inr (.inr ?_)⟩
      rw [hm.bus_eq]
      split
      · exact ⟨_, rfl⟩
      · exact ⟨_, rfl⟩
  | clock hi hn hc hf =>
    rcases finishSetspd_next hf with ⟨-, rfl⟩ | ⟨v, vs, -, -, rfl⟩
    · exact ⟨rfl, .inr (.inr ⟨_, rfl⟩)⟩
    · exact ⟨rfl, .inr (.inr ⟨_, rfl⟩)⟩
  | hostWrite | answer | strategyResult => exact ⟨rfl, .inr (.inr ⟨_, rfl⟩)⟩
  | reset hi => exact ⟨rfl, .inl ⟨_, hi⟩⟩

/-- Settles O46: a command other than its setter keeps each field. -/
theorem configurationChangesOnlyByItsSetters :
    Obligations.ConfigurationChangesOnlyByItsSetters := by
  intro s t hstep
  obtain ⟨hp, hcases⟩ := step_configuration hstep
  refine ⟨hp, fun hreset => ?_⟩
  rcases hcases with ⟨rest, hi⟩ | ⟨ctx, w, rest, i, hi, hd, hc⟩ | ⟨b, hb⟩
  · exact absurd hi (hreset rest)
  · have setter {p : Word → Instr} (hne : ¬ ∀ a, i ≠ p a) :
        ∃ ctx w rest a, s.nextInput = some (.command ctx w, rest) ∧ decode w = .ok (p a) := by
      simp only [not_forall, not_not] at hne
      obtain ⟨a, rfl⟩ := hne
      exact ⟨ctx, w, rest, a, hi, hd⟩
    exact ⟨fun hne => setter fun h => hne (hc.speed_eq h),
      fun hne => setter fun h => hne (hc.timeout_eq h),
      fun hne => setter fun h => hne (hc.retries_eq h)⟩
  · rw [hb]
    exact ⟨fun h => absurd rfl h, fun h => absurd rfl h, fun h => absurd rfl h⟩

/-- Settles O58: the reset step is the model's reset of the block, which names every field the statement does. -/
theorem resetGivesTheInitialState : Obligations.ResetGivesTheInitialState := by
  refine ⟨fun s rest hi => ⟨State.resetBlock { s with inputs := rest }, step_some hi, ?_⟩, ?_⟩
  · simp [BusState.reset, Sequencer.reset]
  · simp [State.reset, BusState.reset, Sequencer.reset]

/-- Settles O59: each number of the view is its field by definition, those of a slot where the slot exists. -/
theorem stateViewReadsTheFields : Obligations.StateViewReadsTheFields := by
  intro s d hd
  have slotView (k : Fin 6) : s.view (.dr d k) = some ((s.slot d).view k) := if_pos hd
  simp only [slotView]
  exact ⟨rfl, rfl, rfl, rfl, rfl, rfl, rfl, rfl, rfl, rfl⟩

end Sys2Proof.Machine
end

section
/-! PROOFS. The timeout changes no behaviour (R13): what the block does commutes with setting the timeout, its own
setter and reset apart. -/

namespace Sys2Proof.Machine

/-- The answer of a step with `f` done to its next state. -/
def mapNext (f : State → State) : Result → Result
  | .next s => .next (f s)
  | .fault r => .fault r
  | .refused r => .refused r

section
variable (v : BitVec 9) (s : State)

/-! ### Calls -/

/-- A transport call looks at the replies and at its own call only. -/
theorem transportCall_setTimeout {c : Call} {k : Call → Word → State → State}
    (hk : ∀ c w t, k c w (t.setTimeout v) = (k c w t).setTimeout v) :
    (s.setTimeout v).transportCall c k = mapNext (State.setTimeout v) (s.transportCall c k) := by
  cases hr : s.replies with
  | nil =>
    unfold State.transportCall
    simp only [setTimeout_replies, hr]
    rfl
  | cons w ws =>
    rw [transportCall_cons hr, transportCall_cons (s := s.setTimeout v) hr]
    exact congrArg Host.Outcome.next (hk (s.call.getD c) w (s.returned (s.call.getD c) w ws))

theorem finishSetspd_setTimeout (eff : Word) :
    State.finishSetspd eff (s.setTimeout v) =
      mapNext (State.setTimeout v) (s.finishSetspd eff) := by
  unfold State.finishSetspd State.tSetClock
  simp only [setTimeout_call, setTimeout_replies]
  cases s.call <;> cases s.replies <;> rfl

/-! ### Micro-steps -/

theorem openForRead_setTimeout (next : Addressing) :
    State.openForRead next (s.setTimeout v) =
      mapNext (State.setTimeout v) (s.openForRead next) := by
  unfold State.openForRead
  exact transportCall_setTimeout v s (by intros; rfl)

theorem microRStart_setTimeout :
    (s.setTimeout v).microRStart = mapNext (State.setTimeout v) s.microRStart := by
  unfold State.microRStart
  rw [apply_ite (mapNext _), apply_ite (mapNext _), apply_ite (mapNext _),
    ← openForRead_setTimeout, ← openForRead_setTimeout]
  rfl

theorem microWBegin_setTimeout :
    (s.setTimeout v).microWBegin = mapNext (State.setTimeout v) s.microWBegin := by
  unfold State.microWBegin
  rw [apply_ite (mapNext _)]
  congr 1
  refine transportCall_setTimeout v s fun c _ _ => ?_
  cases c.next <;> rfl

theorem microAttFail_setTimeout :
    (s.setTimeout v).microAttFail = mapNext (State.setTimeout v) s.microAttFail := by
  unfold State.microAttFail
  rw [apply_ite (mapNext _)]
  congr 1
  exact transportCall_setTimeout v s (by intros; rfl)

theorem microExt_setTimeout :
    (s.setTimeout v).microExt = mapNext (State.setTimeout v) s.microExt := by
  unfold State.microExt
  rw [apply_ite (mapNext _)]
  congr 1
  rw [setTimeout_extReplies]
  cases s.extReplies with
  | nil => rfl
  | cons r rs =>
    simp only [applyExt_eq]
    rfl

theorem microStep_setTimeout :
    (s.setTimeout v).microStep = mapNext (State.setTimeout v) s.microStep := by
  cases hp : s.seq.phase <;> simp only [State.microStep, setTimeout_seq, hp]
  case idle | attStart | release => rfl
  case wBegin => exact microWBegin_setTimeout v s
  case rStart => exact microRStart_setTimeout v s
  case ext => exact microExt_setTimeout v s
  case attFail => exact microAttFail_setTimeout v s
  all_goals
    simp only [State.microWAhi, State.microWAlo, State.microWData, State.microWEnd, State.microRAhi,
      State.microRAlo, State.microREnd, State.microRReq, State.microRDrain]
    refine transportCall_setTimeout v s fun _ w t => ?_
    dsimp only
    rw [apply_ite (State.setTimeout v)]
    rfl

theorem blockStep_setTimeout :
    (s.setTimeout v).blockStep = mapNext (State.setTimeout v) s.blockStep := by
  unfold State.blockStep
  rw [setTimeout_call, setTimeout_clockCall]
  split
  · exact finishSetspd_setTimeout v s _
  · exact microStep_setTimeout v s
  · exact microStep_setTimeout v s

/-! ### Command steps -/

theorem requireSlot_setTimeout (d : Slot) {r q : Result} (h : r = mapNext (State.setTimeout v) q) :
    (s.setTimeout v).requireSlot d r = mapNext (State.setTimeout v) (s.requireSlot d q) := by
  unfold State.requireSlot
  rw [apply_ite (mapNext _), h]
  rfl

theorem exec_setTimeout {i : Instr} (hi : ∀ a, i ≠ .settmo a) :
    exec i (s.setTimeout v) = mapNext (State.setTimeout v) (exec i s) := by
  have admission (d : Slot) (dir : Direction) (a b : Word) :
      (s.setTimeout v).admission d dir a b = (s.admission d dir a b).setTimeout v := by
    unfold State.admission
    rw [apply_ite (State.setTimeout v)]
    rfl
  cases i with
  | init d | setrsz d | bindw d | bindr d => exact requireSlot_setTimeout v s d rfl
  | setaddr d a =>
    refine requireSlot_setTimeout v s d ?_
    rw [mapNext, apply_ite (State.setTimeout v)]
    rfl
  | setspd a =>
    exact finishSetspd_setTimeout v
      ((s.setSpeed (effectiveSpeed s.params a)).setClockCall (some (effectiveSpeed s.params a)))
      (effectiveSpeed s.params a)
  | settmo a => exact absurd rfl (hi a)
  | setrty a | isbusy => rfl
  | write d a b => exact requireSlot_setTimeout v s d (congrArg _ (admission d .write a b))
  | read d a b => exact requireSlot_setTimeout v s d (congrArg _ (admission d .read a b))

/-! ### Steps -/

/-- Which input is taken does not depend on the timeout. -/
theorem nextInput_setTimeout : (s.setTimeout v).nextInput = s.nextInput := by
  have takes (held : List Context) (x : Input) : (s.setTimeout v).takes held x = s.takes held x := by
    cases x <;> rfl
  unfold State.nextInput
  rw [firstTaken_congr takes, setTimeout_inputs]
  simp only [takes]
  rfl

theorem inputTurn_setTimeout {x : Input} (hx : x ≠ .reset)
    (hset : ∀ ctx w a, x = .command ctx w → decode w ≠ .ok (.settmo a)) :
    State.inputTurn x (s.setTimeout v) = mapNext (State.setTimeout v) (s.inputTurn x) := by
  cases x with
  | command ctx w =>
    simp only [State.inputTurn, State.acceptCommand]
    split
    · next i hd => exact exec_setTimeout v s fun a hi => hset ctx w a rfl (hi ▸ hd)
    · rfl
  | micro => exact blockStep_setTimeout v s
  | reset => exact absurd rfl hx
  | hostWrite | answer | strategyResult => rfl

end

/-- Settles O49: the block's own move and every input but reset and SETTMO commute with setting the timeout. -/
theorem timeoutChangesNoBehaviour : Obligations.TimeoutChangesNoBehaviour := by
  intro s t v hstep hreset hset
  have hinput := nextInput_setTimeout v s
  suffices step (s.setTimeout v) = mapNext (State.setTimeout v) (step s) by
    rw [hstep] at this
    exact this
  cases hi : s.nextInput with
  | none =>
    rw [step_none hi, step_none (hinput.trans hi)]
    exact blockStep_setTimeout v s
  | some p =>
    obtain ⟨x, rest⟩ := p
    rw [step_some hi, step_some (hinput.trans hi)]
    refine inputTurn_setTimeout v { s with inputs := rest } ?_ ?_
    · rintro rfl
      exact hreset rest hi
    · rintro ctx w a rfl
      exact hset ctx w rest a hi

end Sys2Proof.Machine
end

section
/-! PROOFS. The transport calls of a micro-step (R52, R60, R148, R150): at most one in each, that of its phase, and
what a call that was outstanding returns to. -/

namespace Sys2Proof.Machine

/-! ### At most one call -/

/-- The call of a micro-step is made now, or it is the one that is outstanding. -/
theorem call_cases_of_stepCall {s : State} {c : Call} (h : s.stepCall = some c) :
    s.call = none ∨ s.call = some c := by
  cases hd : s.call with
  | none => exact .inl rfl
  | some d => exact .inr (stepCall_outstanding hd h ▸ rfl)

/-- An outstanding call that belongs to its phase is the call of the micro-step. -/
theorem stepCall_of_fits {s : State} {c : Call} (hc : s.call = some c) (hf : c.fits s.seq) :
    s.stepCall = some c := by
  have no {q : Prop} (hn : ∀ c, ¬ Call.fits c s.seq) : q := absurd hf (hn c)
  cases hp : s.seq.phase
  case idle | attStart | ext | release => exact no (not_fits_of_phase (by simp [hp]))
  case wBegin | rStart =>
    have hn : s.seq.n ≠ 0 := fun h0 => no (not_fits_of_zeroCount (by simp [hp]) h0)
    simpa [State.stepCall, hp, hc] using hn
  case attFail =>
    rw [stepCall_attFail hp fun h0 => no (not_fits_of_exhausted hp h0), hc, Option.getD_some]
  all_goals simp [State.stepCall, hp, hc]

/-- A move, one of an external strategy apart, takes the oldest reply for one call, with its event, or neither
takes a reply nor adds an event. -/
theorem Move.call_cases {s t : State} (h : Move s t) (hp : s.seq.phase ≠ .ext) :
    (t.trace = s.trace ∧ t.replies = s.replies) ∨
      ∃ c v, t.trace = s.trace ++ [c.event v] ∧ s.replies = v :: t.replies ∧
        (s.call = none ∨ s.call = some c) ∧ t.call = none := by
  cases h with
  | ext hx => exact absurd hx hp
  | calls | attStart | zeroCount | rStartSkip | exhausted | release => exact .inl (by simp)
  | rStartReturns _ _ hc hr => exact .inr ⟨_, _, rfl, hr, .inr hc, rfl⟩
  | _ => exact .inr ⟨_, _, rfl, ‹_›, call_cases_of_stepCall ‹_›, rfl⟩

/-- A move that leaves a call outstanding where none was is the one that makes it. -/
theorem Move.makes_call {s t : State} (h : Move s t) (hn : s.call = none) (ht : t.call ≠ none) :
    ∃ c, s.stepCall = some c ∧ t = s.beforeCall.setCall (some c) := by
  cases h with
  | calls _ _ hc => exact ⟨_, hc, rfl⟩
  | _ => exact absurd (by simp [hn]) ht

/-! ### Making the call and getting the reply -/

/-- A call that was made before goes on as it would if it were made now. -/
theorem transportCall_setCall {s : State} (hn : s.call = none) (c c' : Call)
    (k : Call → Word → State → State) :
    (s.setCall (some c)).transportCall c' k = s.transportCall c k := by
  unfold State.transportCall
  rw [setCall_replies, setCall_call, hn]
  cases s.replies <;> rfl

/-- The micro-step of a phase other than `R_START` that makes a call is that one transport call, whatever call is
outstanding; what it goes on to do looks at the call itself, or at the trace, only in `W_BEGIN`. -/
theorem microStep_eq_transportCall {s : State} {c : Call} (hc : s.stepCall = some c)
    (hs : s.seq.phase ≠ .rStart) :
    ∃ d k, s.stepCall = some (s.call.getD d) ∧
      (∀ o, (s.setCall o).microStep = (s.setCall o).transportCall d k) ∧
      (s.seq.phase ≠ .wBegin → ∀ c v (u : State) tr,
        k c v { u with trace := tr } = { k d v u with trace := tr }) := by
  cases hp : s.seq.phase
  case rStart => exact absurd hp hs
  case idle | attStart | ext | release => simp [State.stepCall, hp] at hc
  case wBegin =>
    have h0 : s.seq.n ≠ 0 := by rintro h0; simp [State.stepCall, hp, h0] at hc
    rw [stepCall_wBegin hp h0]
    simp only [State.microStep, setCall_seq, hp, State.microWBegin, State.tBegin]
    exact ⟨_, _, rfl, fun _ => if_neg h0, fun h => absurd rfl h⟩
  case attFail =>
    have h0 : s.seq.retry ≠ 0 := by rintro h0; simp [State.stepCall, hp, h0] at hc
    rw [stepCall_attFail hp h0]
    simp only [State.microStep, setCall_seq, hp, State.microAttFail, State.tDelay]
    refine ⟨_, _, rfl, fun _ => if_pos h0, fun _ _ _ _ _ => ?_⟩
    rfl
  all_goals
    simp only [State.stepCall, State.microStep, setCall_seq, hp, State.microWAhi, State.microWAlo,
      State.microWData, State.microWEnd, State.microRAhi, State.microRAlo, State.microREnd,
      State.microRReq, State.microRDrain, State.tWrite, State.tEnd, State.tRequest, State.tRead]
    refine ⟨_, _, rfl, fun _ => rfl, fun _ _ v u _ => ?_⟩
    split <;> rfl

/-- What a micro-step writes before its call does not depend on the replies. -/
theorem beforeCall_withReplies (s : State) (vs : List Word) :
    { s.beforeCall with replies := vs } = State.beforeCall { s with replies := vs } := by
  unfold State.beforeCall
  split <;> rfl

/-- Making the call of the micro-step changes nothing of what the micro-step does when the reply comes. -/
theorem microStep_made {s : State} {c : Call} (hn : s.call = none) (hc : s.stepCall = some c) :
    State.microStep (s.beforeCall.setCall (some c)) = s.microStep := by
  by_cases hs : s.seq.phase = .rStart
  · obtain ⟨h0, ha, rfl⟩ := (stepCall_rStart_iff hs hn).1 hc
    have hb : s.beforeCall = s.cacheSet s.seq.d s.seq.reg := if_pos hs
    simp only [State.microStep, hb, setCall_seq, cacheSet_seq, hs, State.microRStart, if_neg h0,
      setCall_call, Option.isSome_some, hn, ha]
    unfold State.openForRead State.tBegin
    rw [transportCall_setCall (by exact hn)]
    simp
  · obtain ⟨d, k, hd, hk, -⟩ := microStep_eq_transportCall hc hs
    obtain rfl : c = d := by simpa [hc, hn] using hd
    have hmicro : s.microStep = s.transportCall c k := hk s.call
    rw [beforeCall_of_ne hs, hk, transportCall_setCall hn, hmicro]

/-! ### The return of a call that was outstanding -/

/-- In a phase with no addressing decision a call that was outstanding returns to what a call made now would, but
for its event. -/
theorem microStep_outstanding {s : State} {c : Call} {v : Word} {vs : List Word}
    (hc : s.call = some c) (hf : c.fits s.seq) (hw : s.seq.phase ≠ .wBegin)
    (hs : s.seq.phase ≠ .rStart) (hr : s.replies = v :: vs) :
    ∃ t, State.microStep (s.setCall none) = .next t ∧
      s.microStep = .next { t with trace := s.trace ++ [c.event v] } := by
  obtain ⟨d, k, -, hk, hevent⟩ := microStep_eq_transportCall (stepCall_of_fits hc hf) hs
  have hmicro : s.microStep = s.transportCall d k := hk s.call
  rw [transportCall_cons hr, hc, Option.getD_some] at hmicro
  refine ⟨_, (hk none).trans (transportCall_cons (s := s.setCall none) hr _ _), hmicro.trans ?_⟩
  exact congrArg _ (hevent hw c v (State.returned d v vs (s.setCall none)) (s.trace ++ [c.event v]))

/-! ### The call that is made -/

/-- With no reply pending the micro-step makes its call, and in a phase other than `R_START` it does nothing else. -/
theorem microStep_makes {s : State} {c : Call} (hn : s.call = none) (hr : s.replies = [])
    (hs : s.seq.phase ≠ .rStart) (hc : s.stepCall = some c) :
    s.microStep = .next { s with call := some c } := by
  rw [microStep_calls hn hr hc, beforeCall_of_ne hs]
  rfl

/-- Settles O38: (1) and (3) by what a move can do, (2) by the call of each phase, (4) because what a phase goes on to
do does not look at its call. -/
theorem atMostOneCallInAMicroStep : Obligations.AtMostOneCallInAMicroStep := by
  refine ⟨fun s t h hp => ?_, fun s hn hr => ?_, fun s t h hn ht v vs => ?_,
    fun s c v vs hc hf hw hs hr => microStep_outstanding hc hf hw hs hr⟩
  · rcases microStep_next h with ⟨rfl, -⟩ | hm
    · exact .inl ⟨rfl, rfl⟩
    · exact hm.call_cases hp
  · intro makes need bytes
    have call {c : Call} (hs : s.seq.phase ≠ .rStart) (hc : s.stepCall = some (s.call.getD c)) :
        makes c := by
      rw [hn] at hc
      exact microStep_makes hn hr hs hc
    cases hp : s.seq.phase
    case wBegin =>
      refine fun h0 => ⟨fun ha => ?_, fun ha => ?_⟩
      · have hc := stepCall_wBegin hp h0
        rw [addressing_eq, if_pos ha] at hc
        exact call (by simp [hp]) hc
      · have hc := stepCall_wBegin hp h0
        rw [addressing_eq, if_neg ha] at hc
        exact call (by simp [hp]) hc
    case rStart =>
      intro h0 ha
      have hc := stepCall_rStart hp h0 hn ((needAddressing_iff ..).2 ha)
      rw [addressing_eq, if_pos ha] at hc
      rw [microStep_calls hn hr hc, State.beforeCall, if_pos hp]
      rfl
    case wAhi => exact call (by simp [hp]) (stepCall_wAhi hp)
    case wAlo => exact call (by simp [hp]) (stepCall_wAlo hp)
    case wData => exact call (by simp [hp]) (stepCall_wData hp)
    case wEnd => exact call (by simp [hp]) (stepCall_wEnd hp)
    case rAhi => exact call (by simp [hp]) (stepCall_rAhi hp)
    case rAlo => exact call (by simp [hp]) (stepCall_rAlo hp)
    case rEnd => exact call (by simp [hp]) (stepCall_rEnd hp)
    case rReq => exact call (by simp [hp]) (stepCall_rReq hp)
    case rDrain => exact call (by simp [hp]) (stepCall_rDrain hp)
    case attFail => exact fun h0 => call (by simp [hp]) (stepCall_attFail hp h0)
    case idle | attStart | ext | release => exact trivial
  · rcases microStep_next h with ⟨rfl, -⟩ | hm
    · exact absurd hn ht
    · obtain ⟨c, hc, rfl⟩ := hm.makes_call hn ht
      have hs : State.stepCall { s with replies := v :: vs } = some c := hc
      have hmade := microStep_made (s := { s with replies := v :: vs }) hn hs
      rw [← beforeCall_withReplies s] at hmade
      exact hmade

end Sys2Proof.Machine
end

section
/-! PROOFS. A byte of `BUF` (R43, R196, R217): which steps change it. -/

namespace Sys2Proof.Machine

/-- A move writes `BUF` only at the drained byte, or by an external strategy (R151, R216). -/
theorem Move.buf_cases {s t : State} (h : Move s t) :
    t.buf = s.buf ∨ (s.seq.phase = .rDrain ∧ ∃ b, t.buf = Memory.write s.buf s.seq.i.toNat b) ∨
      s.seq.phase = .ext := by
  cases h with
  | rDrainLast hp | rDrainMore hp => exact .inr (.inl ⟨hp, _, rfl⟩)
  | ext hp => exact .inr (.inr hp)
  | _ => exact .inl (by simp)

/-- A byte that a write changes is the byte written. -/
theorem eq_of_read_write_ne {m : Memory} {a a' : Nat} {b : Byte} (hm : Memory.wf m = true)
    (h : Memory.read (Memory.write m a b) a' ≠ Memory.read m a') : a' = a :=
  not_not.1 fun hne => h (read_write_ne hm hne b)

/-- Settles O45: of the moves only the drain and an external strategy write `BUF`, and of the inputs only the host's
write. -/
theorem bufChangesOnlyByDrainAndHost : Obligations.BufChangesOnlyByDrainAndHost := by
  intro s t a hwf hstep hne
  cases step_next hstep with
  | command _ _ he =>
    obtain ⟨-, -, hbuf, -⟩ := (exec_next he).frame
    exact absurd (congrArg (Memory.read · a) hbuf) hne
  | micro _ _ hm =>
    rcases microStep_next hm with ⟨rfl, -⟩ | hm
    · exact absurd rfl hne
    · rcases hm.buf_cases with hbuf | ⟨hp, b, hbuf⟩ | hp
      · exact absurd (congrArg (Memory.read · a) hbuf) hne
      · rw [hbuf] at hne
        exact .inl ⟨hp, eq_of_read_write_ne hwf hne⟩
      · exact .inr (.inl hp)
  | clock _ _ _ hf =>
    rcases finishSetspd_next hf with ⟨-, rfl⟩ | ⟨v, vs, -, -, rfl⟩
    · exact absurd rfl hne
    · exact absurd rfl hne
  | @hostWrite i b rest hi =>
    obtain rfl := eq_of_read_write_ne hwf hne
    exact .inr (.inr ⟨i, b, rest, hi, rfl, read_write_self hwf i.toNat b⟩)
  | answer | strategyResult | reset => exact absurd rfl hne

end Sys2Proof.Machine
end

section
/-! PROOFS. The command port and the inputs (R52, R60, R149, R243): which input a step takes, and what a step does
with a command that runs, with one that waits, and with no command. -/

namespace Sys2Proof.Machine

/-! ### A SETSPD that waits -/

/-- No command is taken while SETSPD waits (R60 (c)). -/
theorem accepts_of_clockCall {s : State} {eff : Word} (h : s.clockCall = some eff) (ctx : Context)
    (w : CmdWord) : s.accepts ctx w = false := by
  simp [State.accepts, h]

/-- With nothing pending but commands, a waiting SETSPD leaves the step to the block. -/
theorem step_of_clockCall {s : State} {eff : Word} (h : s.clockCall = some eff)
    (hi : ∀ x ∈ s.inputs, ∃ ctx w, x = .command ctx w) : step s = s.blockStep := by
  refine step_none (nextInput_none fun x hx => ?_)
  obtain ⟨ctx, w, rfl⟩ := hi x hx
  rw [takes_command]
  exact accepts_of_clockCall h ctx w

/-- A step that leaves a state as it is does so for ever. -/
theorem run_of_step_self {M : Host.Core} {s : M.State} (h : M.step s = .next s) (k : Nat) :
    M.run k s = .next s := by
  induction k with
  | zero => rfl
  | succ k ih => simp only [Host.Core.run, h, ih]

/-- The argument of `T.set_clock`, as a number of hertz (R120). -/
theorem clockHz_eq_ofNat (eff : Word) : clockHz eff = BitVec.ofNat 32 (eff.toNat * 1000) := by
  rw [← toNat_clockHz, BitVec.ofNat_toNat, BitVec.setWidth_eq]

/-- Settles O60: no command is taken, so that the block moves, and its move is the call that is outstanding, the wait
or the return of `T.set_clock`. -/
theorem clockCallHoldsTheBlock : Obligations.ClockCallHoldsTheBlock := by
  intro s eff hk hi
  have hstep := step_of_clockCall hk hi
  refine ⟨fun hc => ?_, fun hc hr k => run_of_step_self (M := Sys2Proof.core) ?_ k, fun v vs hc hr => ?_⟩
  · exact hstep.trans (blockStep_none (.inr (Option.isSome_iff_ne_none.2 hc)))
  · exact hstep.trans ((blockStep_some hc hk).trans (finishSetspd_waits (.inr hr) eff))
  · rw [hstep, blockStep_some hc hk, finishSetspd_cons hc hr, clockHz_eq_ofNat]
    rfl

/-! ### A command that runs -/

/-- The command of a word that is taken runs (R70, R79). -/
theorem step_runs {s : State} {ctx : Context} {w : CmdWord} {i : Instr} {rest : List Input}
    (hd : decode w = .ok i) (h : s.nextInput = some (.command ctx w, rest)) :
    step s = exec i { s with inputs := rest } := by
  rw [step_some h, State.inputTurn, State.acceptCommand, hd]

/-- A command clashes with no outstanding call exactly when it is no SETSPD, and no INIT of the slot of a `W_BEGIN`
that has still to set the cache (R149, R191). -/
theorem not_clashes_iff (s : State) (i : Instr) :
    (∀ c, s.call = some c → s.clashes c i = false) ↔
      ∀ c, s.call = some c → (∀ a, i ≠ .setspd a) ∧
        ∀ a b, i = .init s.seq.d a b → s.seq.phase = .wBegin → c.next = .skip := by
  refine forall₂_congr fun c _ => ?_
  rw [← Bool.not_eq_true, clashes_iff]
  push Not
  rfl

/-- A legal word whose command clashes with an outstanding call is held back. -/
theorem holdsBack_of_clash {s : State} {w : CmdWord} {i : Instr} (hd : decode w = .ok i)
    (hw : i.wellFormed s.params.nDesc = true)
    (h : ¬ ∀ c, s.call = some c → s.clashes c i = false) : s.holdsBack w = true := by
  push Not at h
  obtain ⟨c, hc, hx⟩ := h
  exact (holdsBack_iff s w).2 ⟨c, i, hc, hd, hw, by simpa using hx⟩

/-- Settles O6: the port accepts a command that has its place, and holds back one that has none, so that the block
moves or the input behind is taken. -/
theorem stepRunsTheDecodedCommand : Obligations.StepRunsTheDecodedCommand := by
  intro s w i rest hd hk
  simp only [← not_clashes_iff]
  refine ⟨fun hruns => ?_, fun ctx hi => step_runs hd hi, fun ctx hi hheld => ?_⟩
  · have taken {ctx : Context} (hi : s.inputs = .command ctx w :: rest)
        (hm : ctx = .main → s.seq.phase = .idle) : step s = exec i { s with inputs := rest } :=
      step_runs hd (nextInput_head hi (by
        rw [takes_command, accepts_iff]
        exact ⟨hk, hm, holdsBack_of_not_clashes hd hruns⟩))
    exact ⟨fun hi => taken hi nofun, fun hi hp => taken hi fun _ => hp⟩
  · have ha : s.accepts ctx w = false := by
      rw [← Bool.not_eq_true, accepts_iff]
      rintro ⟨-, hm, hb⟩
      rcases hheld with ⟨hc, hp⟩ | ⟨hc, hw⟩
      · exact hp (hm hc)
      · simp [holdsBack_of_clash hd hw hc] at hb
    refine ⟨fun hw => ?_, fun hw x xs hrest hx => ?_⟩
    · rw [step_none (nextInput_held hi (by rwa [takes_command]) hw), blockStep_none (.inl hk)]
    · subst hrest
      refine nextInput_behind hi ha ?_ hw
      cases x with
      | command ctx' w' =>
        obtain ⟨hne, hacc⟩ := hx ctx' w' rfl
        simp [State.takes, hacc, hne]
      | hostWrite | micro | answer | strategyResult | reset => rfl

/-! ### No command -/

/-- Settles O7: a step with no command is what its input does, the block's own move with none. -/
theorem stepWithoutACommand : Obligations.StepWithoutACommand := by
  intro s rest
  refine ⟨fun h => ?_, fun i b hi => step_some hi, fun v hi => step_some hi,
    fun r hi => step_some hi, nextInput_nil, fun x hi hx => nextInput_head hi ?_⟩
  · have hm : s.clockCall = none ∨ s.call.isSome = true := h.imp_right Option.isSome_iff_ne_none.2
    exact ⟨fun hi => (step_none hi).trans (blockStep_none hm),
      fun hi => (step_some hi).trans (blockStep_none (s := { s with inputs := rest }) hm)⟩
  · cases x with
    | command ctx w => exact absurd rfl (hx ctx w)
    | hostWrite | micro | answer | strategyResult | reset => rfl

end Sys2Proof.Machine
end

section
/-! PROOFS. Command words (R70 to R73, R79): decoding and encoding are inverse, the rows of the opcode table cover
the words that decode, and the fields of a word say whether it is illegal. -/

namespace Sys2Proof

/-! ### Decoding and encoding -/

/-- Settles O2: by the round trip of each command. -/
theorem decodeOfEncodeIsTheCommand : Obligations.DecodeOfEncodeIsTheCommand := by
  intro i
  cases i with
  | init d a b => exact Laws.RoundTrip.init d a b
  | setaddr d a => exact Laws.RoundTrip.setaddr d a
  | setrsz d a => exact Laws.RoundTrip.setrsz d a
  | bindw d a => exact Laws.RoundTrip.bindw d a
  | bindr d a => exact Laws.RoundTrip.bindr d a
  | setspd a => exact Laws.RoundTrip.setspd a
  | settmo a => exact Laws.RoundTrip.settmo a
  | setrty a => exact Laws.RoundTrip.setrty a
  | isbusy => exact Laws.RoundTrip.isbusy
  | write d a b => exact Laws.RoundTrip.write d a b
  | read d a b => exact Laws.RoundTrip.read d a b

/-- A word is made of the values its fields have. -/
theorem commandWord_eq {w : CmdWord} {op : BitVec 4} {d : Slot} {a b : Word} (hop : opField w = op)
    (hd : dField w = d) (ha : aField w = a) (hb : bField w = b) : commandWord op d a b = w := by
  rw [← hop, ← hd, ← ha, ← hb, commandWord_fields]

/-- Settles O3: an accepted word has the command's opcode, and zero where its format has no operand. -/
theorem encodeOfDecodedWordIsTheWord : Obligations.EncodeOfDecodedWordIsTheWord := by
  intro w i h
  have opcode {op : BitVec 4} (hop : (opField w).toNat = op.toNat) : opField w = op :=
    BitVec.eq_of_toNat_eq hop
  unfold decode at h
  split at h
  case h_1 hop | h_9 hop | h_10 hop => cases h; exact commandWord_eq (opcode hop) rfl rfl rfl
  case h_4 hop =>
    split at h
    · next hb => cases h; exact commandWord_eq (opcode hop) rfl rfl hb
    split at h
    · next hb => cases h; exact commandWord_eq (opcode hop) rfl rfl hb
    · cases h
  case h_11 => cases h
  all_goals
    obtain ⟨hz, rfl⟩ := acceptIfZero_ok.1 h
    simp only [Bool.and_eq_true, beq_iff_eq] at hz
  case h_2 hop | h_3 hop => exact commandWord_eq (opcode hop) rfl rfl hz
  case h_5 hop | h_6 hop | h_7 hop =>
    obtain ⟨hd, hb⟩ := hz
    exact commandWord_eq (opcode hop) hd rfl hb
  case h_8 hop =>
    obtain ⟨⟨hd, ha⟩, hb⟩ := hz
    exact commandWord_eq (opcode hop) hd ha hb

/-- The words that decode to a command are the commands' words, one each. -/
theorem decode_eq_ok_iff (w : CmdWord) (i : Instr) : decode w = .ok i ↔ encode i = w :=
  ⟨encodeOfDecodedWordIsTheWord w i, fun h => h ▸ decodeOfEncodeIsTheCommand i⟩

/-! ### The opcode table -/

/-- Two words are one when their fields are (R71). -/
theorem word_eq_iff (w v : CmdWord) :
    w = v ↔ opField w = opField v ∧ dField w = dField v ∧ aField w = aField v ∧ bField w = bField v := by
  refine ⟨fun h => h ▸ ⟨rfl, rfl, rfl, rfl⟩, fun ⟨hop, hd, ha, hb⟩ => ?_⟩
  rw [← commandWord_eq hop hd ha hb, commandWord_fields]

/-- A row fixes the bits of its mask, field by field. -/
theorem covers_iff (r : OpcodeRow) (w : CmdWord) :
    r.covers w = true ↔
      opField w &&& opField r.mask = opField r.matchBits ∧
        dField w &&& dField r.mask = dField r.matchBits ∧
          aField w &&& aField r.mask = aField r.matchBits ∧
            bField w &&& bField r.mask = bField r.matchBits := by
  rw [OpcodeRow.covers, beq_iff_eq, word_eq_iff]
  simp only [opField, dField, aField, bField, BitVec.extractLsb'_and]

/-- The row of a command covers its word (R73). -/
theorem row_covers_encode (i : Instr) : i.row.covers (encode i) = true := by
  rw [covers_iff]
  cases i
  all_goals
    simp only [encode, Instr.row, opField_commandWord, dField_commandWord, aField_commandWord,
      bField_commandWord]
    simp [opField, dField, aField, bField]

/-- A word that a row covers is a command's, for the fields that the row leaves free are operands (R73). -/
theorem exists_encode_of_row_covers {i : Instr} {op : BitVec 4} {d : Slot} {a b : Word}
    (h : i.row.covers (commandWord op d a b) = true) : ∃ j : Instr, encode j = commandWord op d a b := by
  have fixed4 (x : BitVec 4) : x &&& 15#4 = x := BitVec.and_allOnes
  have fixed16 (x : Word) : x &&& 65535#16 = x := BitVec.and_allOnes
  rw [covers_iff] at h
  simp only [opField_commandWord, dField_commandWord, aField_commandWord, bField_commandWord] at h
  obtain ⟨hop, hd, ha, hb⟩ := h
  -- One call of `simp` for the row and the arithmetic on its bits gives a proof that the kernel does not get through.
  cases i
  all_goals
    simp only [Instr.row] at hop hd ha hb
    simp only [opField, dField, aField, bField, BitVec.ofNat_eq_ofNat, BitVec.reduceExtractLsb',
      BitVec.extractLsb'_zero, BitVec.and_zero, fixed4, fixed16] at hop hd ha hb
    subst_vars
  case init => exact ⟨.init d a b, rfl⟩
  case setaddr => exact ⟨.setaddr d a, rfl⟩
  case setrsz => exact ⟨.setrsz d a, rfl⟩
  case bindw => exact ⟨.bindw d a, rfl⟩
  case bindr => exact ⟨.bindr d a, rfl⟩
  case setspd => exact ⟨.setspd a, rfl⟩
  case settmo => exact ⟨.settmo a, rfl⟩
  case setrty => exact ⟨.setrty a, rfl⟩
  case isbusy => exact ⟨.isbusy, rfl⟩
  case write => exact ⟨.write d a b, rfl⟩
  case read => exact ⟨.read d a b, rfl⟩

/-- The rows of the table are those of the commands. -/
theorem mem_opcodeTable_iff (r : OpcodeRow) : r ∈ opcodeTable ↔ ∃ i : Instr, i.row = r := by
  constructor
  · intro h
    simp only [opcodeTable, List.cons_append, List.nil_append, List.mem_cons, List.not_mem_nil,
      or_false] at h
    rcases h with h | h | h | h | h | h | h | h | h | h | h <;> exact ⟨_, h.symm⟩
  · rintro ⟨i, rfl⟩
    cases i <;> simp [opcodeTable, Instr.row]

/-- Settles O4: a word decodes when it is a command's, and so when a command's row covers it. -/
theorem decoderAcceptsTheTablesWords : Obligations.DecoderAcceptsTheTablesWords := by
  intro w
  simp only [decode_eq_ok_iff, mem_opcodeTable_iff]
  refine ⟨⟨?_, ?_⟩, fun i hi => ⟨⟨i, rfl⟩, hi ▸ row_covers_encode i⟩⟩
  · rintro ⟨i, rfl⟩
    exact ⟨_, ⟨i, rfl⟩, row_covers_encode i⟩
  · rintro ⟨_, ⟨i, rfl⟩, h⟩
    rw [← commandWord_fields w] at h ⊢
    exact exists_encode_of_row_covers h

/-! ### The words of the spec -/

/-- Settles O1: by evaluating the decoder at each word. -/
theorem specWordsDecode : Obligations.SpecWordsDecode := by
  unfold Obligations.SpecWordsDecode
  decide

/-! ### Illegal words -/

/-- The illegal words of a block with `nDesc` slots, by the conditions (a) to (d) of R79 on the fields of the word. -/
def IllegalWord (nDesc : Nat) (w : CmdWord) : Prop :=
  0xA#4 ≤ opField w ∨
  (opField w = 0x3#4 ∧ 1#16 < bField w) ∨
  ((opField w = 0x1#4 ∨ opField w = 0x2#4) ∧ bField w ≠ 0#16) ∨
  ((opField w = 0x4#4 ∨ opField w = 0x5#4 ∨ opField w = 0x6#4) ∧
    (dField w ≠ 0#4 ∨ bField w ≠ 0#16)) ∨
  (opField w = 0x7#4 ∧ (dField w ≠ 0#4 ∨ aField w ≠ 0#16 ∨ bField w ≠ 0#16)) ∨
  ((opField w ≤ 0x3#4 ∨ opField w = 0x8#4 ∨ opField w = 0x9#4) ∧ nDesc ≤ (dField w).toNat)

/-- What holds of every command that `acceptIfZero` gives holds of its one command, if it is given. -/
theorem forall_acceptIfZero_iff {zero : Bool} {j : Instr} {p : Instr → Prop} :
    (∀ i, acceptIfZero zero j = .ok i → p i) ↔ (zero = true → p j) := by
  simp only [acceptIfZero_ok]
  exact ⟨fun h hz => h j ⟨hz, rfl⟩, fun h i ⟨hz, hi⟩ => hi ▸ h hz⟩

/-- A word is illegal when it decodes to no command, or to one that names a slot that does not exist (R79). -/
theorem illegalWord_iff (nDesc : Nat) (w : CmdWord) :
    IllegalWord nDesc w ↔ ∀ i, decode w = .ok i → i.wellFormed nDesc = false := by
  unfold IllegalWord decode
  generalize opField w = op, dField w = d, aField w = a, bField w = b
  have opcode {k : BitVec 4} (hop : op.toNat = k.toNat) : op = k := BitVec.eq_of_toNat_eq hop
  split
  case h_1 hop => simp [@opcode 0x0 hop, Instr.wellFormed]
  case h_2 hop =>
    rw [@opcode 0x1 hop, forall_acceptIfZero_iff]
    simp [Instr.wellFormed, imp_iff_not_or]
  case h_3 hop =>
    rw [@opcode 0x2 hop, forall_acceptIfZero_iff]
    simp [Instr.wellFormed, imp_iff_not_or]
  case h_4 hop =>
    rw [@opcode 0x3 hop]
    split_ifs with h0 h1
    · simp [h0, Instr.wellFormed]
    · simp [h1, Instr.wellFormed]
    · have hb : 1#16 < b := by bv_omega
      simp [hb]
  case h_5 hop =>
    rw [@opcode 0x4 hop, forall_acceptIfZero_iff]
    simp [Instr.wellFormed, imp_iff_not_or]
  case h_6 hop =>
    rw [@opcode 0x5 hop, forall_acceptIfZero_iff]
    simp [Instr.wellFormed, imp_iff_not_or]
  case h_7 hop =>
    rw [@opcode 0x6 hop, forall_acceptIfZero_iff]
    simp [Instr.wellFormed, imp_iff_not_or]
  case h_8 hop =>
    rw [@opcode 0x7 hop, forall_acceptIfZero_iff]
    simp [Instr.wellFormed, imp_iff_not_or, or_assoc]
  case h_9 hop => simp [@opcode 0x8 hop, Instr.wellFormed]
  case h_10 hop => simp [@opcode 0x9 hop, Instr.wellFormed]
  case h_11 =>
    have hop : 0xA#4 ≤ op := by
      simp only [imp_false] at *
      bv_omega
    simp [hop]

end Sys2Proof
end

section
/-! PROOFS. The words that the command port refuses (R79, R236): what refuses a step, and that a command which is held
back is not refused. -/

namespace Sys2Proof.Machine

/-- Command words are refused exactly when they are illegal (R79). -/
theorem acceptCommand_refused_iff (w : CmdWord) (s : State) :
    (∃ why, s.acceptCommand w = .refused why) ↔ IllegalWord s.params.nDesc w := by
  rw [illegalWord_iff]
  cases hd : decode w with
  | error why => simp [State.acceptCommand, hd]
  | ok i =>
    rcases exec_answers i s with ⟨hw, t, he⟩ | ⟨d, hs, hn, he⟩
    · simp [State.acceptCommand, hd, he, hw]
    · have hw : i.wellFormed s.params.nDesc = false :=
        Bool.eq_false_iff.2 fun hw => hn ((wellFormed_iff i _).1 hw d hs)
      simp [State.acceptCommand, hd, he, hw]

theorem finishSetspd_ne_refused (s : State) (eff : Word) (why : Refusal) :
    s.finishSetspd eff ≠ .refused why := by
  unfold State.finishSetspd State.tSetClock
  split <;> exact nofun

/-- Only `EXT` refuses a move of the block (R151). -/
theorem blockStep_refused {s : State} {why : Refusal} (h : s.blockStep = .refused why) :
    s.seq.phase = .ext := by
  unfold State.blockStep at h
  split at h
  · exact absurd h (finishSetspd_ne_refused s _ why)
  · exact (microStep_refused h).1
  · exact (microStep_refused h).1

/-- Everything that refuses a step: the command that is taken, or phase `EXT` (R79, R151). -/
theorem step_refused {s : State} {why : Refusal} (h : step s = .refused why) :
    (∃ ctx w rest, s.nextInput = some (.command ctx w, rest)) ∨ s.seq.phase = .ext := by
  cases hi : s.nextInput with
  | none =>
    rw [step_none hi] at h
    exact .inr (blockStep_refused h)
  | some p =>
    obtain ⟨x, rest⟩ := p
    rw [step_some hi] at h
    cases x with
    | command ctx w => exact .inl ⟨ctx, w, rest, rfl⟩
    | micro =>
      have hp : ({ s with inputs := rest } : State).seq.phase = .ext := blockStep_refused h
      exact .inr hp
    | hostWrite | answer | strategyResult | reset => cases h

/-- No input of a context that waits is taken. -/
theorem firstTaken_not_mem_held {s : State} {held : List Context} {l rest : List Input} {ctx : Context}
    {w : CmdWord} (h : s.firstTaken held l = some (.command ctx w, rest)) : ctx ∉ held := by
  induction l generalizing held rest with
  | nil => cases h
  | cons x l ih =>
    unfold State.firstTaken at h
    split at h
    · next ht => cases h; simpa using (Bool.and_eq_true_iff.1 ht).2
    · obtain ⟨⟨y, ys⟩, hp, he⟩ := Option.map_eq_some_iff.1 h
      cases he
      exact fun hm => ih hp (List.mem_append_right _ hm)

/-- A context gives its commands in order: behind one that waits only the other context's is taken. -/
theorem nextInput_command_ne {s : State} {ctx ctx' : Context} {w w' : CmdWord} {rest rest' : List Input}
    (hi : s.inputs = .command ctx w :: rest) (ha : s.accepts ctx w = false)
    (h : s.nextInput = some (.command ctx' w', rest')) : ctx' ≠ ctx := by
  unfold State.nextInput at h
  rw [hi] at h
  simp only [State.firstTaken, takes_command, ha, Bool.false_eq_true, if_false] at h
  split at h
  · obtain ⟨⟨y, ys⟩, hp, he⟩ := Option.map_eq_some_iff.1 h
    cases he
    simpa [Input.contexts] using firstTaken_not_mem_held hp
  · cases h

/-- A step in which a command is held back refuses nothing: the other context waits for its transaction, and the
micro-step in progress is not that of `EXT`. -/
theorem step_ne_refused_of_holdsBack {s : State} {ctx : Context} {w : CmdWord} {rest : List Input}
    (hi : s.inputs = .command ctx w :: rest) (hm : ctx = .main → s.seq.phase = .idle) (hf : s.callFits)
    (hb : s.holdsBack w = true) (why : Refusal) : step s ≠ .refused why := by
  intro h
  obtain ⟨c, i, hc, -⟩ := (holdsBack_iff s w).1 hb
  have hidle : s.seq.phase ≠ .idle := fun hp => not_fits_of_phase (.inl hp) c (hf c hc)
  have hext : s.seq.phase ≠ .ext := fun hp =>
    not_fits_of_phase (.inr (.inr (.inl hp))) c (hf c hc)
  rcases step_refused h with ⟨ctx', w', rest', hn⟩ | hp
  · have ha : s.accepts ctx w = false := by
      rw [← Bool.not_eq_true, accepts_iff, hb]
      exact fun ha => nomatch ha.2.2
    obtain ⟨-, hm', -⟩ := (accepts_iff s ctx' w').1 (nextInput_accepts hn)
    have hne := nextInput_command_ne hi ha hn
    cases ctx with
    | main => exact hidle (hm rfl)
    | reentrant =>
      cases ctx' with
      | main => exact hidle (hm' rfl)
      | reentrant => exact hne rfl
  · exact hext hp

/-- Settles O5: a word that is taken is refused when it is illegal; one that is held back is legal. -/
theorem illegalWordsAreRefused : Obligations.IllegalWordsAreRefused := by
  intro s ctx w rest hi hk hm hf
  change _ ↔ IllegalWord s.params.nDesc w
  cases hb : s.holdsBack w with
  | false =>
    rw [step_command hi ((accepts_iff s ctx w).2 ⟨hk, hm, hb⟩)]
    exact acceptCommand_refused_iff w { s with inputs := rest }
  | true =>
    obtain ⟨c, i, -, hd, hw, -⟩ := (holdsBack_iff s w).1 hb
    refine iff_of_false (fun ⟨why, h⟩ => step_ne_refused_of_holdsBack hi hm hf hb why h) fun h => ?_
    rw [(illegalWord_iff _ w).1 h i hd] at hw
    cases hw

end Sys2Proof.Machine
end

section
/-! PROOFS. One response for each command (R74): a command responds in its own step or at the release. -/

namespace Sys2Proof.Machine

@[simp] theorem applyExt_responses (r : ExtResult) (s : State) :
    (State.applyExt r s).responses = s.responses := by simp [applyExt_eq]

/-- Of the moves only the release responds, with the status it sets (R74, R146). -/
theorem Move.responses_eq {s t : State} (h : Move s t) :
    t.responses = if s.seq.phase = .release then
      s.responses ++ [statusWord (statusOfAck s.seq.ack)] else s.responses := by
  cases h with
  | release hp => simp [hp, State.release]
  | calls hn hr hc => simp [(phase_of_stepCall hc).2]
  | zeroCount hp hn => rcases hp with hp | hp <;> simp [hp]
  | _ => simp [*]

/-- Settles O23: by the outcomes of a command, and by the moves. -/
theorem oneResponseForEachCommand : Obligations.OneResponseForEachCommand := by
  refine ⟨fun i s hw => ?_, fun s t h => ?_⟩
  · obtain ⟨-, t, he⟩ | ⟨d, hd, hn, -⟩ := exec_answers i s
    · refine ⟨t, he, ?_⟩
      cases exec_next he with
      | admitted _ d dir a b _ hb hi =>
        have htransaction : i.isTransaction = true := by rcases hi with ⟨rfl, -⟩ | ⟨rfl, -⟩ <;> rfl
        rw [if_pos ⟨htransaction, hb⟩]
        exact ⟨rfl, rfl⟩
      | rejected _ d a b _ hb hi => rcases hi with rfl | rfl <;> simp [hb]
      | setspd a hc hr => simp [Instr.isTransaction, hc, hr]
      | setspdWaits a hr =>
        have hwaits : s.call ≠ none ∨ s.replies = [] := hr.imp_left Option.isSome_iff_ne_none.1
        rw [if_neg (by simp [Instr.isTransaction]), if_pos ⟨⟨a, rfl⟩, hwaits⟩]
        exact ⟨rfl, nofun⟩
      | _ => simp [Instr.isTransaction]
    · exact absurd ((wellFormed_iff i _).1 hw d hd) hn
  · rcases microStep_next h with ⟨rfl, hwait⟩ | hm
    · have hp : t.seq.phase ≠ .release := by
        intro hp
        simp [hp, State.blocked] at hwait
      rw [if_neg hp]
    · rw [hm.responses_eq]
      split
      · exact ⟨_, rfl⟩
      · rfl

end Sys2Proof.Machine
end

section
/-! PROOFS. The Slave Descriptor commands (R100 to R105): the next state of each, and their common frame. -/

namespace Sys2Proof.Machine

/-! ### Every row of `Command` is a command step -/

/-- The converse of `exec_next`. -/
theorem exec_of_command {i : Instr} {s t : State} (h : Command s i t) : exec i s = .next t := by
  cases h with
  | init d _ _ hd | setrsz d _ hd | bindw d _ hd | bindr d _ hd => exact requireSlot_present hd _
  | setaddr d a hd ha => exact (requireSlot_present hd _).trans (by rw [if_pos ha])
  | setaddrFail d a hd ha => exact (requireSlot_present hd _).trans (by rw [ha]; rfl)
  | setspd a hc hr =>
    exact finishSetspd_cons
      (s := (s.setSpeed (effectiveSpeed s.params a)).setClockCall (some (effectiveSpeed s.params a))) hc hr _
  | setspdWaits a hr =>
    exact finishSetspd_waits
      (s := (s.setSpeed (effectiveSpeed s.params a)).setClockCall (some (effectiveSpeed s.params a))) hr _
  | settmo | setrty | isbusy => rfl
  | admitted _ d dir a b hd hb hi =>
    rcases hi with ⟨rfl, rfl⟩ | ⟨rfl, rfl⟩ <;>
      exact (requireSlot_present hd _).trans (by rw [admission_free hb])
  | rejected _ d a b hd hb hi =>
    rcases hi with rfl | rfl <;> exact (requireSlot_present hd _).trans (by rw [admission_busy hb])

/-! ### The operand ranges of INIT -/

theorem initAddress_eq (s : State) (a : Word) :
    s.initAddress a = if a ≤ 0x7F then a.extractLsb' 0 7 else Config.freeAddress s.draws :=
  if_congr (addressValid_iff a) rfl rfl

theorem countDraw_eq (s : State) (a : Word) :
    s.countDraw a = { s with draws := if a ≤ 0x7F then s.draws else s.draws + 1 } :=
  congrArg (fun n => { s with draws := n }) (if_congr (addressValid_iff a) rfl rfl)

/-! ### The next state of the five commands -/

/-- Slot `d` has new content `x`, the draw counter stands at `n`, and `v` is the response. -/
def State.configured (d : Slot) (x : SlaveDescriptor) (n : Nat) (v : Word) (s : State) : State :=
  { s.setSlot d x with draws := n, responses := s.responses ++ [v] }

@[simp] theorem slot_configured_self (d : Slot) (x : SlaveDescriptor) (n : Nat) (v : Word) (s : State) :
    (s.configured d x n v).slot d = x := slot_setSlot_self d x s

/-- Giving a slot the content it has is to respond only. -/
theorem configured_slot (d : Slot) (v : Word) (s : State) :
    s.configured d (s.slot d) s.draws v = s.respond v := by
  simp [State.configured, State.setSlot, State.slot, State.respond]

/-- The content `y` that a descriptor command gives a slot holding `x`: INIT renews the cache and the status, each
setter keeps every field but its own, and no other command is one (R105). -/
def ConfiguresSlot (x y : SlaveDescriptor) : Instr → Prop
  | .init _ _ _ => y.cache = 0xFFFF ∧ y.status = 0
  | .setaddr _ _ => y = { x with address := y.address }
  | .setrsz _ _ => y = { x with registerSize := y.registerSize }
  | .bindw _ _ => y = { x with wrSel := y.wrSel }
  | .bindr _ _ => y = { x with rdSel := y.rdSel }
  | .setspd _ | .settmo _ | .setrty _ | .isbusy | .write _ _ _ | .read _ _ _ => False

/-- A descriptor command on a slot that exists stores content, counts draws and responds, the same whatever
`bus.busy` is (R105). -/
theorem exec_descriptor {i : Instr} {d : Slot} {s : State} (hd : i.slot? = some d)
    (hi : i.isTransaction = false) (hn : d.toNat < s.params.nDesc) :
    ∃ x n v, ConfiguresSlot (s.slot d) x i ∧
      ∀ busy, exec i (s.setBusy busy) = .next ((s.setBusy busy).configured d x n v) := by
  cases i with
  | init _ a b =>
    cases hd
    exact ⟨s.initSlot a b, (s.countDraw a).draws, 0, ⟨rfl, rfl⟩, fun _ => exec_of_command (.init d a b hn)⟩
  | setaddr _ a =>
    cases hd
    cases ha : addressValid a with
    | true =>
      exact ⟨{ s.slot d with address := storedAddress a }, s.draws, boolWord true, rfl,
        fun busy => exec_of_command (.setaddr (s := s.setBusy busy) d a hn ha)⟩
    | false =>
      exact ⟨s.slot d, s.draws, boolWord false, rfl,
        fun busy => (exec_of_command (.setaddrFail (s := s.setBusy busy) d a hn ha)).trans
          (congrArg _ (configured_slot d (boolWord false) (s.setBusy busy)).symm)⟩
  | setrsz _ a =>
    cases hd
    exact ⟨{ s.slot d with registerSize := storedSize a }, s.draws, boolWord (sizeValid a), rfl,
      fun busy => exec_of_command (.setrsz (s := s.setBusy busy) d a hn)⟩
  | bindw _ a =>
    cases hd
    exact ⟨{ s.slot d with wrSel := a }, s.draws, 0, rfl,
      fun busy => exec_of_command (.bindw (s := s.setBusy busy) d a hn)⟩
  | bindr _ a =>
    cases hd
    exact ⟨{ s.slot d with rdSel := a }, s.draws, 0, rfl,
      fun busy => exec_of_command (.bindr (s := s.setBusy busy) d a hn)⟩
  | setspd | settmo | setrty | isbusy => cases hd
  | write | read => cases hi

/-! ### The obligations -/

/-- Settles O13: what a descriptor command changes is its slot, the draw counter and the responses. -/
theorem descriptorCommandsInCommon : Obligations.DescriptorCommandsInCommon := by
  intro i d s hd hi hn
  obtain ⟨x, n, v, hx, hexec⟩ := exec_descriptor hd hi hn
  refine ⟨s.configured d x n v, hexec s.bus.busy, hexec, rfl, rfl, rfl, rfl, rfl, rfl, rfl, rfl, rfl,
    fun e he => slot_setSlot_ne he x s, fun _ => rfl, ?_⟩
  rw [slot_configured_self]
  cases i <;> exact hx

/-- Settles O8: the next state of INIT, with the checks of its two operands as comparisons. -/
theorem initStoresTheSlot : Obligations.InitStoresTheSlot := by
  intro d a b s hd
  refine ⟨Laws.RoundTrip.init d a b, (exec_of_command (.init d a b hd)).trans ?_⟩
  unfold State.initSlot
  rw [countDraw_eq, initAddress_eq, storedSize_eq]
  rfl

/-- Settles O9: a valid address is stored, and any other stores nothing. -/
theorem setaddrSetsTheAddress : Obligations.SetaddrSetsTheAddress := by
  refine fun d a s hd => ⟨Laws.RoundTrip.setaddr d a, fun ha => ?_, fun ha => ?_⟩
  · exact exec_of_command (.setaddr d a hd ((addressValid_iff a).2 ha))
  · exact exec_of_command (.setaddrFail d a hd ((addressValid_false_iff a).2 ha))

/-- Settles O10: the size stored and the response, on either side of the largest size. -/
theorem setrszSetsTheMode : Obligations.SetrszSetsTheMode := by
  refine fun d a s hd => ⟨Laws.RoundTrip.setrsz d a, fun ha => ?_, fun ha => ?_⟩
  · refine (exec_of_command (.setrsz d a hd)).trans ?_
    rw [(sizeValid_iff a).2 ha, storedSize_eq, if_pos ha]
    rfl
  · refine (exec_of_command (.setrsz d a hd)).trans ?_
    rw [(sizeValid_false_iff a).2 ha, storedSize_eq, if_neg (BitVec.not_le.2 ha)]
    rfl

/-- Settles O11: each select goes to the field of its own direction. -/
theorem bindStoresTheSelect : Obligations.BindStoresTheSelect :=
  fun d a _ hd => ⟨Laws.RoundTrip.bindw d a, Laws.RoundTrip.bindr d a,
    exec_of_command (.bindw d a hd), exec_of_command (.bindr d a hd)⟩

end Sys2Proof.Machine
end

section
/-! PROOFS. The Bus State commands (R120 to R124): the next state of each, and their common frame. -/

namespace Sys2Proof.Machine

/-! ### The operands of SETTMO and SETRTY -/

theorem minWord_eq_ofNat (a b : Word) : minWord a b = BitVec.ofNat 16 (min a.toNat b.toNat) := by
  rw [← toNat_minWord, BitVec.ofNat_toNat, BitVec.setWidth_eq]

/-- The low bits of a clamped operand, which are what a bus field stores (R72). -/
theorem extractLsb'_minWord (k : Nat) (a b : Word) :
    (minWord a b).extractLsb' 0 k = BitVec.ofNat k (min a.toNat b.toNat) := by
  rw [← toNat_minWord]
  rfl

/-! ### The answer of ISBUSY -/

/-- The flag as a word is 0 in `IDLE` and 1 in every other phase (R25). -/
theorem boolWord_busy_of_busyIffInFlight {s : State} (h : s.busyIffInFlight) :
    boolWord s.bus.busy = if s.seq.phase = .idle then 0 else 1 :=
  (if_congr h rfl rfl).trans (ite_not _ _ _)

/-! ### What the bus commands have in common -/

section
variable {i : Instr} {s t : State}

/-- A command other than SETSPD calls no transport primitive (R105, R124, R143). -/
theorem Command.transport_eq (h : Command s i t) (hi : ∀ a, i ≠ .setspd a) :
    t.trace = s.trace ∧ t.replies = s.replies ∧ t.clockCall = s.clockCall := by
  cases h with
  | setspd a | setspdWaits a => exact absurd rfl (hi a)
  | _ => exact ⟨rfl, rfl, rfl⟩

/-- A command that names no slot leaves the slots, the flag and the sequencer as they are (R124). -/
theorem Command.frame_of_slot?_none (h : Command s i t) (hi : i.slot? = none) :
    t.bus.busy = s.bus.busy ∧ t.seq = s.seq ∧ t.desc = s.desc ∧ t.draws = s.draws := by
  cases h with
  | setspd | setspdWaits | settmo | setrty | isbusy => exact ⟨rfl, rfl, rfl, rfl⟩
  | admitted _ _ _ _ _ _ _ hw => rcases hw with ⟨rfl, -⟩ | ⟨rfl, -⟩ <;> cases hi
  | rejected _ _ _ _ _ _ hw => rcases hw with rfl | rfl <;> cases hi
  | _ => cases hi

/-- A command that names no slot does the same whatever `bus.busy` is, ISBUSY apart, which answers it (R124). -/
theorem Command.setBusy_of_slot?_none (h : Command s i t) (hi : i.slot? = none) (hne : i ≠ .isbusy)
    (busy : Bool) : Command (s.setBusy busy) i (t.setBusy busy) := by
  cases h with
  | setspd a hc hr => exact .setspd (s := s.setBusy busy) a hc hr
  | setspdWaits a hr => exact .setspdWaits (s := s.setBusy busy) a hr
  | settmo a => exact .settmo (s := s.setBusy busy) a
  | setrty a => exact .setrty (s := s.setBusy busy) a
  | isbusy => exact absurd rfl hne
  | admitted _ _ _ _ _ _ _ hw => rcases hw with ⟨rfl, -⟩ | ⟨rfl, -⟩ <;> cases hi
  | rejected _ _ _ _ _ _ hw => rcases hw with rfl | rfl <;> cases hi
  | _ => cases hi

end

/-- A command that names no slot completes in one step (R124). -/
theorem exec_of_slot?_none {i : Instr} (hi : i.slot? = none) (s : State) : ∃ t, exec i s = .next t := by
  obtain ⟨-, ht⟩ | ⟨d, hd, -⟩ := exec_answers i s
  · exact ht
  · rw [hi] at hd
    cases hd

/-! ### The obligations -/

/-- Settles O14: the call of `T.set_clock` returns, or waits with the speed stored. -/
theorem setspdSetsTheSpeed : Obligations.SetspdSetsTheSpeed := by
  refine fun a s => ⟨Laws.RoundTrip.setspd a, fun eff heff => ?_⟩
  obtain rfl : eff = effectiveSpeed s.params a := heff
  refine ⟨fun v vs hc hr => ?_, fun hr => ?_, ?_⟩
  · rw [exec_of_command (.setspd a hc hr), clockHz_eq_ofNat]
    rfl
  · exact exec_of_command (.setspdWaits a (hr.imp_left Option.isSome_iff_ne_none.2))
  · rw [← clockHz_eq_ofNat]
    exact toNat_clockHz _

/-- Settles O15: the clamped operand is at most 500, and its low 9 bits are what is stored. -/
theorem settmoClampsTheTimeout : Obligations.SettmoClampsTheTimeout := by
  refine fun a s => ⟨Laws.RoundTrip.settmo a, (exec_of_command (.settmo a)).trans ?_⟩
  rw [effectiveTimeout, extractLsb'_minWord, minWord_eq_ofNat]
  rfl

/-- Settles O16: the clamped operand is at most 8, and its low 4 bits are what is stored. -/
theorem setrtyClampsTheRetries : Obligations.SetrtyClampsTheRetries := by
  refine fun a s => ⟨Laws.RoundTrip.setrty a, (exec_of_command (.setrty a)).trans ?_⟩
  rw [effectiveRetries, extractLsb'_minWord, minWord_eq_ofNat]
  rfl

/-- Settles O17: the response is the flag, which says the phase where R25 holds. -/
theorem isbusyAnswersTheFlag : Obligations.IsbusyAnswersTheFlag := by
  refine fun s => ⟨Laws.RoundTrip.isbusy, exec_of_command .isbusy, fun h => ?_⟩
  rw [exec_of_command .isbusy, boolWord_busy_of_busyIffInFlight h]
  rfl

/-- Settles O18: by what a command step keeps, and what it does with another busy flag. -/
theorem busCommandsInCommon : Obligations.BusCommandsInCommon := by
  intro i s hi
  obtain ⟨t, he⟩ := exec_of_slot?_none hi s
  have h : Command s i t := exec_next he
  obtain ⟨hparams, hcall, hbuf, hinputs, hext⟩ := h.frame
  obtain ⟨hbusy, hseq, hdesc, hdraws⟩ := h.frame_of_slot?_none hi
  refine ⟨t, he, fun hne busy => exec_of_command (h.setBusy_of_slot?_none hi hne busy), hbusy, hseq, hcall,
    hparams, hinputs, hext, hdraws, fun e => ?_, fun a => by rw [hbuf], fun hne => ?_, h.timeout_eq,
    h.retries_eq⟩
  · unfold State.slot
    rw [hdesc]
  · obtain ⟨htrace, hreplies, hclock⟩ := h.transport_eq hne
    exact ⟨htrace, hreplies, hclock, h.speed_eq hne⟩

end Sys2Proof.Machine
end

section
/-! PROOFS. Admission (R143) and the micro-steps of the sequencer outside the default strategies (R144 to R146,
R151). -/

namespace Sys2Proof.Machine

/-! ### Admission -/

/-- Settles O19: WRITE and READ both run the admission, which loads the sequencer when the flag is clear. -/
theorem admissionTakesTheLock : Obligations.AdmissionTakesTheLock := fun d a b _ hd hb =>
  ⟨Laws.RoundTrip.write d a b, Laws.RoundTrip.read d a b,
    exec_of_command (.admitted _ d .write a b hd hb (.inl ⟨rfl, rfl⟩)),
    exec_of_command (.admitted _ d .read a b hd hb (.inr ⟨rfl, rfl⟩))⟩

/-- Settles O21: a transaction command is admitted, and then no slot changes, or rejected, and then the status of
its slot does. -/
theorem admissionFrame : Obligations.AdmissionFrame := by
  intro i d s t hd hi he
  cases exec_next he with
  | admitted _ d' dir a b _ hb hw =>
    exact ⟨fun _ _ => rfl, rfl, rfl, rfl, rfl, fun _ => rfl, rfl, rfl, rfl, rfl, rfl, rfl, rfl, rfl,
      fun _ => rfl, fun h => by simp [hb] at h, rfl, rfl⟩
  | rejected _ d' a b _ hb hw =>
    obtain rfl : d' = d := by rcases hw with rfl | rfl <;> exact Option.some.inj hd
    refine ⟨fun e hne => ?_, ?_, rfl, rfl, rfl, fun _ => rfl, rfl, rfl, rfl, rfl, rfl, rfl, rfl, rfl,
      fun h => by simp [hb] at h, fun _ => ⟨rfl, rfl⟩, rfl, rfl⟩
    · simp [hne]
    · simp
  | _ => cases hi

/-! ### Dispatch, external strategies, retry and release -/

/-- Settles O24: the dispatch is the micro-step of `ATT_START`. -/
theorem attStartDispatches : Obligations.AttStartDispatches :=
  fun _ hp => microStep_of_move (.attStart hp)

theorem hasExt_iff (p : Params) (sel : Word) : p.hasExt sel = true ↔ sel ∈ p.extSelects := by
  simp [Params.hasExt]

/-- Without a relation for the select, `EXT` is refused (R151). -/
theorem microStep_ext_absent {s : State} (hp : s.seq.phase = .ext)
    (hx : s.seq.sel ∉ s.params.extSelects) :
    s.microStep = .refused (.externalStrategyAbsent s.seq.sel) := by
  simp only [State.microStep, hp, State.microExt]
  exact if_neg fun h => hx ((hasExt_iff _ _).1 h)

/-- Settles O33: by whether the select has a relation. -/
theorem externalStrategyRunsOrIsRefused : Obligations.ExternalStrategyRunsOrIsRefused := by
  refine fun s hp => ⟨microStep_ext_absent hp, fun r rs hx hr => ?_⟩
  rw [microStep_of_move (.ext hp ((hasExt_iff _ _).2 hx) hr), applyExt_eq]
  rfl

/-- Settles O34: by whether an attempt is left. -/
theorem attFailRetriesOrGivesUp : Obligations.AttFailRetriesOrGivesUp := by
  refine fun s hp => ⟨fun h0 => microStep_of_move (.exhausted hp h0), fun v vs h0 hn hr => ?_⟩
  rw [microStep_of_move (.retry hp (stepCall_attFail hp h0) hr), hn]
  cases s
  cases hn
  rfl

/-- Settles O35: the status of a release and its response, by the result of the transaction. -/
theorem releaseEndsTheTransaction : Obligations.ReleaseEndsTheTransaction := by
  intro s hp
  rw [microStep_of_move (.release hp)]
  unfold State.release
  cases s.seq.ack <;> rfl

end Sys2Proof.Machine
end

section
/-! PROOFS. The phase table (R150), the count of the retries (R147) and the end of every default transaction
(R147 (d), (e), R278). -/

namespace Sys2Proof.Machine

/-! ### Waiting -/

/-- A micro-step waits for a call that is outstanding with no reply pending, or for an external strategy
(R148, R151). -/
theorem blocked_iff (s : State) :
    s.blocked = true ↔
      (s.stepCall.isSome = true ∧ s.call.isSome = true ∧ s.replies = []) ∨
        (s.seq.phase = .ext ∧ s.params.hasExt s.seq.sel = true ∧ s.extReplies = []) := by
  cases hp : s.seq.phase <;> simp [State.blocked, State.stepCall, hp, and_assoc]
  case rStart => cases s.call <;> simp

section
variable {s t : State}

/-- A state that moves does not wait. -/
theorem Move.blocked_eq_false (h : Move s t) : s.blocked = false := by
  rw [← Bool.not_eq_true, blocked_iff]
  cases h with
  | ext hp _ hr => simp [State.stepCall, hp, hr]
  | attStart hp | release hp => simp [State.stepCall, hp]
  | exhausted hp hn => simp [State.stepCall, hp, hn]
  | zeroCount hp hn => rcases hp with hp | hp <;> simp [State.stepCall, hp, hn]
  | calls hn _ hc =>
    rintro (⟨-, hi, -⟩ | ⟨hp, -⟩)
    · simp [hn] at hi
    · simp [State.stepCall, hp] at hc
  | _ => simp [*]

/-- A move that leaves the sequencer as it is makes the call of its phase, and gets no reply. -/
theorem Move.makes_call_of_seq_eq (h : Move s t) (hq : t.seq = s.seq) :
    ∃ c, s.call = none ∧ s.replies = [] ∧ s.stepCall = some c ∧
      t = s.beforeCall.setCall (some c) := by
  have hphase := congrArg Sequencer.phase hq
  have hindex := congrArg Sequencer.i hq
  clear hq
  cases h with
  | calls hn hr hc => exact ⟨_, hn, hr, hc, rfl⟩
  | zeroCount hp => rcases hp with hp | hp <;> simp [hp] at hphase
  | rStartReturns hp =>
    simp only [setPhase_seq, hp] at hphase
    split at hphase <;> cases hphase
  | ext hp =>
    simp only [applyExt_seq, hp, apply_ite Sequencer.phase] at hphase
    split_ifs at hphase
  | attStart hp | wBeginAddress hp | rStart hp =>
    simp only [attStart_seq, setPhase_seq, hp] at hphase
    split_ifs at hphase
  | wDataOk | rDrainMore | rDrainLast => simp at hindex
  | _ => simp_all
end

/-- Settles O37: a micro-step waits, makes its call, or goes to a next phase. -/
theorem microStepFollowsThePhaseTable : Obligations.MicroStepFollowsThePhaseTable := by
  intro s t h
  rcases microStep_next h with hwait | hm
  · exact .inl hwait
  · rcases hm.phase_mem_successors with ⟨hq, -⟩ | hq
    · obtain ⟨c, hn, hr, hc, rfl⟩ := hm.makes_call_of_seq_eq hq
      exact .inr (.inl ⟨hn, hr, hq, c, rfl, stepCall_fits hn hc⟩)
    · exact .inr (.inr ⟨hm.phase_ne_idle, hm.blocked_eq_false, hq⟩)

/-! ### Delays and retries -/

/-- An outstanding call that belongs to its phase, or one made now, belongs to the phase of its micro-step. -/
theorem State.callFits.stepCall {s : State} (h : s.callFits) {c : Call} (hc : s.stepCall = some c) :
    c.fits s.seq :=
  (call_cases_of_stepCall hc).elim (stepCall_fits · hc) (h c)

/-- The call of `ATT_FAIL` is a delay, and no other call is (R145, R150). -/
theorem Call.fits.isDelay_event {c : Call} {x : Sequencer} (h : c.fits x) (v : Word) :
    (c.event v).isDelay = decide (x.phase = .attFail) := by
  cases c with
  | delay ms => simp [Call.event, Event.isDelay, h.1]
  | begin a next => rcases h.2 with hp | ⟨hp, -⟩ <;> simp [Call.event, Event.isDelay, hp]
  | write b => rcases h with hp | hp | hp | hp | hp <;> simp [Call.event, Event.isDelay, hp]
  | close stop => cases stop <;> simp_all [Call.fits, Call.event, Event.isDelay]
  | request | read => simp_all [Call.fits, Call.event, Event.isDelay]

theorem delays_returned {s : State} {c : Call} (hf : c.fits s.seq) (v : Word) (vs : List Word) :
    (s.returned c v vs).delays = s.delays + if s.seq.phase = .attFail then 1 else 0 := by
  simp [State.delays, List.countP_append, List.countP_cons, hf.isDelay_event]

section
variable {s t : State}

/-- A move that retries has a retry to take away (R145). -/
theorem retry_ne_zero_of_stepCall {c : Call} (hp : s.seq.phase = .attFail) (hc : s.stepCall = some c) :
    s.seq.retry ≠ 0 := by
  intro h0
  simp [State.stepCall, hp, h0] at hc

theorem toNat_sub_one_add_one {r : BitVec 4} (h : r ≠ 0) : (r - 1).toNat + 1 = r.toNat := by
  bv_omega

/-- A retry trades one attempt for one delay, and no other move, one of an external strategy apart, touches either
(R147). -/
theorem Move.delays_add_retry (h : Move s t) (hs : s.callFits) (hp : s.seq.phase ≠ .ext) :
    t.delays + t.seq.retry.toNat = s.delays + s.seq.retry.toNat := by
  cases h with
  | ext hx => exact absurd hx hp
  | calls | attStart | zeroCount | rStartSkip | exhausted | release => simp [State.delays]
  | @retry hp c hc v vs hr =>
    have hdelay := delays_returned (hs.stepCall hc) v vs
    have hretry := toNat_sub_one_add_one (retry_ne_zero_of_stepCall hp hc)
    rw [if_pos hp] at hdelay
    change (s.returned c v vs).delays + (s.seq.retry - 1).toNat = _
    omega
  | @rStartReturns hp c _ hc v vs =>
    have hdelay := delays_returned (hs c hc) v vs
    rw [hp] at hdelay
    exact congrArg (· + s.seq.retry.toNat) hdelay
  | _ =>
    have hdelay := delays_returned (hs.stepCall ‹_›) ‹_› ‹_›
    rw [if_neg (by simp [*])] at hdelay
    exact congrArg (· + s.seq.retry.toNat) hdelay
end

/-- Settles O39: a micro-step that waits changes nothing, and a move keeps the sum. -/
theorem delaysCountTheRetries : Obligations.DelaysCountTheRetries := by
  intro s t hs h hp
  rcases microStep_next h with ⟨rfl, -⟩ | hm
  · exact ⟨rfl, BitVec.le_refl _⟩
  · obtain ⟨-, -, -, hretry⟩ := hm.registers
    exact ⟨hm.delays_add_retry hs hp, hretry⟩

/-! ### The end of a default transaction -/

/-- A transaction of a default strategy: its select names one, it is not in `EXT`, and a call that is outstanding
belongs to its phase (R144, R150). -/
structure State.RunsDefault (s : State) : Prop where
  fits : s.callFits
  sel : s.seq.sel < 2
  phase : s.seq.phase ≠ .ext

section
variable {s t : State}

theorem Move.keeps_runsDefault (h : Move s t) (hs : s.RunsDefault) : t.RunsDefault := by
  obtain ⟨-, hsel, -, -⟩ := h.registers
  have hlt : t.seq.sel < 2 := hsel ▸ hs.sel
  refine ⟨h.keeps_callFits hs.fits, hlt, fun hx => ?_⟩
  by_cases ha : s.seq.phase = .attStart
  · rcases attStart_phase_cases s with ⟨hp, -⟩ | ⟨hp, -⟩ | ⟨-, hle⟩ <;> rw [← h.eq_attStart ha] at *
    · simp [hp] at hx
    · simp [hp] at hx
    · bv_omega
  · rcases h.phase_mem_successors with ⟨hq, -⟩ | hq
    · exact hs.phase (hq ▸ hx)
    · obtain ⟨-, -, hne, -⟩ := Phase.before_of_mem_successors hq ha
      exact hne hx

/-- A default transaction in flight moves when a reply is pending. -/
theorem State.RunsDefault.moves (hs : s.RunsDefault) (hp : s.seq.phase ≠ .idle) (hr : s.replies ≠ []) :
    ∃ t, Move s t := by
  cases h : s.microStep with
  | next t =>
    refine ⟨t, (microStep_next h).resolve_left ?_⟩
    rintro ⟨-, hw⟩
    simp [hp, hr, hs.phase, blocked_iff] at hw
  | fault r => cases r
  | refused r => exact absurd (microStep_refused h).1 hs.phase

/-- A move takes at most one reply. -/
theorem Move.replies_length_le (h : Move s t) (hp : s.seq.phase ≠ .ext) :
    s.replies.length ≤ t.replies.length + 1 := by
  rcases h.call_cases hp with ⟨-, hr⟩ | ⟨c, v, -, hr, -⟩ <;> simp [hr]

/-- A move that is not a call left waiting decreases the measure (R147 (d), (e)): a retry takes away one attempt,
and every other move goes on in its attempt. -/
theorem Move.microStepsLeft_lt (h : Move s t) (hr : s.replies ≠ [])
    (hi : s.seq.phase.movesData = true → s.seq.i < s.seq.n) :
    t.seq.microStepsLeft < s.seq.microStepsLeft := by
  have next {x y : Sequencer} (hn : x.n = y.n) (hretry : x.retry = y.retry)
      (hlt : x.attemptLeft < y.attemptLeft) : x.microStepsLeft < y.microStepsLeft := by
    unfold Sequencer.microStepsLeft
    rw [hn, hretry]
    omega
  cases h with
  | calls _ hnil => exact absurd hnil hr
  | retry hp hc =>
    have hretry := toNat_sub_one_add_one (retry_ne_zero_of_stepCall hp hc)
    simp only [Sequencer.microStepsLeft, Sequencer.attemptLeft, hp, setPhase_seq, setRetry_seq,
      returned_seq, ← hretry, Nat.succ_mul]
    omega
  | @wDataOk hp =>
    have hlt := hi (by rw [hp]; rfl)
    refine next rfl rfl ?_
    simp only [Sequencer.attemptLeft, hp, setPhase_seq, setIndex_seq, cacheInc_seq, returned_seq]
    split_ifs <;> simp only <;> bv_omega
  | rDrainMore hp =>
    have hlt := hi (by rw [hp]; rfl)
    refine next rfl rfl ?_
    simp only [Sequencer.attemptLeft, hp, setPhase_seq, setIndex_seq, cacheInc_seq, writeBuf_seq, returned_seq]
    bv_omega
  | ext hp =>
    rw [applyExt_seq]
    split_ifs <;> exact next rfl rfl (by simp [Sequencer.attemptLeft, hp])
  | zeroCount hp =>
    refine next rfl rfl ?_
    rcases hp with hp | hp <;> simp [Sequencer.attemptLeft, hp] <;> omega
  | @rStartReturns hp c =>
    refine next rfl rfl ?_
    simp only [Sequencer.attemptLeft, hp, setPhase_seq, returned_seq]
    cases c.next <;> simp only <;> omega
  | attStart hp | wBeginAddress hp | rStart hp =>
    refine next rfl rfl ?_
    simp only [Sequencer.attemptLeft, hp, attStart_seq, setPhase_seq, returned_seq, cacheSet_seq]
    split_ifs <;> simp only <;> omega
  | _ =>
    refine next rfl rfl ?_
    simp [Sequencer.attemptLeft, *] <;> omega
end

/-! ### Runs of micro-steps -/

theorem microRun_succ {s t : State} (h : s.microStep = .next t) (k : Nat) :
    s.microRun (k + 1) = t.microRun k := by
  simp only [State.microRun, h]

theorem microRun_add {s t : State} {j : Nat} (h : s.microRun j = .next t) (k : Nat) :
    s.microRun (j + k) = t.microRun k := by
  induction j generalizing s with
  | zero =>
    cases h
    rw [Nat.zero_add]
  | succ j ih =>
    cases hm : s.microStep with
    | next u =>
      rw [microRun_succ hm] at h
      rw [Nat.succ_add, microRun_succ hm, ih h]
    | fault r => cases r
    | refused r => simp [State.microRun, hm] at h

/-- Along a run of micro-steps a default transaction keeps the sum of the delays and the retries left (R147). -/
theorem microRun_delays_add_retry {k : Nat} {s t : State} (hs : s.RunsDefault) (h : s.microRun k = .next t) :
    t.delays + t.seq.retry.toNat = s.delays + s.seq.retry.toNat := by
  induction k generalizing s with
  | zero => cases h; rfl
  | succ k ih =>
    cases hm : s.microStep with
    | next u =>
      rw [microRun_succ hm] at h
      rcases microStep_next hm with ⟨rfl, -⟩ | hmove
      · exact ih hs h
      · exact (ih (hmove.keeps_runsDefault hs) h).trans (hmove.delays_add_retry hs.fits hs.phase)
    | fault r => cases r
    | refused r => exact absurd (microStep_refused hm).1 hs.phase

theorem microStepsLeft_pos {x : Sequencer} (hp : x.phase ≠ .idle) : 0 < x.microStepsLeft := by
  refine Nat.add_pos_left ?_ _
  unfold Sequencer.attemptLeft
  cases hq : x.phase
  case idle => exact absurd hq hp
  all_goals dsimp only; omega

/-- A default transaction in flight, with enough replies, reaches `IDLE` within its measure: every move decreases it,
and takes at most one reply. -/
theorem microRun_reaches_idle {s : State} (hs : s.RunsDefault) (hl : s.seq.legal s.params)
    (hp : s.seq.phase ≠ .idle) (hr : s.seq.microStepsLeft ≤ s.replies.length) :
    ∃ k t, k ≤ s.seq.microStepsLeft ∧ s.microRun k = .next t ∧ t.seq.phase = .idle := by
  induction hm : s.seq.microStepsLeft using Nat.strong_induction_on generalizing s with
  | _ m ih =>
    subst hm
    have hpos := microStepsLeft_pos hp
    have hne : s.replies ≠ [] := List.ne_nil_of_length_pos (by omega)
    obtain ⟨t, hmove⟩ := hs.moves hp hne
    have ⟨_, _, _, _, _, hindex⟩ := hl
    have hlt := hmove.microStepsLeft_lt hne hindex
    have hlen := hmove.replies_length_le hs.phase
    have hrun := microRun_succ (microStep_of_move hmove)
    by_cases ht : t.seq.phase = .idle
    · exact ⟨1, t, hpos, hrun 0, ht⟩
    · obtain ⟨k, u, hk, hu, hidle⟩ := ih _ hlt (hmove.keeps_runsDefault hs)
        (hmove.params_eq ▸ hmove.keeps_seq_legal hl) ht (by omega) rfl
      exact ⟨k + 1, u, by omega, (hrun k).trans hu, hidle⟩

/-- Settles O40: the transaction reaches `IDLE` by its measure, and each delay on the way takes away one retry. -/
theorem transactionEndsWithinItsBound : Obligations.TransactionEndsWithinItsBound := by
  intro s hl hf hp hsel hr
  have ⟨hflight, _, _, hext, _⟩ := hl
  have hs : s.RunsDefault := ⟨hf, hsel, fun hx => by have := hext hx; bv_omega⟩
  obtain ⟨k, t, hk, hrun, hidle⟩ := microRun_reaches_idle hs hl hp hr
  have hsum := microRun_delays_add_retry hs hrun
  obtain ⟨-, hretry⟩ := hflight hp
  exact ⟨k, t, hk, hrun, hidle, by omega, hretry⟩

end Sys2Proof.Machine
end

section
/-! PROOFS. Commands taken while a transaction is in flight (R148, R149): what they leave alone, their order between
two micro-steps, and that none of them ends a hang. -/

namespace Sys2Proof.Machine

/-! ### A command leaves the transaction alone -/

section
variable {i : Instr} {s t : State}

/-- While the flag is set a command keeps it and the sequencer (R148, R149). -/
theorem Command.keeps_transaction (h : Command s i t) (hb : s.bus.busy = true) :
    t.seq = s.seq ∧ t.bus.busy = true := by
  rcases h.admits_or_keeps with ⟨hbusy, hseq⟩ | ⟨-, hfree, -⟩
  · exact ⟨hseq, hbusy.trans hb⟩
  · simp [hb] at hfree

/-- The call of SETSPD takes the oldest reply, when no call of the sequencer is outstanding (R52, R120). -/
theorem Command.replies_setspd {a : Word} (h : Command s (.setspd a) t) :
    t.replies = if s.call = none then s.replies.tail else s.replies := by
  cases h with
  | setspd _ hc hr => simp [hc, hr]
  | setspdWaits _ hr =>
    rcases hr with hc | hr
    · simp [Option.isSome_iff_ne_none.1 hc]
    · simp [hr]
  | admitted _ _ _ _ _ _ _ hi => simp at hi
  | rejected _ _ _ _ _ _ hi => simp at hi

/-- While the flag is set a WRITE or READ is rejected, and ISBUSY answers 1 (R148, R149). -/
theorem Command.answers_busy (h : Command s i t) (hb : s.bus.busy = true)
    (hi : i.isTransaction = true ∨ i = .isbusy) :
    t.responses = s.responses ++ [1] ∧ t.trace = s.trace := by
  cases h with
  | isbusy => simp [boolWord, hb]
  | rejected => exact ⟨rfl, rfl⟩
  | admitted _ _ _ _ _ _ hfree => simp [hb] at hfree
  | _ => rcases hi with hi | hi <;> cases hi

/-- SETSPD does not take the reply of a call that is outstanding (R52). -/
theorem Command.replies_of_outstanding (h : Command s i t) (hc : s.call ≠ none) : t.replies = s.replies := by
  cases h with
  | setspd _ hn => exact absurd hn hc
  | _ => rfl

end

/-! ### A hang -/

/-- What a waiting micro-step looks at: its phase and registers, its call, the relations and results of external
strategies, and, with a call outstanding, the replies (R148, R151). -/
theorem blocked_of_frame {s t : State} (hw : s.blocked = true) (hseq : t.seq = s.seq) (hcall : t.call = s.call)
    (hparams : t.params = s.params) (hext : t.extReplies = s.extReplies)
    (hreplies : s.call ≠ none → t.replies = s.replies) : t.blocked = true := by
  by_cases hc : s.call = none
  · rcases (blocked_iff s).1 hw with ⟨-, hsome, -⟩ | ⟨hp, hx, hr⟩
    · simp [hc] at hsome
    · rw [blocked_iff, hseq, hparams, hext]
      exact .inr ⟨hp, hx, hr⟩
  · unfold State.blocked at hw ⊢
    rw [hseq, hcall, hparams, hext, hreplies hc]
    exact hw

/-- No command ends a hang (R148, R149). -/
theorem Command.keeps_hang {i : Instr} {s t : State} (h : Command s i t) (hw : s.blocked = true)
    (hb : s.bus.busy = true) : t.blocked = true ∧ t.bus.busy = true ∧ t.seq = s.seq ∧ t.call = s.call := by
  obtain ⟨hparams, hcall, -, -, hext⟩ := h.frame
  obtain ⟨hseq, hbusy⟩ := h.keeps_transaction hb
  exact ⟨blocked_of_frame hw hseq hcall hparams hext h.replies_of_outstanding, hbusy, hseq, hcall⟩

/-- A micro-step whose call gets no reply waits (R148). -/
theorem Move.blocked_of_makes_call {s t : State} (h : Move s t) (hn : s.call = none) (ht : t.call ≠ none) :
    t.blocked = true ∧ t.seq = s.seq := by
  obtain ⟨c, hc, rfl⟩ := h.makes_call hn ht
  have hseq : (s.beforeCall.setCall (some c)).seq = s.seq := by simp
  obtain ⟨-, -, hr, -⟩ := h.makes_call_of_seq_eq hseq
  have hmade := stepCall_of_fits (s := s.beforeCall.setCall (some c)) rfl (hseq ▸ stepCall_fits hn hc)
  exact ⟨(blocked_iff _).2 (.inl ⟨by simp [hmade], rfl, by simpa using hr⟩), hseq⟩

/-- In `IDLE` no micro-step waits. -/
theorem phase_ne_idle_of_blocked {s : State} (h : s.blocked = true) : s.seq.phase ≠ .idle := by
  intro hp
  simp [State.blocked, hp] at h

/-- A machine that waits takes no command of the main context: SETSPD holds the port, or a transaction is in flight
whose response that context waits for (R52, R243). -/
theorem accepts_main_of_waits {s : State} (h : s.waits = true) (w : CmdWord) : s.accepts .main w = false := by
  rw [← Bool.not_eq_true, accepts_iff]
  rintro ⟨hk, hm, -⟩
  refine phase_ne_idle_of_blocked (s := s) ?_ (hm rfl)
  unfold State.waits at h
  rw [hk] at h
  cases hc : s.call <;> simpa [hc] using h

/-- A step with no reset and no answer from outside leaves a hang as it is (R148, R276). -/
theorem step_keeps_hang {s t : State} (hw : s.blocked = true) (hb : s.bus.busy = true) (h : step s = .next t)
    (hreset : ∀ rest, s.nextInput ≠ some (.reset, rest))
    (hanswer : ∀ v rest, s.nextInput ≠ some (.answer v, rest))
    (hresult : ∀ r rest, s.nextInput ≠ some (.strategyResult r, rest)) :
    t.blocked = true ∧ t.bus.busy = true ∧ t.seq = s.seq ∧ t.call = s.call := by
  cases step_next h with
  | command hi hd he => exact (exec_next he).keeps_hang hw hb
  | @micro rest _ hi hc hm =>
    have hwait := microStep_blocked (s := { s with inputs := rest }) hw
    rw [hwait] at hm
    cases hm
    exact ⟨hw, hb, rfl, rfl⟩
  | clock hi hn hc hf =>
    rcases finishSetspd_next hf with ⟨-, rfl⟩ | ⟨v, vs, -, -, rfl⟩
    · exact ⟨hw, hb, rfl, rfl⟩
    · exact ⟨blocked_of_frame hw rfl rfl rfl rfl (absurd hn), hb, rfl, rfl⟩
  | hostWrite => exact ⟨hw, hb, rfl, rfl⟩
  | answer hi => exact absurd hi (hanswer _ _)
  | strategyResult hi => exact absurd hi (hresult _ _)
  | reset hi => exact absurd hi (hreset _)

/-- Settles O48: (1) the state after such a call waits; (2) no command of the main context is taken, so the block
waits for ever; (3) and (4) what a waiting micro-step looks at is kept. -/
theorem unansweredCallHangs : Obligations.UnansweredCallHangs := by
  refine ⟨fun s t h hn ht => ?_, fun k s hw hi => run_of_step_self (M := Sys2Proof.core) ?_ k,
    fun i s hw hb hwf => ?_, fun s t hw hb h => step_keeps_hang hw hb h⟩
  · rcases microStep_next h with ⟨rfl, -⟩ | hm
    · exact absurd hn ht
    · exact hm.blocked_of_makes_call hn ht
  · refine (step_none (nextInput_none fun x hx => ?_)).trans (blockStep_waits hw)
    obtain ⟨w, rfl⟩ := hi x hx
    rw [takes_command]
    exact accepts_main_of_waits hw w
  · obtain ⟨-, t, he⟩ | ⟨d, hd, hn, -⟩ := exec_answers i s
    · have hcommand : Command s i t := exec_next he
      obtain ⟨hwait, hbusy, hseq, hcall⟩ := hcommand.keeps_hang hw hb
      exact ⟨t, he, hwait, hbusy, hseq, hcall, hcommand.answers_busy hb⟩
    · exact absurd ((wellFormed_iff i _).1 hwf d hd) hn

/-! ### The order of a command and a micro-step -/

/-- The state with everything that a micro-step may change at a point of its own: the replies, the call, the trace,
the sequencer and `BUF`; the slots and what commands write besides are as they were. -/
def State.engineAt (vs : List Word) (c : Option Call) (tr : List Event) (q : Sequencer) (m : Memory)
    (s : State) : State :=
  { s with replies := vs, call := c, trace := tr, seq := q, buf := m }

/-- `desc[d].cache <- f(desc[d].cache)`. -/
def State.mapCache (d : Slot) (f : Word → Word) (s : State) : State :=
  s.setSlot d { s.slot d with cache := f (s.slot d).cache }

section
variable {i : Instr} {s t : State}

/-- While the flag is set a command other than SETSPD does the same at every point of the engine (R149). -/
theorem Command.engineAt (h : Command s i t) (hb : s.bus.busy = true) (hi : ∀ a, i ≠ .setspd a) (vs : List Word)
    (c : Option Call) (tr : List Event) (q : Sequencer) (m : Memory) :
    Command (s.engineAt vs c tr q m) i (t.engineAt vs c tr q m) := by
  cases h with
  | init d a b hd => exact .init (s := s.engineAt vs c tr q m) d a b hd
  | setaddr d a hd ha => exact .setaddr (s := s.engineAt vs c tr q m) d a hd ha
  | setaddrFail d a hd ha => exact .setaddrFail (s := s.engineAt vs c tr q m) d a hd ha
  | setrsz d a hd => exact .setrsz (s := s.engineAt vs c tr q m) d a hd
  | bindw d a hd => exact .bindw (s := s.engineAt vs c tr q m) d a hd
  | bindr d a hd => exact .bindr (s := s.engineAt vs c tr q m) d a hd
  | setspd a | setspdWaits a => exact absurd rfl (hi a)
  | settmo a => exact .settmo (s := s.engineAt vs c tr q m) a
  | setrty a => exact .setrty (s := s.engineAt vs c tr q m) a
  | isbusy => exact .isbusy (s := s.engineAt vs c tr q m)
  | admitted _ _ _ _ _ _ hfree => simp [hb] at hfree
  | rejected _ d a b hd _ hw => exact .rejected (s := s.engineAt vs c tr q m) _ d a b hd hb hw

/-- Two writes of slots change places, if their contents do where the slot is the same one (R16). -/
theorem setSlot_mapCache {d e : Slot} {f : Word → Word} (g : SlaveDescriptor → SlaveDescriptor) (s : State)
    (hg : d = e → ∀ x, g { x with cache := f x.cache } = { g x with cache := f (g x).cache }) :
    (s.mapCache e f).setSlot d (g ((s.mapCache e f).slot d)) = (s.setSlot d (g (s.slot d))).mapCache e f := by
  unfold State.mapCache
  by_cases h : d = e
  · subst h
    simp only [slot_setSlot_self, hg rfl]
    simp [State.setSlot]
  · simp only [slot_setSlot_ne h, slot_setSlot_ne (Ne.symm h)]
    simp only [State.setSlot]
    rw [Vector.set_comm]
    exact slot_toNat_ne h

/-- A command other than INIT of the slot changes places with a write of a cache (R149). -/
theorem Command.exec_mapCache (h : Command s i t) (hi : ∀ a, i ≠ .setspd a) (hb : s.bus.busy = true) {e : Slot}
    (hinit : ∀ a b, i ≠ .init e a b) (f : Word → Word) :
    exec i (s.mapCache e f) = .next (t.mapCache e f) := by
  have done {t' : State} (g : State → State) (h : Command (s.mapCache e f) i (g t')) {u : State} (hu : t' = u) :
      exec i (s.mapCache e f) = .next (g u) := hu ▸ exec_of_command h
  cases h with
  | init d a b hd =>
    refine done (fun u => (u.countDraw a).respond 0) (.init (s := s.mapCache e f) d a b hd)
      (setSlot_mapCache (fun _ => s.initSlot a b) s ?_)
    rintro rfl
    exact absurd rfl (hinit a b)
  | setaddr d a hd ha =>
    exact done (State.respond _) (.setaddr (s := s.mapCache e f) d a hd ha)
      (setSlot_mapCache (fun x => { x with address := storedAddress a }) s fun _ _ => rfl)
  | setrsz d a hd =>
    exact done (State.respond _) (.setrsz (s := s.mapCache e f) d a hd)
      (setSlot_mapCache (fun x => { x with registerSize := storedSize a }) s fun _ _ => rfl)
  | bindw d a hd =>
    exact done (State.respond _) (.bindw (s := s.mapCache e f) d a hd)
      (setSlot_mapCache (fun x => { x with wrSel := a }) s fun _ _ => rfl)
  | bindr d a hd =>
    exact done (State.respond _) (.bindr (s := s.mapCache e f) d a hd)
      (setSlot_mapCache (fun x => { x with rdSel := a }) s fun _ _ => rfl)
  | rejected _ d a b hd _ hw =>
    exact done (State.respond _) (.rejected (s := s.mapCache e f) _ d a b hd hb hw)
      (setSlot_mapCache (fun x => { x with status := statusBusy }) s fun _ _ => rfl)
  | setspd a | setspdWaits a => exact absurd rfl (hi a)
  | admitted _ _ _ _ _ _ hfree => simp [hb] at hfree
  | setaddrFail d a hd ha => exact exec_of_command (.setaddrFail (s := s.mapCache e f) d a hd ha)
  | settmo a => exact exec_of_command (.settmo (s := s.mapCache e f) a)
  | setrty a => exact exec_of_command (.setrty (s := s.mapCache e f) a)
  | isbusy => exact exec_of_command (.isbusy (s := s.mapCache e f))

end

/-- Whether the micro-step with the call `c` outstanding writes the cache of its slot when the call returns: a data
byte advances it, and an addressing decision of `W_BEGIN` sets it (R173, R191). -/
def Call.writesCache (c : Call) (q : Sequencer) : Prop :=
  q.phase = .wData ∨ q.phase = .rDrain ∨ q.phase = .wBegin ∧ c.next ≠ .skip

/-- What the return of the outstanding call `c` does is given by the call, the reply, the sequencer and `BUF` alone:
it moves the engine, and it writes the cache of `seq.d` in some phases and nothing else in the others. -/
def Call.ReturnsUniformly (c : Call) (v : Word) (vs : List Word) (tr : List Event) (q : Sequencer) (m : Memory) :
    Prop :=
  ∃ g q' m', (g = id ∨ c.writesCache q ∧ ∃ f, g = State.mapCache q.d f) ∧
    ∀ s : State, State.microStep (s.engineAt (v :: vs) (some c) tr q m) =
      .next (g (s.engineAt vs none (tr ++ [c.event v]) q' m'))

/-- The return of a call that belongs to its phase does not look at what commands write (R149). -/
theorem Call.fits.returnsUniformly {c : Call} {q : Sequencer} (hf : c.fits q) (v : Word) (vs : List Word)
    (tr : List Event) (m : Memory) : c.ReturnsUniformly v vs tr q m := by
  have plain {t : State → State} (h : ∀ s, Move (s.engineAt (v :: vs) (some c) tr q m) (t s))
      (ht : ∀ s, t s = s.engineAt vs none (tr ++ [c.event v]) (t State.reset).seq m := by exact fun _ => rfl) :
      c.ReturnsUniformly v vs tr q m :=
    ⟨id, (t State.reset).seq, m, .inl rfl, fun s => (microStep_of_move (h s)).trans (congrArg _ (ht s))⟩
  have writes {t : State → State} (f : Word → Word) (hw : c.writesCache q)
      (h : ∀ s, Move (s.engineAt (v :: vs) (some c) tr q m) (t s))
      (ht : ∀ s, t s = (s.engineAt vs none (tr ++ [c.event v]) (t State.reset).seq
        (t State.reset).buf).mapCache q.d f := by exact fun _ => rfl) :
      c.ReturnsUniformly v vs tr q m :=
    ⟨State.mapCache q.d f, (t State.reset).seq, (t State.reset).buf, .inr ⟨hw, f, rfl⟩,
      fun s => (microStep_of_move (h s)).trans (congrArg _ (ht s))⟩
  have no {p : Prop} (hn : ∀ c, ¬ Call.fits c q) : p := absurd hf (hn c)
  have call (s : State) : (s.engineAt (v :: vs) (some c) tr q m).stepCall = some c := stepCall_of_fits rfl hf
  cases hp : q.phase
  case idle | attStart | ext | release => exact no (not_fits_of_phase (by simp [hp]))
  case wBegin =>
    by_cases ha : c.next = .skip
    · exact plain fun s => .wBeginSkip hp (call s) rfl ha
    · exact writes (fun _ => q.reg) (.inr (.inr ⟨hp, ha⟩)) fun s => .wBeginAddress hp (call s) rfl ha
  case rStart =>
    have hn : q.n ≠ 0 := fun h0 => no (not_fits_of_zeroCount (.inr hp) h0)
    exact plain fun s => .rStartReturns hp hn rfl rfl
  case attFail => exact plain fun s => .retry hp (call s) rfl
  case wAhi =>
    cases hv : replyOk v
    · exact plain fun s => .wAhiFail hp (call s) rfl hv
    · exact plain fun s => .wAhiOk hp (call s) rfl hv
  case wAlo =>
    cases hv : replyOk v
    · exact plain fun s => .wAloFail hp (call s) rfl hv
    · exact plain fun s => .wAloOk hp (call s) rfl hv
  case wData =>
    cases hv : replyOk v
    · exact plain fun s => .wDataFail hp (call s) rfl hv
    · exact writes (· + 1) (.inl hp) fun s => .wDataOk hp (call s) rfl hv
  case wEnd =>
    by_cases hv : v = 0
    · exact plain fun s => .wEndOk hp (call s) rfl hv
    · exact plain fun s => .wEndFail hp (call s) rfl hv
  case rAhi =>
    cases hv : replyOk v
    · exact plain fun s => .rAhiFail hp (call s) rfl hv
    · exact plain fun s => .rAhiOk hp (call s) rfl hv
  case rAlo =>
    cases hv : replyOk v
    · exact plain fun s => .rAloFail hp (call s) rfl hv
    · exact plain fun s => .rAloOk hp (call s) rfl hv
  case rEnd =>
    by_cases hv : v = 0
    · exact plain fun s => .rEndOk hp (call s) rfl hv
    · exact plain fun s => .rEndFail hp (call s) rfl hv
  case rReq =>
    by_cases hv : v = 0
    · exact plain fun s => .rReqFail hp (call s) rfl hv
    · exact plain fun s => .rReqOk hp (call s) rfl hv
  case rDrain =>
    by_cases hi : q.i + 1 = q.n
    · exact writes (· + 1) (.inr (.inl hp)) fun s => .rDrainLast hp (call s) rfl hi
    · exact writes (· + 1) (.inr (.inl hp)) fun s => .rDrainMore hp (call s) rfl hi

section
variable {i : Instr} {s t : State}

/-- While the flag is set a command other than SETSPD leaves the engine where it is (R148, R149). -/
theorem Command.engine_eq (h : Command s i t) (hb : s.bus.busy = true) (hi : ∀ a, i ≠ .setspd a) :
    t = t.engineAt s.replies s.call s.trace s.seq s.buf := by
  obtain ⟨-, hcall, hbuf, -⟩ := h.frame
  obtain ⟨hseq, -⟩ := h.keeps_transaction hb
  obtain ⟨htrace, hreplies, -⟩ := h.transport_eq hi
  rw [← hcall, ← hbuf, ← hseq, ← htrace, ← hreplies]
  rfl

/-- A command and the return of an outstanding call change places, INIT of `seq.d` apart where the return writes the
cache (R149). -/
theorem Command.exec_after_return (h : Command s i t) (hb : s.bus.busy = true) (hi : ∀ a, i ≠ .setspd a)
    {c : Call} (hf : c.fits s.seq) (hc : s.call = some c)
    (hinit : ∀ a b, i = .init s.seq.d a b → ¬ c.writesCache s.seq) {u : State} (hu : s.microStep = .next u) :
    ∃ v, t.microStep = .next v ∧ exec i u = .next v := by
  cases hr : s.replies with
  | nil =>
    have hw : s.blocked = true := (blocked_iff s).2 (.inl (by simp [stepCall_of_fits hc hf, hc, hr]))
    obtain ⟨hwt, -⟩ := h.keeps_hang hw hb
    rw [microStep_blocked hw] at hu
    cases hu
    exact ⟨t, microStep_blocked hwt, exec_of_command h⟩
  | cons v vs =>
    obtain ⟨g, q', m', hg, hstep⟩ := hf.returnsUniformly v vs s.trace s.buf
    have hs : s = s.engineAt (v :: vs) (some c) s.trace s.seq s.buf := by
      rw [← hr, ← hc]
      rfl
    have ht : t = t.engineAt (v :: vs) (some c) s.trace s.seq s.buf := by
      rw [← hr, ← hc]
      exact h.engine_eq hb hi
    rw [hs, hstep] at hu
    cases hu
    have hmoved := h.engineAt hb hi vs none (s.trace ++ [c.event v]) q' m'
    refine ⟨_, (congrArg State.microStep ht).trans (hstep t), ?_⟩
    rcases hg with rfl | ⟨hw, f, rfl⟩
    · exact exec_of_command hmoved
    · exact hmoved.exec_mapCache hi hb (fun a b hd => hinit a b hd hw) f

/-- The call of a data phase is given by the sequencer and `BUF` (R194, R216). -/
theorem stepCall_engineAt {q : Sequencer} (hq : q.phase = .wData ∨ q.phase = .rDrain) (vs : List Word)
    (c : Option Call) (tr : List Event) (m : Memory) (s t : State) :
    (s.engineAt vs c tr q m).stepCall = (t.engineAt vs c tr q m).stepCall := by
  rcases hq with hq | hq <;> simp [State.stepCall, State.engineAt, hq]

/-- In a data phase a command after the call is made gives what it gives before the micro-step (R149). -/
theorem Command.exec_before_call {s' : State} (hp : s.seq.phase = .wData ∨ s.seq.phase = .rDrain)
    (hn : s.call = none) (hr : s.replies = []) (hb : s.bus.busy = true) (hi : ∀ a, i ≠ .setspd a)
    (hm : s.microStep = .next s') (h : Command s' i t) :
    ∃ s0, exec i s = .next s0 ∧ s0.microStep = .next t := by
  obtain ⟨c, hc⟩ : ∃ c, s.stepCall = some c := by
    rcases hp with hp | hp
    · exact ⟨_, stepCall_wData hp⟩
    · exact ⟨_, stepCall_rDrain hp⟩
  have hs : s = s.engineAt [] none s.trace s.seq s.buf := by
    rw [← hn, ← hr]
    rfl
  have hne : s.seq.phase ≠ .rStart := by rcases hp with hp | hp <;> simp [hp]
  rw [microStep_makes hn hr hne hc] at hm
  cases hm
  have hbefore := h.engineAt hb hi [] none s.trace s.seq s.buf
  have hmade : (t.engineAt [] none s.trace s.seq s.buf).stepCall = some c := by
    rw [stepCall_engineAt hp [] none s.trace s.buf t s, ← hs, hc]
  have ht : t = t.engineAt s.replies (some c) s.trace s.seq s.buf := h.engine_eq hb hi
  rw [hr] at ht
  exact ⟨t.engineAt [] none s.trace s.seq s.buf, (congrArg (exec i) hs).trans (exec_of_command hbefore),
    (microStep_makes (s := t.engineAt [] none s.trace s.seq s.buf) rfl rfl hne hmade).trans
      (congrArg _ ht.symm)⟩

end

/-- Settles O22: (1) by what a command keeps; (2) the return of the call does not look at what a command writes; (3)
nor does the call of a data phase. -/
theorem commandsLeaveTheTransactionAlone : Obligations.CommandsLeaveTheTransactionAlone := by
  refine ⟨fun i s t hb he => ?_, fun i s t u c hb hf hc hi hinit he hu => ?_,
    fun i s s' t hb hp hn hr hi hm he => Command.exec_before_call hp hn hr hb hi hm (exec_next he)⟩
  · have h : Command s i t := exec_next he
    obtain ⟨-, hcall, hbuf, -, hext⟩ := h.frame
    obtain ⟨hseq, hbusy⟩ := h.keeps_transaction hb
    refine ⟨hseq, hcall, hbusy, hext, fun a => by rw [hbuf], fun hi => ?_, ?_,
      fun hi => h.answers_busy hb (.inl hi)⟩
    · obtain ⟨-, hreplies, -⟩ := h.transport_eq hi
      exact hreplies
    · rintro a rfl
      exact h.replies_setspd
  · refine (exec_next he).exec_after_return hb hi (hf c hc) hc (fun a b hd hw => ?_) hu
    obtain ⟨hdata, hdrain, hbegin⟩ := hinit a b hd
    rcases hw with hp | hp | ⟨hp, hskip⟩
    · exact hdata hp
    · exact hdrain hp
    · exact hskip (hbegin hp)

end Sys2Proof.Machine
end

section
/-! PROOFS. The procedures (R140, R190, R210), by the replies that are pending: what each part of an attempt does with
the next reply. -/

namespace Sys2Proof.Machine

/-! ### A reply taken -/

theorem popReply_nil {s : State} (h : s.replies = []) : s.popReply = none := by
  simp [State.popReply, h]

theorem popReply_cons {s : State} {v : Word} {vs : List Word} (h : s.replies = v :: vs) :
    s.popReply = some (v, { s with replies := vs }) := by
  simp [State.popReply, h]

section
variable {s : State} {v : Word} {vs : List Word}

theorem sendAddress_cons (h : s.replies = v :: vs) (b : Byte) (bs : List Byte) :
    s.sendAddress (b :: bs) =
      if replyOk v then (s.called (.wb b true) vs).sendAddress bs else some (false, s.called (.wb b false) vs) := by
  simp only [State.sendAddress, popReply_cons h]
  rfl

theorem sendData_succ (h : s.replies = v :: vs) (d : Slot) (left i : Nat) :
    s.sendData d (left + 1) i =
      if replyOk v then ((s.called (.wb (Memory.read s.buf i) true) vs).cacheInc d).sendData d left (i + 1)
      else some (false, s.called (.wb (Memory.read s.buf i) false) vs) := by
  simp only [State.sendData, popReply_cons h]
  rfl

theorem closeTransmission_cons (h : s.replies = v :: vs) (stop : Bool) :
    s.closeTransmission stop = some (decide (v = 0), s.called (.close stop v) vs) := by
  simp only [State.closeTransmission, popReply_cons h]
  rfl

theorem openTransmission_cons (h : s.replies = v :: vs) (a : SlaveAddr) :
    s.openTransmission a = some (s.called (.begin a) vs) := by
  simp only [State.openTransmission, popReply_cons h]
  rfl

theorem requestBytes_cons (h : s.replies = v :: vs) (a : SlaveAddr) (n : Word) :
    s.requestBytes a n = some (decide (v ≠ 0), s.called (.req a n v) vs) := by
  simp only [State.requestBytes, popReply_cons h]
  rfl

/-- One received byte: its event, its byte of `BUF` and the cache (R216). -/
def State.drained (d : Slot) (i : Nat) (v : Word) (vs : List Word) (s : State) : State :=
  State.cacheInc d { s.called (.rb (replyByte v)) vs with buf := Memory.write s.buf i (replyByte v) }

theorem drainData_succ (h : s.replies = v :: vs) (d : Slot) (left i : Nat) :
    s.drainData d (left + 1) i = (s.drained d i v vs).drainData d left (i + 1) := by
  simp only [State.drainData, popReply_cons h]
  rfl

theorem retryDelay_cons (h : s.replies = v :: vs) :
    s.retryDelay = some (s.called (.delay s.params.retryDelayMs) vs) := by
  simp only [State.retryDelay, popReply_cons h]
  rfl

end

/-! ### Parts of an attempt in sequence -/

/-- A sequence ends with what failed first, or with the end of its second part. -/
theorem andThen_eq_some {r : Option (Bool × State)} {k : State → Option (Bool × State)} {ok : Bool} {u : State} :
    andThen r k = some (ok, u) ↔
      (r = some (false, u) ∧ ok = false) ∨ ∃ t, r = some (true, t) ∧ k t = some (ok, u) := by
  rcases r with _ | ⟨_ | _, t⟩
  · simp [andThen]
  · simp [andThen, and_comm, eq_comm]
  · simp [andThen]

theorem andThen_assoc (r : Option (Bool × State)) (f g : State → Option (Bool × State)) :
    andThen (andThen r f) g = andThen r fun t => andThen (f t) g := by
  rcases r with _ | ⟨_ | _, t⟩ <;> rfl

end Sys2Proof.Machine
end

section
/-! PROOFS. An attempt of a default strategy is its procedure (R144, R190, R210): from each phase the micro-steps do
what is left of the procedure. -/

namespace Sys2Proof.Machine

/-! ### Reaching a state -/

/-- The state with other sequencer registers: the procedures have none of their own. -/
def State.withSeq (q : Sequencer) (s : State) : State := { s with seq := q }

section
variable (q : Sequencer) (s : State)
@[simp] theorem withSeq_seq : (s.withSeq q).seq = q := rfl
@[simp] theorem withSeq_call : (s.withSeq q).call = s.call := rfl
@[simp] theorem withSeq_replies : (s.withSeq q).replies = s.replies := rfl
@[simp] theorem withSeq_slot (d : Slot) : (s.withSeq q).slot d = s.slot d := rfl
end

/-- The sequencer takes `s` to `t` within `k` micro-steps. -/
def State.ReachesWithin (k : Nat) (s t : State) : Prop := ∃ j ≤ k, s.microRun j = .next t

section
variable {s t u : State} {k l : Nat}

theorem State.ReachesWithin.refl (k : Nat) (s : State) : s.ReachesWithin k s := ⟨0, Nat.zero_le k, rfl⟩

theorem State.ReachesWithin.step (hm : s.microStep = .next t) (h : t.ReachesWithin k u) :
    s.ReachesWithin (k + 1) u := by
  obtain ⟨j, hj, hrun⟩ := h
  exact ⟨j + 1, Nat.succ_le_succ hj, (microRun_succ hm j).trans hrun⟩

theorem State.ReachesWithin.mono (h : s.ReachesWithin k t) (hkl : k ≤ l) : s.ReachesWithin l t := by
  obtain ⟨j, hj, hrun⟩ := h
  exact ⟨j, hj.trans hkl, hrun⟩

theorem State.ReachesWithin.trans (h : s.ReachesWithin k t) (h' : t.ReachesWithin l u) :
    s.ReachesWithin (k + l) u := by
  obtain ⟨j, hj, hrun⟩ := h
  obtain ⟨j', hj', hrun'⟩ := h'
  exact ⟨j + j', Nat.add_le_add hj hj', (microRun_add hrun j').trans hrun'⟩

end

/-! ### The end of an attempt -/

/-- The sequencer registers at the end of an attempt: those the admission loaded are as they were (R144). -/
def Sequencer.attemptEnd (ok : Bool) (i : Word) (q : Sequencer) : Sequencer :=
  { q with phase := if ok then .release else .attFail, i := i, ack := ok || q.ack }

/-- From `x` with the sequencer at `q` the attempt ends within `k` micro-steps, succeeding or not as `ok` says, in
`u`; the procedure's own state keeps its sequencer registers and has no call outstanding. -/
def AttemptEnds (k : Nat) (x : State) (q : Sequencer) (ok : Bool) (u : State) : Prop :=
  u.seq = x.seq ∧ u.call = none ∧ ∃ i, (x.withSeq q).ReachesWithin k (u.withSeq (q.attemptEnd ok i))

section
variable {x y u : State} {q q' : Sequencer} {ok : Bool} {k l : Nat}

/-- The micro-step that ends the attempt. -/
theorem AttemptEnds.last {i : Word} (hn : x.call = none)
    (hm : (x.withSeq q).microStep = .next (u.withSeq (q.attemptEnd ok i)))
    (hu : u.seq = x.seq ∧ u.call = x.call := by exact ⟨rfl, rfl⟩) : AttemptEnds (k + 1) x q ok u :=
  ⟨hu.1, hu.2.trans hn, i, .step hm (.refl k _)⟩

theorem AttemptEnds.mono (h : AttemptEnds k x q ok u) (hkl : k ≤ l) : AttemptEnds l x q ok u := by
  obtain ⟨hseq, hn, i, hi⟩ := h
  exact ⟨hseq, hn, i, hi.mono hkl⟩

/-- One micro-step, and then the rest of the attempt. -/
theorem AttemptEnds.step (hm : (x.withSeq q).microStep = .next (y.withSeq q')) (h : AttemptEnds k y q' ok u)
    (hy : y.seq = x.seq := by rfl)
    (hq : ∀ i, q'.attemptEnd ok i = q.attemptEnd ok i := by exact fun _ => rfl) :
    AttemptEnds (k + 1) x q ok u := by
  obtain ⟨hseq, hn, i, hi⟩ := h
  exact ⟨hseq.trans hy, hn, i, .step hm (hq i ▸ hi)⟩

end

/-! ### The micro-steps, with a reply pending and no call outstanding -/

/-- A call that was not outstanding leaves none when it returns. -/
theorem returned_eq_called {s : State} (hn : s.call = none) (c : Call) (v : Word) (vs : List Word) :
    s.returned c v vs = s.called (c.event v) vs := by
  cases s
  cases hn
  rfl

/-- A call that is made and returns at once. -/
theorem transportCall_withSeq {x : State} {v : Word} {vs : List Word} (hn : x.call = none)
    (hr : x.replies = v :: vs) (q : Sequencer) (c : Call) (k : Call → Word → State → State) :
    (x.withSeq q).transportCall c k = .next (k c v ((x.called (c.event v) vs).withSeq q)) := by
  rw [transportCall_cons (s := x.withSeq q) hr, returned_eq_called (s := x.withSeq q) hn, withSeq_call, hn]
  rfl

/-- The register-address byte that a phase sends, and the sequencer after it is taken (R192, R193, R212, R213). -/
def Sequencer.addressByte (q : Sequencer) : Option (Byte × Sequencer) :=
  match q.phase with
  | .wAhi => some (regHigh q.reg, { q with phase := .wAlo })
  | .wAlo => some (regLow q.reg, { q with i := 0, phase := .wData })
  | .rAhi => some (regHigh q.reg, { q with phase := .rAlo })
  | .rAlo => some (regLow q.reg, { q with phase := .rEnd })
  | .idle | .attStart | .wBegin | .wData | .wEnd => none
  | .rStart | .rEnd | .rReq | .rDrain | .ext | .attFail | .release => none

section
variable {x : State} {q : Sequencer} {v : Word} {vs : List Word}

theorem addressByte_wAhi (hp : q.phase = .wAhi) :
    q.addressByte = some (regHigh q.reg, { q with phase := .wAlo }) := by simp only [Sequencer.addressByte, hp]

theorem addressByte_wAlo (hp : q.phase = .wAlo) :
    q.addressByte = some (regLow q.reg, { q with i := 0, phase := .wData }) := by
  simp only [Sequencer.addressByte, hp]

theorem addressByte_rAhi (hp : q.phase = .rAhi) :
    q.addressByte = some (regHigh q.reg, { q with phase := .rAlo }) := by simp only [Sequencer.addressByte, hp]

theorem addressByte_rAlo (hp : q.phase = .rAlo) :
    q.addressByte = some (regLow q.reg, { q with phase := .rEnd }) := by simp only [Sequencer.addressByte, hp]

theorem microStep_addressByte (hn : x.call = none) (hr : x.replies = v :: vs) {b : Byte} {q' : Sequencer}
    (hp : q.addressByte = some (b, q')) :
    (x.withSeq q).microStep = .next ((x.called (.wb b (replyOk v)) vs).withSeq
      (if replyOk v then q' else { q with phase := .attFail })) := by
  cases hphase : q.phase <;>
    simp only [Sequencer.addressByte, hphase, reduceCtorEq, Option.some.injEq, Prod.mk.injEq] at hp
  all_goals
    obtain ⟨rfl, rfl⟩ := hp
    simp only [State.microStep, withSeq_seq, hphase, State.microWAhi, State.microWAlo, State.microRAhi,
      State.microRAlo, State.tWrite, transportCall_withSeq hn hr, Call.event]
    cases replyOk v <;> rfl

/-- A byte taken: what is left of the procedure goes on; a byte refused: the attempt fails (R190, R210). -/
theorem sendAddress_ends {k : Nat} {ok : Bool} {u : State} {b : Byte} {bs : List Byte} {q' : Sequencer}
    {rest : State → Option (Bool × State)} (hn : x.call = none) (hp : q.addressByte = some (b, q'))
    (hq : ∀ i, q'.attemptEnd ok i = q.attemptEnd ok i)
    (hnext : ∀ y : State, y.call = none → y.desc = x.desc → andThen (y.sendAddress bs) rest = some (ok, u) →
      AttemptEnds k y q' ok u)
    (h : andThen (x.sendAddress (b :: bs)) rest = some (ok, u)) : AttemptEnds (k + 1) x q ok u := by
  cases hr : x.replies with
  | nil => simp [State.sendAddress, popReply_nil hr, andThen] at h
  | cons v vs =>
    have hm := microStep_addressByte hn hr hp
    rw [sendAddress_cons hr] at h
    cases hv : replyOk v with
    | true =>
      rw [hv] at h hm
      exact .step hm (hnext _ hn rfl h) rfl hq
    | false =>
      rw [hv] at h hm
      cases h
      exact .last (i := q.i) hn hm

/-- `W_END` is the close that releases the bus (R195). -/
theorem close_ends (hn : x.call = none) (hp : q.phase = .wEnd) {ok : Bool} {u : State}
    (h : x.closeTransmission true = some (ok, u)) : AttemptEnds 1 x q ok u := by
  cases hr : x.replies with
  | nil => simp [State.closeTransmission, popReply_nil hr] at h
  | cons v vs =>
    rw [closeTransmission_cons hr] at h
    cases h
    refine .last (i := q.i) hn ?_
    simp only [State.microStep, withSeq_seq, hp, State.microWEnd, State.tEnd, transportCall_withSeq hn hr, Call.event]
    by_cases hv : v = 0 <;> simp only [hv, if_true, if_false, decide_true, decide_false] <;> rfl

/-- The micro-step of `W_DATA`: a byte taken or refused (R194). -/
theorem microStep_sendByte (hn : x.call = none) (hr : x.replies = v :: vs) (hp : q.phase = .wData) :
    (x.withSeq q).microStep = .next
      (if replyOk v then ((x.called (.wb (Memory.read x.buf q.i.toNat) true) vs).cacheInc q.d).withSeq
        { q with i := q.i + 1, phase := if q.i + 1 = q.n then .wEnd else .wData }
      else (x.called (.wb (Memory.read x.buf q.i.toNat) false) vs).withSeq (q.attemptEnd false q.i)) := by
  simp only [State.microStep, withSeq_seq, hp, State.microWData, State.tWrite, transportCall_withSeq hn hr, Call.event]
  cases replyOk v <;> rfl

/-- A data byte taken: the bytes that are left go on; a byte refused: the attempt fails (R190, R194). -/
theorem sendByte_ends {left k : Nat} (hn : x.call = none) (hp : q.phase = .wData) {ok : Bool} {u : State}
    {rest : State → Option (Bool × State)}
    (hnext : ∀ y : State, y.call = none →
      andThen (y.sendData q.d left (q.i.toNat + 1)) rest = some (ok, u) →
      AttemptEnds k y { q with i := q.i + 1, phase := if q.i + 1 = q.n then .wEnd else .wData } ok u)
    (h : andThen (x.sendData q.d (left + 1) q.i.toNat) rest = some (ok, u)) :
    AttemptEnds (k + 1) x q ok u := by
  cases hr : x.replies with
  | nil => simp [State.sendData, popReply_nil hr, andThen] at h
  | cons v vs =>
    have hm := microStep_sendByte hn hr hp
    rw [sendData_succ hr] at h
    cases hv : replyOk v with
    | true =>
      rw [hv] at h hm
      exact .step hm (hnext _ hn h)
    | false =>
      rw [hv] at h hm
      cases h
      exact .last hn hm

/-- `W_DATA` sends the bytes that are left, and the close follows (R190, R194). -/
theorem sendData_ends {left : Nat} (hn : x.call = none) (hp : q.phase = .wData)
    (hleft : q.i.toNat + left + 1 = q.n.toNat) {ok : Bool} {u : State}
    (h : andThen (x.sendData q.d (left + 1) q.i.toNat) (State.closeTransmission true) = some (ok, u)) :
    AttemptEnds (left + 2) x q ok u := by
  induction left generalizing x q with
  | zero =>
    have hlast : q.i + 1 = q.n := by bv_omega
    exact sendByte_ends (left := 0) hn hp (fun y hny hy => close_ends hny (if_pos hlast) hy) h
  | succ left ih =>
    have hmore : q.i + 1 ≠ q.n := by bv_omega
    have hindex : (q.i + 1).toNat = q.i.toNat + 1 := by bv_omega
    refine sendByte_ends hn hp (fun y hny hy => ?_) h
    rw [← hindex] at hy
    exact ih hny (if_neg hmore) (by dsimp only; omega) hy

/-- What is left of the write attempt after its address (R190). -/
def State.sendAll (q : Sequencer) (s : State) : Option (Bool × State) :=
  andThen (s.sendData q.d q.n.toNat 0) (State.closeTransmission true)

/-- From the first byte of `W_DATA` (R190). -/
theorem sendAll_ends (hn : x.call = none) (hp : q.phase = .wData) (hi : q.i = 0) (h0 : q.n ≠ 0) {ok : Bool}
    {u : State} (h : x.sendAll q = some (ok, u)) : AttemptEnds (q.n.toNat + 1) x q ok u := by
  obtain ⟨left, hleft⟩ : ∃ left, q.n.toNat = left + 1 := Nat.exists_eq_succ_of_ne_zero (by bv_omega)
  have hzero : q.i.toNat = 0 := by rw [hi]; rfl
  rw [hleft]
  refine sendData_ends hn hp (by omega) ?_
  rw [hzero, ← hleft]
  exact h

/-- From `W_ALO` (R190, R193). -/
theorem writeAlo_ends (hn : x.call = none) (hp : q.phase = .wAlo) (h0 : q.n ≠ 0) {ok : Bool} {u : State}
    (h : andThen (x.sendAddress [regLow q.reg]) (State.sendAll q) = some (ok, u)) :
    AttemptEnds (q.n.toNat + 2) x q ok u :=
  sendAddress_ends (bs := []) hn (addressByte_wAlo hp) (fun _ => rfl)
    (fun _ hny _ hy => sendAll_ends (q := { q with i := 0, phase := .wData }) hny rfl rfl h0 hy) h

/-- From `W_AHI` (R190, R192). -/
theorem writeAhi_ends (hn : x.call = none) (hp : q.phase = .wAhi) (h0 : q.n ≠ 0) {ok : Bool} {u : State}
    (h : andThen (x.sendAddress [regHigh q.reg, regLow q.reg]) (State.sendAll q) = some (ok, u)) :
    AttemptEnds (q.n.toNat + 3) x q ok u :=
  sendAddress_ends hn (addressByte_wAhi hp) (fun _ => rfl)
    (fun _ hny _ hy => writeAlo_ends (q := { q with phase := .wAlo }) hny rfl h0 hy) h

/-- The registers that the procedures read are those of the sequencer (R144, R190, R210). -/
def State.reads (q : Sequencer) (x : State) : Prop :=
  x.seq.d = q.d ∧ x.seq.reg = q.reg ∧ x.seq.n = q.n ∧ x.seq.sel = q.sel

/-- A zero count fails at once (R191, R211). -/
theorem zeroCount_ends (hn : x.call = none) (hp : q.phase = .wBegin ∨ q.phase = .rStart) (h0 : q.n = 0) (k : Nat) :
    AttemptEnds (k + 1) x q false x :=
  .last (i := q.i) hn (microStep_of_move (.zeroCount hp h0))

/-- The micro-step of `W_BEGIN`: the opening, and the addressing decision (R191). -/
theorem microStep_openForWrite (hn : x.call = none) (hr : x.replies = v :: vs) (hp : q.phase = .wBegin)
    (h0 : q.n ≠ 0) :
    (x.withSeq q).microStep = .next
      (if x.needAddressing q.d q.reg then
        ((x.called (.begin (x.slot q.d).address) vs).cacheSet q.d q.reg).withSeq
          { q with phase := if (x.slot q.d).registerSize = 2 then .wAhi else .wAlo }
      else (x.called (.begin (x.slot q.d).address) vs).withSeq { q with i := 0, phase := .wData }) := by
  have haddressing : (x.withSeq q).addressing q.d q.reg =
      if x.needAddressing q.d q.reg then (if (x.slot q.d).registerSize = 2 then .high else .low) else .skip := rfl
  simp only [State.microStep, withSeq_seq, hp, State.microWBegin, if_neg h0, State.tBegin,
    transportCall_withSeq hn hr, Call.event, Call.next, haddressing]
  split_ifs <;> rfl

/-- `W_BEGIN` to `W_END` are `write_attempt` (R190), within a micro-step for the opening, one for each byte and one
for the close. -/
theorem writeAttempt_ends (hn : x.call = none) (hp : q.phase = .wBegin) (hx : x.reads q) {ok : Bool}
    {u : State} (h : x.writeAttempt = some (ok, u)) :
    AttemptEnds ((x.addressingBytes q.d q.reg).length + q.n.toNat + 2) x q ok u := by
  obtain ⟨hd, hreg, hcount, -⟩ := hx
  unfold State.writeAttempt at h
  rw [hd, hreg, hcount] at h
  by_cases h0 : q.n = 0
  · rw [if_pos h0] at h
    cases h
    exact zeroCount_ends hn (.inl hp) h0 _
  rw [if_neg h0] at h
  cases hr : x.replies with
  | nil => simp [State.openTransmission, popReply_nil hr] at h
  | cons v vs =>
    have hm := microStep_openForWrite hn hr hp h0
    rw [openTransmission_cons hr] at h
    unfold State.addressingBytes
    by_cases ha : x.needAddressing q.d q.reg = true
    · simp only [ha, if_true] at h hm ⊢
      unfold phaseAddressBytes at h ⊢
      by_cases hs : (x.slot q.d).registerSize = 2
      · simp only [hs, if_true] at h hm ⊢
        refine (AttemptEnds.step hm (writeAhi_ends (by exact hn) rfl (by exact h0) h)).mono ?_
        simp only [List.length_cons, List.length_nil]
        omega
      · simp only [hs, if_false] at h hm ⊢
        refine (AttemptEnds.step hm (writeAlo_ends (by exact hn) rfl (by exact h0) h)).mono ?_
        simp only [List.length_cons, List.length_nil]
        omega
    · simp only [if_neg ha] at h hm ⊢
      refine (AttemptEnds.step hm (sendAll_ends (by exact hn) rfl rfl (by exact h0) h)).mono ?_
      dsimp only
      omega

/-- The micro-step of `R_DRAIN`: one byte received (R216). -/
theorem microStep_drain (hn : x.call = none) (hr : x.replies = v :: vs) (hp : q.phase = .rDrain) :
    (x.withSeq q).microStep = .next ((x.drained q.d q.i.toNat v vs).withSeq
      (if q.i + 1 = q.n then q.attemptEnd true (q.i + 1) else { q with i := q.i + 1, phase := .rDrain })) := by
  simp only [State.microStep, withSeq_seq, hp, State.microRDrain, State.tRead, transportCall_withSeq hn hr, Call.event]
  by_cases hi : q.i + 1 = q.n
  · rw [if_pos hi]
    exact congrArg _ (if_pos hi)
  · rw [if_neg hi]
    exact congrArg _ (if_neg hi)

/-- `R_DRAIN` takes the bytes that are left (R210, R216). -/
theorem drainData_ends {left : Nat} (hn : x.call = none) (hp : q.phase = .rDrain)
    (hleft : q.i.toNat + left + 1 = q.n.toNat) {ok : Bool} {u : State}
    (h : x.drainData q.d (left + 1) q.i.toNat = some (ok, u)) : AttemptEnds (left + 1) x q ok u := by
  induction left generalizing x q with
  | zero =>
    cases hr : x.replies with
    | nil => simp [State.drainData, popReply_nil hr] at h
    | cons v vs =>
      have hlast : q.i + 1 = q.n := by bv_omega
      have hm := microStep_drain hn hr hp
      rw [if_pos hlast] at hm
      rw [drainData_succ hr] at h
      cases h
      exact .last hn hm
  | succ left ih =>
    cases hr : x.replies with
    | nil => simp [State.drainData, popReply_nil hr] at h
    | cons v vs =>
      have hmore : q.i + 1 ≠ q.n := by bv_omega
      have hindex : (q.i + 1).toNat = q.i.toNat + 1 := by bv_omega
      have hm := microStep_drain hn hr hp
      rw [if_neg hmore] at hm
      rw [drainData_succ hr, ← hindex] at h
      exact .step hm (ih (by exact hn) rfl (by dsimp only; omega) h)

/-- What is left of the read attempt after its addressing phase (R210). -/
def State.requestAll (a : SlaveAddr) (q : Sequencer) (s : State) : Option (Bool × State) :=
  andThen (s.requestBytes a q.n) (State.drainData q.d q.n.toNat 0)

/-- From `R_REQ` (R210, R215). -/
theorem requestAll_ends (hn : x.call = none) (hp : q.phase = .rReq) (h0 : q.n ≠ 0) {ok : Bool} {u : State}
    (h : x.requestAll (x.slot q.d).address q = some (ok, u)) : AttemptEnds (q.n.toNat + 1) x q ok u := by
  cases hr : x.replies with
  | nil => simp [State.requestAll, State.requestBytes, popReply_nil hr, andThen] at h
  | cons v vs =>
    have hm : (x.withSeq q).microStep = .next ((x.called (.req (x.slot q.d).address q.n v) vs).withSeq
        (if v = 0 then q.attemptEnd false q.i else { q with i := 0, phase := .rDrain })) := by
      simp only [State.microStep, withSeq_seq, hp, State.microRReq, State.tRequest, transportCall_withSeq hn hr,
        Call.event]
      split_ifs <;> rfl
    unfold State.requestAll at h
    rw [requestBytes_cons hr] at h
    by_cases hv : v = 0
    · rw [if_pos hv] at hm
      rw [decide_eq_false (not_not.2 hv)] at h
      cases h
      exact .last hn hm
    · rw [if_neg hv] at hm
      rw [decide_eq_true hv] at h
      obtain ⟨left, hleft⟩ : ∃ left, q.n.toNat = left + 1 := Nat.exists_eq_succ_of_ne_zero (by bv_omega)
      rw [hleft] at h ⊢
      exact .step hm (drainData_ends (by exact hn) rfl (by simp [hleft]) h)

/-- From `R_END` (R210, R214). -/
theorem readClose_ends (hn : x.call = none) (hp : q.phase = .rEnd) (h0 : q.n ≠ 0) {ok : Bool} {u : State}
    (h : andThen (x.closeTransmission false) (State.requestAll (x.slot q.d).address q) = some (ok, u)) :
    AttemptEnds (q.n.toNat + 2) x q ok u := by
  cases hr : x.replies with
  | nil => simp [State.closeTransmission, popReply_nil hr, andThen] at h
  | cons v vs =>
    have hm : (x.withSeq q).microStep = .next ((x.called (.close false v) vs).withSeq
        (if v = 0 then { q with phase := .rReq } else q.attemptEnd false q.i)) := by
      simp only [State.microStep, withSeq_seq, hp, State.microREnd, State.tEnd, transportCall_withSeq hn hr, Call.event]
      split_ifs <;> rfl
    rw [closeTransmission_cons hr] at h
    by_cases hv : v = 0
    · rw [if_pos hv] at hm
      rw [decide_eq_true hv] at h
      exact .step hm (requestAll_ends (q := { q with phase := .rReq }) (by exact hn) rfl h0 h)
    · rw [if_neg hv] at hm
      rw [decide_eq_false hv] at h
      cases h
      exact .last hn hm

/-- What is left of the read attempt after its address bytes (R210). -/
def State.closeAndRequest (a : SlaveAddr) (q : Sequencer) (s : State) : Option (Bool × State) :=
  andThen (s.closeTransmission false) (State.requestAll a q)

/-- From `R_ALO` (R210, R213). -/
theorem readAlo_ends (hn : x.call = none) (hp : q.phase = .rAlo) (h0 : q.n ≠ 0) {ok : Bool} {u : State}
    (h : andThen (x.sendAddress [regLow q.reg]) (State.closeAndRequest (x.slot q.d).address q) = some (ok, u)) :
    AttemptEnds (q.n.toNat + 3) x q ok u := by
  refine sendAddress_ends (bs := []) hn (addressByte_rAlo hp) (fun _ => rfl) (fun y hny hdesc hy => ?_) h
  rw [← slot_congr hdesc] at hy
  exact readClose_ends (q := { q with phase := .rEnd }) hny rfl h0 hy

/-- From `R_AHI` (R210, R212). -/
theorem readAhi_ends (hn : x.call = none) (hp : q.phase = .rAhi) (h0 : q.n ≠ 0) {ok : Bool} {u : State}
    (h : andThen (x.sendAddress [regHigh q.reg, regLow q.reg]) (State.closeAndRequest (x.slot q.d).address q) =
      some (ok, u)) :
    AttemptEnds (q.n.toNat + 4) x q ok u := by
  refine sendAddress_ends hn (addressByte_rAhi hp) (fun _ => rfl) (fun y hny hdesc hy => ?_) h
  rw [← slot_congr hdesc] at hy
  exact readAlo_ends (q := { q with phase := .rAlo }) hny rfl h0 hy

/-- The micro-step of `R_START` that opens an addressing phase (R211). -/
theorem microStep_openForRead (hn : x.call = none) (hr : x.replies = v :: vs) (hp : q.phase = .rStart)
    (h0 : q.n ≠ 0) (ha : x.needAddressing q.d q.reg = true) :
    (x.withSeq q).microStep = .next
      (((x.cacheSet q.d q.reg).called (.begin (x.slot q.d).address) vs).withSeq
        { q with phase := if (x.slot q.d).registerSize = 2 then .rAhi else .rAlo }) := by
  have hc := stepCall_rStart (s := x.withSeq q) hp h0 hn ha
  have hnext : (x.withSeq q).addressing q.d q.reg = if (x.slot q.d).registerSize = 2 then .high else .low :=
    if_pos ha
  rw [microStep_of_move (.rStart (s := x.withSeq q) hp hn hc hr)]
  simp only [Call.next, withSeq_seq, hnext]
  rw [returned_eq_called (s := (x.withSeq q).cacheSet q.d q.reg) hn]
  by_cases hs : (x.slot q.d).registerSize = 2
  · rw [if_pos hs, if_pos hs]
    rfl
  · rw [if_neg hs, if_neg hs]
    rfl

/-- `R_START` to `R_DRAIN` are `read_attempt` (R210), within a micro-step for the opening, one for each byte, one for
the close and one for the request. -/
theorem readAttempt_ends (hn : x.call = none) (hp : q.phase = .rStart) (hx : x.reads q) {ok : Bool}
    {u : State} (h : x.readAttempt = some (ok, u)) : AttemptEnds (q.n.toNat + 5) x q ok u := by
  obtain ⟨hd, hreg, hcount, -⟩ := hx
  unfold State.readAttempt State.readAddressing at h
  rw [hd, hreg, hcount] at h
  by_cases h0 : q.n = 0
  · rw [if_pos h0] at h
    cases h
    exact zeroCount_ends hn (.inr hp) h0 _
  rw [if_neg h0] at h
  by_cases ha : x.needAddressing q.d q.reg = true
  · rw [if_pos ha] at h
    cases hr : x.replies with
    | nil => simp [State.openTransmission, popReply_nil (s := x.cacheSet q.d q.reg) hr, andThen] at h
    | cons v vs =>
      have hm := microStep_openForRead hn hr hp h0 ha
      have hny : ((x.cacheSet q.d q.reg).called (.begin (x.slot q.d).address) vs).call = none := hn
      have haddress : (((x.cacheSet q.d q.reg).called (.begin (x.slot q.d).address) vs).slot q.d).address =
          (x.slot q.d).address := by simp
      rw [openTransmission_cons (s := x.cacheSet q.d q.reg) hr] at h
      dsimp only at h
      rw [andThen_assoc] at h
      unfold phaseAddressBytes at h
      by_cases hs : (x.slot q.d).registerSize = 2
      · simp only [hs, if_true] at h hm
        refine AttemptEnds.step hm (readAhi_ends (q := { q with phase := .rAhi }) hny rfl h0 ?_)
        rw [haddress]
        exact h
      · simp only [hs, if_false] at h hm
        refine (AttemptEnds.step hm (readAlo_ends (q := { q with phase := .rAlo }) hny rfl h0 ?_)).mono (by simp)
        rw [haddress]
        exact h
  · rw [if_neg ha] at h
    have hm := microStep_of_move (.rStartSkip (s := x.withSeq q) hp h0 hn (Bool.eq_false_iff.2 ha))
    exact (AttemptEnds.step (y := x) (q' := { q with phase := .rReq }) hm
      (requestAll_ends (q := { q with phase := .rReq }) hn rfl h0 h)).mono (by simp)

end

end Sys2Proof.Machine
end

section
/-! PROOFS. The sequencer is `transact` (R140 to R147): an attempt for each of the procedure, a delay before each retry,
and the release. -/

namespace Sys2Proof.Machine

section
variable {x u : State} {q : Sequencer} {ok : Bool}

/-- The micro-steps that an attempt of the default strategy of the select takes at most, the dispatch included. -/
def State.attemptBound (q : Sequencer) (x : State) : Nat :=
  if q.sel = 0 then (x.addressingBytes q.d q.reg).length + q.n.toNat + 3 else q.n.toNat + 6

/-- An attempt of a default strategy is its procedure, from the dispatch on (R144). -/
theorem runAttempt_ends (hn : x.call = none) (hp : q.phase = .attStart) (hx : x.reads q)
    (h : x.runAttempt = some (ok, u)) : AttemptEnds (x.attemptBound q) x q ok u := by
  have ⟨_, _, _, hs⟩ := hx
  unfold State.runAttempt at h
  unfold State.attemptBound
  rw [hs] at h
  have hm : (x.withSeq q).microStep = .next (x.withSeq
      { q with phase := if q.sel = 0 then .wBegin else if q.sel = 1 then .rStart else .ext }) :=
    microStep_of_move (.attStart hp)
  by_cases h0 : q.sel = 0
  · rw [if_pos h0] at h hm ⊢
    exact .step hm (writeAttempt_ends (q := { q with phase := .wBegin }) hn rfl hx h)
  rw [if_neg h0] at h hm ⊢
  by_cases h1 : q.sel = 1
  · rw [if_pos h1] at h hm
    exact .step hm (readAttempt_ends (q := { q with phase := .rStart }) hn rfl hx h)
  · rw [if_neg h1] at h
    cases h

/-- The end of a transaction, but for the sequencer registers, is what `RELEASE` does (R140, R146). -/
theorem microStep_release (hp : q.phase = .release) :
    (x.withSeq q).microStep = .next ((x.finishTransaction q.d q.ack).withSeq { q with phase := .idle }) :=
  microStep_of_move (.release (s := x.withSeq q) hp)

/-- The sequencer at `RELEASE` at the end of the attempts: the registers that the admission loaded are as they were but
for the retries (R145). -/
def Sequencer.attemptsEnd (ok : Bool) (i : Word) (retry : BitVec 4) (q : Sequencer) : Sequencer :=
  { q with phase := .release, retry := retry, i := i, ack := ok }

/-- After the last attempt that failed the transaction gives up (R145). -/
theorem microStep_gives_up {i : Word} (h0 : q.retry = 0) :
    (x.withSeq (q.attemptEnd false i)).microStep = .next (x.withSeq (q.attemptsEnd false i q.retry)) :=
  microStep_of_move (.exhausted rfl h0)

/-- After a failed attempt with one left there is a delay (R145). -/
theorem microStep_delay {i v : Word} {vs : List Word} (hn : x.call = none) (hr : x.replies = v :: vs)
    (h0 : q.retry ≠ 0) :
    (x.withSeq (q.attemptEnd false i)).microStep =
      .next ((x.called (.delay x.params.retryDelayMs) vs).withSeq
        { q with phase := .attStart, i := i, retry := q.retry - 1 }) := by
  have hc := stepCall_attFail (s := x.withSeq (q.attemptEnd false i)) rfl h0
  rw [withSeq_call, hn] at hc
  rw [microStep_of_move (.retry (s := x.withSeq (q.attemptEnd false i)) rfl hc hr),
    returned_eq_called (s := x.withSeq (q.attemptEnd false i)) hn]
  rfl

/-- The attempts of a transaction are the procedure's, each but the first after a delay; every attempt but the first
takes away one retry, and they stop early only for a success (R140, R145, R147). -/
theorem attemptLoop_ends {r m : Nat} (hn : x.call = none) (hp : q.phase = .attStart) (hx : x.reads q)
    (hr : q.retry.toNat = r) (h : State.attemptLoop r x = some (m, ok, u)) :
    ∃ i retry k, (x.withSeq q).ReachesWithin k (u.withSeq (q.attemptsEnd ok i retry)) ∧ 1 ≤ m ∧
      retry.toNat + m = r + 1 ∧ (ok = false → m = r + 1) := by
  induction r generalizing x q m with
  | zero =>
    cases ha : x.runAttempt with
    | none => simp [State.attemptLoop, ha] at h
    | some p =>
      obtain ⟨ok', t⟩ := p
      simp only [State.attemptLoop, ha, Option.some.injEq, Prod.mk.injEq] at h
      obtain ⟨rfl, rfl, rfl⟩ := h
      obtain ⟨-, -, i, hreach⟩ := runAttempt_ends hn hp hx ha
      have hrest : (t.withSeq (q.attemptEnd ok' i)).ReachesWithin 1 (t.withSeq (q.attemptsEnd ok' i q.retry)) := by
        cases ok' with
        | true => exact .refl 1 _
        | false => exact .step (microStep_gives_up (by bv_omega)) (.refl 0 _)
      exact ⟨i, q.retry, _, hreach.trans hrest, Nat.le_refl 1, by omega, fun _ => rfl⟩
  | succ r ih =>
    cases ha : x.runAttempt with
    | none => simp [State.attemptLoop, ha] at h
    | some p =>
      obtain ⟨ok', t⟩ := p
      obtain ⟨hseq, hcall, i, hreach⟩ := runAttempt_ends hn hp hx ha
      cases ok' with
      | true =>
        simp only [State.attemptLoop, ha, Option.some.injEq, Prod.mk.injEq] at h
        obtain ⟨rfl, rfl, rfl⟩ := h
        exact ⟨i, q.retry, _, hreach, Nat.le_refl 1, by omega, nofun⟩
      | false =>
        cases hd : t.replies with
        | nil => simp [State.attemptLoop, ha, State.retryDelay, popReply_nil hd] at h
        | cons v vs =>
          have hretry : q.retry ≠ 0 := by bv_omega
          simp only [State.attemptLoop, ha, retryDelay_cons hd] at h
          cases hl : State.attemptLoop r (t.called (.delay t.params.retryDelayMs) vs) with
          | none => simp [hl] at h
          | some p =>
            obtain ⟨m', ok', u'⟩ := p
            simp only [hl, Option.some.injEq, Prod.mk.injEq] at h
            obtain ⟨rfl, rfl, rfl⟩ := h
            obtain ⟨i', retry, k, hrest, hone, hcount, hlast⟩ :=
              ih (x := t.called (.delay t.params.retryDelayMs) vs)
                (q := { q with phase := .attStart, i := i, retry := q.retry - 1 }) hcall rfl
                (by rw [State.reads, called_seq, hseq]; exact hx)
                (by have := toNat_sub_one_add_one hretry; dsimp only; omega) hl
            exact ⟨i', retry, _, hreach.trans (.step (microStep_delay hcall hd hretry) hrest), by omega,
              by omega, fun hok => by rw [hlast hok]⟩

end

/-- Settles O55: the attempts, and then the release; the delays are counted by the retries. -/
theorem sequencerRefinesTransact : Obligations.SequencerRefinesTransact := by
  intro s u m ok hp hn hsel h
  obtain ⟨i, retry, k, hreach, hone, hcount, hlast⟩ :=
    attemptLoop_ends (q := s.seq) hn hp ⟨rfl, rfl, rfl, rfl⟩ rfl h
  obtain ⟨j, -, hrun⟩ := hreach.trans (.step (microStep_release rfl) (.refl 0 _))
  have hdefault : s.RunsDefault := ⟨callFits_of_call_eq_none hn, hsel, by simp [hp]⟩
  have hsum := microRun_delays_add_retry hdefault hrun
  refine ⟨j, _, hrun, rfl, rfl, hone, by omega, hlast, ?_⟩
  change _ + retry.toNat = _ at hsum
  omega

end Sys2Proof.Machine
end

section
/-! PROOFS. The procedures with a transport that accepts everything (R190, R210): each part of an attempt succeeds, and
what it has changed. -/

namespace Sys2Proof.Machine

/-! ### Several calls -/

/-- The state after some transport calls: their events are in the trace, `vs` is left of the replies, and `BUF` is
`m`. -/
def State.exchange (es : List Event) (vs : List Word) (m : Memory) (s : State) : State :=
  { s with replies := vs, trace := s.trace ++ es, buf := m }

section
variable (es es' : List Event) (vs vs' : List Word) (m m' : Memory) (s : State)

@[simp] theorem exchange_exchange :
    (s.exchange es vs m).exchange es' vs' m' = s.exchange (es ++ es') vs' m' := by
  simp [State.exchange]

@[simp] theorem exchange_buf : (s.exchange es vs m).buf = m := rfl

@[simp] theorem mapCache_buf (d : Slot) (f : Word → Word) : (s.mapCache d f).buf = s.buf := rfl

@[simp] theorem exchange_mapCache (d : Slot) (f : Word → Word) :
    (s.mapCache d f).exchange es vs m = (s.exchange es vs m).mapCache d f := rfl

theorem called_eq_exchange (e : Event) : s.called e vs = s.exchange [e] vs s.buf := rfl

theorem exchange_nil {s : State} {vs : List Word} (h : s.replies = vs) : s.exchange [] vs s.buf = s := by
  subst h
  simp [State.exchange]
end

@[simp] theorem mapCache_mapCache (d : Slot) (f g : Word → Word) (s : State) :
    (s.mapCache d f).mapCache d g = s.mapCache d fun c => g (f c) := by
  simp [State.mapCache, State.setSlot, State.slot]

theorem setSlot_slot (d : Slot) (s : State) : s.setSlot d (s.slot d) = s := by
  simp [State.setSlot, State.slot]

theorem mapCache_id (d : Slot) (s : State) : s.mapCache d (fun c => c) = s := setSlot_slot d s

theorem cacheSet_eq_mapCache (d : Slot) (reg : Word) (s : State) : s.cacheSet d reg = s.mapCache d fun _ => reg := rfl

theorem cacheInc_eq_mapCache (d : Slot) (s : State) : s.cacheInc d = s.mapCache d (· + 1) := rfl

/-! ### Address bytes -/

theorem sendAddress_accepted {bs : List Byte} {acks rest : List Word} {s : State} (hlen : acks.length = bs.length)
    (hok : ∀ v ∈ acks, v ≠ 0) (hr : s.replies = acks ++ rest) :
    s.sendAddress bs = some (true, s.exchange (bs.map (Event.wb · true)) rest s.buf) := by
  induction bs generalizing s acks with
  | nil =>
    obtain rfl := List.length_eq_zero_iff.1 hlen
    rw [List.map_nil, exchange_nil (by simpa using hr)]
    rfl
  | cons b bs ih =>
    obtain ⟨v, acks, rfl⟩ := List.exists_cons_of_length_eq_add_one hlen
    have hv : replyOk v = true := (replyOk_iff v).2 (hok v (by simp))
    rw [sendAddress_cons (vs := acks ++ rest) hr, if_pos hv,
      ih (acks := acks) (by simpa using hlen) (fun w hw => hok w (by simp [hw])) rfl, called_eq_exchange,
      exchange_exchange]
    rfl

/-! ### Data bytes sent -/

theorem succ_ofNat (c : Word) (n : Nat) : c + 1 + BitVec.ofNat 16 n = c + BitVec.ofNat 16 (n + 1) := by
  rw [BitVec.add_assoc, Nat.add_comm, BitVec.ofNat_add]
  rfl

theorem sendData_accepted {left i : Nat} {acks rest : List Word} {s : State} (d : Slot) (hlen : acks.length = left)
    (hok : ∀ v ∈ acks, v ≠ 0) (hr : s.replies = acks ++ rest) :
    s.sendData d left i = some (true,
      (s.exchange (((List.range' i left).map (Memory.read s.buf)).map (Event.wb · true)) rest s.buf).mapCache d
        (· + BitVec.ofNat 16 left)) := by
  induction left generalizing s acks i with
  | zero =>
    obtain rfl := List.length_eq_zero_iff.1 hlen
    simp [exchange_nil (show s.replies = rest from hr), mapCache_id, State.sendData]
  | succ left ih =>
    obtain ⟨v, acks, rfl⟩ := List.exists_cons_of_length_eq_add_one hlen
    have hv : replyOk v = true := (replyOk_iff v).2 (hok v (by simp))
    rw [sendData_succ (vs := acks ++ rest) hr, if_pos hv,
      ih (acks := acks) (by simpa using hlen) (fun w hw => hok w (by simp [hw])) rfl]
    simp only [called_eq_exchange, cacheInc_eq_mapCache, succ_ofNat, List.range'_succ, mapCache_mapCache,
      exchange_mapCache, exchange_exchange]
    rfl

/-! ### Data bytes received -/

/-- Bytes put into memory one after another, from an index on. -/
def Memory.writeBytes (m : Memory) (i : Nat) : List Byte → Memory
  | [] => m
  | b :: bs => Memory.writeBytes (Memory.write m i b) (i + 1) bs

theorem read_writeBytes_outside {m : Memory} {i a : Nat} {bs : List Byte} (hm : Memory.wf m = true)
    (hlt : i + bs.length ≤ Config.bufSize) (ha : a < i ∨ i + bs.length ≤ a) :
    Memory.read (Memory.writeBytes m i bs) a = Memory.read m a := by
  induction bs generalizing m i with
  | nil => rfl
  | cons b bs ih =>
    simp only [List.length_cons] at hlt ha
    rw [Memory.writeBytes, ih (wf_write hm (by omega) b) (by omega) (by omega), read_write_ne hm (by omega)]

theorem read_writeBytes_inside {m : Memory} {i j : Nat} {bs : List Byte} (hm : Memory.wf m = true)
    (hlt : i + bs.length ≤ Config.bufSize) (hj : j < bs.length) :
    Memory.read (Memory.writeBytes m i bs) (i + j) = bs[j] := by
  induction bs generalizing m i j with
  | nil => cases hj
  | cons b bs ih =>
    simp only [List.length_cons] at hlt hj
    have hwf := wf_write hm (show i < Config.bufSize by omega) b
    cases j with
    | zero =>
      rw [Memory.writeBytes, read_writeBytes_outside hwf (by omega) (by omega)]
      exact read_write_self hm i b
    | succ j =>
      rw [Memory.writeBytes, show i + (j + 1) = i + 1 + j by omega, ih hwf (by omega) (by omega)]
      rfl

theorem drainData_accepted {i : Nat} {bytes rest : List Word} {s : State} (d : Slot)
    (hr : s.replies = bytes ++ rest) :
    s.drainData d bytes.length i = some (true,
      (s.exchange (bytes.map fun v => .rb (replyByte v)) rest
        (Memory.writeBytes s.buf i (bytes.map replyByte))).mapCache d (· + BitVec.ofNat 16 bytes.length)) := by
  induction bytes generalizing s i with
  | nil =>
    have hnil : s.exchange [] rest s.buf = s := exchange_nil hr
    simp [State.drainData, Memory.writeBytes, hnil, mapCache_id]
  | cons v bytes ih =>
    rw [List.length_cons, drainData_succ (vs := bytes ++ rest) hr, ih rfl]
    have hdrained : s.drained d i v (bytes ++ rest) =
        (s.exchange [.rb (replyByte v)] (bytes ++ rest) (Memory.write s.buf i (replyByte v))).mapCache d (· + 1) := rfl
    simp only [hdrained, exchange_mapCache, exchange_exchange, mapCache_mapCache, succ_ofNat]
    rfl

/-! ### Whole attempts -/

section
variable {x : State} {rest : List Word}

/-- The cache after the addressing decision (R171, R172). -/
def State.decidedCache (d : Slot) (reg : Word) (s : State) (c : Word) : Word :=
  if s.needAddressing d reg then reg else c

/-- The events of the addressing phase of a read attempt that is accepted (R210). -/
def State.addressingEvents (d : Slot) (reg : Word) (s : State) : List Event :=
  if s.needAddressing d reg then
    .begin (s.slot d).address :: ((s.addressingBytes d reg).map (Event.wb · true) ++ [.close false 0])
  else []

theorem mapCache_decidedCache_of_not {d : Slot} {reg : Word} (h : ¬ x.needAddressing d reg = true) (s : State) :
    s.mapCache d (x.decidedCache d reg) = s := by
  have hid : x.decidedCache d reg = fun c => c := funext fun c => if_neg h
  rw [hid, mapCache_id]

theorem mapCache_decidedCache_of_need {d : Slot} {reg : Word} (h : x.needAddressing d reg = true) (s : State) :
    s.mapCache d (x.decidedCache d reg) = s.cacheSet d reg := by
  have hset : x.decidedCache d reg = fun _ => reg := funext fun c => if_pos h
  rw [hset, cacheSet_eq_mapCache]

theorem addressingBytes_of_need {d : Slot} {reg : Word} (h : x.needAddressing d reg = true) :
    x.addressingBytes d reg = phaseAddressBytes (x.slot d).registerSize reg := if_pos h

theorem addressingBytes_of_not {d : Slot} {reg : Word} (h : ¬ x.needAddressing d reg = true) :
    x.addressingBytes d reg = [] := if_neg h

/-- A write attempt that is accepted (R190): the opening, the address bytes, the data bytes and the close. -/
theorem writeAttempt_accepted {d : Slot} {reg n opened : Word} {acks : List Word} (hd : x.seq.d = d)
    (hreg : x.seq.reg = reg) (hn : x.seq.n = n) (h0 : n ≠ 0)
    (hlen : acks.length = (x.addressingBytes d reg).length + n.toNat) (hok : ∀ v ∈ acks, v ≠ 0)
    (hr : x.replies = opened :: (acks ++ 0 :: rest)) :
    x.writeAttempt = some (true,
      (x.exchange (.begin (x.slot d).address ::
        ((x.addressingBytes d reg ++ Memory.firstBytes x.buf n.toNat).map (Event.wb · true) ++ [.close true 0]))
        rest x.buf).mapCache d (fun c => x.decidedCache d reg c + n)) := by
  obtain ⟨addressAcks, dataAcks, rfl, haddress, hdata⟩ : ∃ as bs, acks = as ++ bs ∧
      as.length = (x.addressingBytes d reg).length ∧ bs.length = n.toNat :=
    ⟨acks.take _, acks.drop _, (List.take_append_drop (x.addressingBytes d reg).length acks).symm,
      by simp; omega, by simp; omega⟩
  have phase : (if x.needAddressing d reg then
      ((x.called (.begin (x.slot d).address) (addressAcks ++ dataAcks ++ 0 :: rest)).cacheSet d reg).sendAddress
        (phaseAddressBytes (x.slot d).registerSize reg)
      else some (true, x.called (.begin (x.slot d).address) (addressAcks ++ dataAcks ++ 0 :: rest))) =
      some (true, (x.exchange (.begin (x.slot d).address :: (x.addressingBytes d reg).map (Event.wb · true))
        (dataAcks ++ 0 :: rest) x.buf).mapCache d (x.decidedCache d reg)) := by
    by_cases ha : x.needAddressing d reg = true
    · rw [addressingBytes_of_need ha] at haddress ⊢
      rw [if_pos ha, mapCache_decidedCache_of_need ha,
        sendAddress_accepted haddress (fun v hv => hok v (by simp [hv])) (List.append_assoc ..)]
      simp only [cacheSet_eq_mapCache, called_eq_exchange, exchange_mapCache, exchange_exchange]
      rfl
    · rw [addressingBytes_of_not ha] at haddress ⊢
      obtain rfl := List.length_eq_zero_iff.1 haddress
      rw [if_neg ha, mapCache_decidedCache_of_not ha]
      rfl
  unfold State.writeAttempt
  rw [hd, hreg, hn, if_neg h0, openTransmission_cons hr]
  dsimp only
  rw [phase, andThen, sendData_accepted d hdata (fun v hv => hok v (by simp [hv])) rfl, andThen,
    closeTransmission_cons rfl]
  simp [called_eq_exchange, Memory.firstBytes, List.range_eq_range']

/-- The addressing phase of a read attempt that is accepted (R210). -/
theorem readAddressing_accepted {d : Slot} {reg opened : Word} {acks : List Word} (hd : x.seq.d = d)
    (hreg : x.seq.reg = reg) (hlen : acks.length = (x.addressingBytes d reg).length) (hok : ∀ v ∈ acks, v ≠ 0)
    (hr : x.replies = (if x.needAddressing d reg then opened :: (acks ++ [0]) else []) ++ rest) :
    x.readAddressing = some (true,
      (x.exchange (x.addressingEvents d reg) rest x.buf).mapCache d (x.decidedCache d reg)) := by
  unfold State.readAddressing State.addressingEvents
  rw [hd, hreg]
  by_cases ha : x.needAddressing d reg = true
  · rw [addressingBytes_of_need ha] at hlen ⊢
    rw [if_pos ha, List.cons_append] at hr
    rw [if_pos ha, if_pos ha, mapCache_decidedCache_of_need ha, openTransmission_cons (s := x.cacheSet d reg) hr]
    dsimp only
    rw [sendAddress_accepted (rest := 0 :: rest) hlen hok (by simp), andThen, closeTransmission_cons rfl]
    simp [cacheSet_eq_mapCache, called_eq_exchange]
  · rw [if_neg ha] at hr
    rw [if_neg ha, if_neg ha, mapCache_decidedCache_of_not ha, exchange_nil (by simpa using hr)]

/-- A read attempt that is accepted (R210): the addressing phase if there is one, the request and the drain. -/
theorem readAttempt_accepted {d : Slot} {reg n opened cnt : Word} {acks bytes : List Word} (hd : x.seq.d = d)
    (hreg : x.seq.reg = reg) (hn : x.seq.n = n) (h0 : n ≠ 0)
    (hlen : acks.length = (x.addressingBytes d reg).length) (hok : ∀ v ∈ acks, v ≠ 0) (hcnt : cnt ≠ 0)
    (hbytes : bytes.length = n.toNat)
    (hr : x.replies = (if x.needAddressing d reg then opened :: (acks ++ [0]) else []) ++ cnt :: (bytes ++ rest)) :
    x.readAttempt = some (true,
      (x.exchange (x.addressingEvents d reg ++
        .req (x.slot d).address n cnt :: (bytes.map fun v => .rb (replyByte v))) rest
        (Memory.writeBytes x.buf 0 (bytes.map replyByte))).mapCache d
        (fun c => x.decidedCache d reg c + n)) := by
  unfold State.readAttempt
  rw [hn, if_neg h0, readAddressing_accepted hd hreg hlen hok hr, andThen, requestBytes_cons rfl, decide_eq_true hcnt,
    andThen, hd, ← hbytes, drainData_accepted d rfl, hbytes]
  simp [called_eq_exchange]

end
end Sys2Proof.Machine
end

section
/-! PROOFS. Whole transactions (R141, R142): from the command to the response, with a transport that accepts
everything. -/

namespace Sys2Proof.Machine

/-! ### Steps with nothing pending are micro-steps -/

theorem step_eq_microStep {s : State} (hi : s.inputs = []) (hk : s.clockCall = none) : step s = s.microStep :=
  (step_nil hi).trans (blockStep_none (.inl hk))

theorem run_eq_microRun {s : State} (hi : s.inputs = []) (hk : s.clockCall = none) (k : Nat) :
    Sys2Proof.core.run k s = s.microRun k := by
  induction k generalizing s with
  | zero => rfl
  | succ k ih =>
    have hstep : Sys2Proof.core.step s = s.microStep := step_eq_microStep hi hk
    cases hm : s.microStep with
    | next t =>
      have ht : t.inputs = [] ∧ t.clockCall = none := by
        rcases microStep_next hm with ⟨rfl, -⟩ | hmove
        · exact ⟨hi, hk⟩
        · exact ⟨hmove.inputs_eq.trans hi, hmove.clockCall_eq.trans hk⟩
      obtain ⟨hti, htk⟩ := ht
      simp only [Host.Core.run, hstep, hm, State.microRun]
      exact ih hti htk
    | fault r => cases r
    | refused r =>
      simp only [Host.Core.run, hstep, hm, State.microRun]
      rfl

/-- The sequencer stays in `IDLE`. -/
theorem microRun_of_idle {s : State} (h : s.seq.phase = .idle) (k : Nat) : s.microRun k = .next s := by
  have hm : s.microStep = .next s := by simp only [State.microStep, h]
  induction k with
  | zero => rfl
  | succ k ih => rw [microRun_succ hm, ih]

/-- A transaction that ends within `k` micro-steps has ended after `k`. -/
theorem State.ReachesWithin.microRun_eq {s t : State} {k : Nat} (h : s.ReachesWithin k t) (ht : t.seq.phase = .idle) :
    s.microRun k = .next t := by
  obtain ⟨j, hj, hrun⟩ := h
  obtain ⟨l, rfl⟩ := Nat.exists_eq_add_of_le hj
  rw [microRun_add hrun, microRun_of_idle ht]

/-! ### From the command to the response -/

/-- The state after the admission of the only input (R143). -/
def State.admitted (d : Slot) (dir : Direction) (reg n : Word) (s : State) : State :=
  (State.loadSequencer d dir reg n { s with inputs := [] }).setBusy true

/-- The cache after an attempt on `n` bytes that is accepted: only in mode NONE does it differ from the requested
address when the attempt has decided (R171, R218). -/
theorem decidedCache_add (s : State) (d : Slot) (reg n : Word) :
    s.decidedCache d reg (s.slot d).cache + n =
      if (s.slot d).registerSize = 0 then (s.slot d).cache + n else reg + n := by
  unfold State.decidedCache
  by_cases ha : s.needAddressing d reg = true
  · obtain ⟨hsize, -⟩ := (needAddressing_iff ..).1 ha
    rw [if_pos ha, if_neg hsize]
  · rw [if_neg ha]
    split_ifs with hsize
    · rfl
    · rw [needAddressing_iff] at ha
      rw [not_not.1 fun hne => ha ⟨hsize, hne⟩]

/-- What a transaction that succeeds has changed, but for the sequencer registers: the cache and the status of its slot,
`BUF`, the inputs, the replies, the trace and the responses; the lock is free, as it was (R146, R218). -/
def State.completed (d : Slot) (reg n : Word) (es : List Event) (vs : List Word) (m : Memory) (q : Sequencer)
    (s : State) : State :=
  { s.setSlot d
      { s.slot d with
        cache := if (s.slot d).registerSize = 0 then (s.slot d).cache + n else reg + n
        status := 0 } with
    seq := q
    buf := m
    inputs := []
    replies := vs
    trace := s.trace ++ es
    responses := s.responses ++ [0] }

theorem slot_completed (d : Slot) (reg n : Word) (es : List Event) (vs : List Word) (m : Memory) (q : Sequencer)
    (s : State) :
    (s.completed d reg n es vs m q).slot d =
      { s.slot d with
        cache := if (s.slot d).registerSize = 0 then (s.slot d).cache + n else reg + n
        status := 0 } :=
  slot_setSlot_self d _ s

/-- The end of a transaction whose attempt has made its calls and counted its bytes (R140, R146). -/
theorem finishTransaction_eq_completed {d : Slot} {dir : Direction} {reg n : Word} {s : State} (hb : s.bus.busy = false)
    (es : List Event) (vs : List Word) (m : Memory) (q : Sequencer) :
    ((((s.admitted d dir reg n).exchange es vs m).mapCache d
      (fun c => s.decidedCache d reg c + n)).finishTransaction d true).withSeq q = s.completed d reg n es vs m q := by
  have hbus : { s.bus with busy := false } = s.bus := by rw [← hb]
  unfold State.completed
  rw [← decidedCache_add]
  simp [State.finishTransaction, State.withSeq, State.mapCache, State.exchange, State.admitted, State.setBusy,
    State.setSlot, State.slot, endStatus, hbus]

/-- A WRITE or READ that is the only input, and whose first attempt succeeds, runs to its response. -/
theorem transaction_completes {c : Instr} {d : Slot} {dir : Direction} {reg n : Word} {s : State} {es : List Event}
    {vs : List Word} {m : Memory}
    (hc : c = .write d reg n ∧ dir = .write ∨ c = .read d reg n ∧ dir = .read)
    (hi : s.inputs = [.command .main (encode c)]) (hn : s.call = none) (hk : s.clockCall = none)
    (hp : s.seq.phase = .idle) (hb : s.bus.busy = false) (hd : d.toNat < s.params.nDesc)
    (hu : (s.admitted d dir reg n).runAttempt = some (true,
      ((s.admitted d dir reg n).exchange es vs m).mapCache d fun c => s.decidedCache d reg c + n)) :
    ∃ q : Sequencer, q.phase = .idle ∧
      Sys2Proof.core.run ((s.admitted d dir reg n).attemptBound (s.admitted d dir reg n).seq + 2) s =
        .next (s.completed d reg n es vs m q) := by
  obtain ⟨-, -, i, hreach⟩ :=
    runAttempt_ends (x := s.admitted d dir reg n) (q := (s.admitted d dir reg n).seq) hn rfl ⟨rfl, rfl, rfl, rfl⟩ hu
  have hstep : Sys2Proof.core.step s = .next (s.admitted d dir reg n) := by
    have htaken : s.nextInput = some (.command .main (encode c), []) := nextInput_head hi (by
      rw [takes_command, accepts_iff]
      exact ⟨hk, fun _ => hp, holdsBack_none hn _⟩)
    refine (step_runs ((decode_eq_ok_iff _ _).2 rfl) htaken).trans ?_
    exact exec_of_command (.admitted (s := { s with inputs := [] }) c d dir reg n hd hb hc)
  have hend := ((hreach.trans (.step (microStep_release rfl) (.refl 0 _))).microRun_eq rfl).trans
    (congrArg _ (finishTransaction_eq_completed (dir := dir) hb es vs m _))
  refine ⟨{ (s.admitted d dir reg n).seq.attemptEnd true i with phase := .idle }, rfl, ?_⟩
  simp only [Host.Core.run, hstep]
  exact (run_eq_microRun (s := s.admitted d dir reg n) rfl hk _).trans hend

/-! ### The obligations -/

/-- After an access of `n` bytes the next contiguous one needs no addressing phase, and the same one needs it (R197,
R218). -/
theorem needAddressing_after_access {d : Slot} {reg n : Word} {t : State} (h0 : n ≠ 0)
    (hsize : (t.slot d).registerSize ≠ 0) (hcache : (t.slot d).cache = reg + n) :
    t.needAddressing d (reg + n) = false ∧ t.needAddressing d reg = true := by
  refine ⟨(needAddressing_false_iff ..).2 fun h => h.2 hcache.symm, (needAddressing_iff ..).2 ⟨hsize, ?_⟩⟩
  rw [hcache]
  bv_omega

/-- Settles O50: the procedure with every byte accepted, and the transaction around it. -/
theorem writeTransactionCompletes : Obligations.WriteTransactionCompletes := by
  intro d reg n s opened acks rest hi hn hk hp hb hd hsel h0 hlen hok hr
  have hattempt := writeAttempt_accepted (x := s.admitted d .write reg n) rfl rfl rfl h0 hlen hok hr
  obtain ⟨q, hidle, hrun⟩ := transaction_completes (.inl ⟨rfl, rfl⟩) hi hn hk hp hb hd
    ((if_pos hsel).trans hattempt)
  have hbound : (s.admitted d .write reg n).attemptBound (s.admitted d .write reg n).seq + 2 = acks.length + 5 := by
    rw [State.attemptBound, if_pos (show (s.admitted d .write reg n).seq.sel = 0 from hsel), hlen]
    rfl
  rw [hbound] at hrun
  refine ⟨_, hrun, hidle, rfl, fun hsize => needAddressing_after_access h0 ?_ ?_⟩
  · rw [slot_completed]
    exact hsize
  · rw [slot_completed]
    exact if_neg hsize

/-- Settles O51: the procedure with every byte accepted, and the transaction around it. -/
theorem readTransactionCompletes : Obligations.ReadTransactionCompletes := by
  intro d reg n s opened cnt acks bytes rest hi hn hk hp hb hd hsel h0 hwf hlen hok hcnt hbytes hr
  have hattempt := readAttempt_accepted (x := s.admitted d .read reg n) rfl rfl rfl h0 hlen hok hcnt hbytes hr
  have hread : (s.admitted d .read reg n).runAttempt = (s.admitted d .read reg n).readAttempt := by
    have hone : (s.admitted d .read reg n).seq.sel = 1 := hsel
    simp [State.runAttempt, hone]
  obtain ⟨q, hidle, hrun⟩ := transaction_completes (.inr ⟨rfl, rfl⟩) hi hn hk hp hb hd (hread.trans hattempt)
  have hinside : 0 + (bytes.map replyByte).length ≤ Config.bufSize := by
    have := index_lt_bufSize n
    simp only [List.length_map]
    omega
  refine ⟨_, _, hrun, hidle, fun i h => ?_, fun a ha => ?_, ?_⟩
  · have hbyte := read_writeBytes_inside (j := i) hwf hinside (by simpa using h)
    rw [Nat.zero_add, List.getElem_map] at hbyte
    exact hbyte
  · exact read_writeBytes_outside hwf hinside (.inr (by simp only [List.length_map]; omega))
  · rw [List.append_assoc]
    rfl

end Sys2Proof.Machine
end

section
/-! PROOFS. The register-address cache (R170 to R175): when an attempt sends register-address bytes, and what a
micro-step and a command make of a slot. -/

namespace Sys2Proof.Machine

/-! ### The addressing decision -/

/-- A phase that the addressing decision chose shows the decision, on all 16 bits and with no exception for the
sentinel (R171). -/
theorem decision_of_phase_eq {s : State} {d : Slot} {reg : Word} {p high low skip : Phase}
    (h : p = if s.needAddressing d reg then (if (s.slot d).registerSize = 2 then high else low) else skip)
    (hhigh : skip ≠ high) (hlow : skip ≠ low) :
    ((p = high ∨ p = low) ↔ ((s.slot d).registerSize ≠ 0 ∧ reg ≠ (s.slot d).cache)) ∧
      ((s.slot d).registerSize = 0 → p = skip) ∧ (reg = 0xFFFF → (s.slot d).cache = 0xFFFF → p = skip) := by
  rw [← needAddressing_iff]
  cases ha : s.needAddressing d reg with
  | true =>
    obtain ⟨hsize, hreg⟩ := (needAddressing_iff ..).1 ha
    have hp : p = high ∨ p = low := by
      rw [h, ha]
      exact ite_eq_or_eq ((s.slot d).registerSize = 2) high low
    exact ⟨⟨fun _ => rfl, fun _ => hp⟩, fun h0 => absurd h0 hsize, fun hr hc => absurd (hr.trans hc.symm) hreg⟩
  | false =>
    have hp : p = skip := by simpa [ha] using h
    simp [hp, hhigh, hlow]

section
variable {s t : State} {v : Word} {vs : List Word}

/-- The phase after `W_BEGIN`, its call made and answered at once (R191). -/
theorem phase_after_wBegin (hp : s.seq.phase = .wBegin) (h0 : s.seq.n ≠ 0) (hn : s.call = none)
    (hr : s.replies = v :: vs) (h : s.microStep = .next t) :
    t.seq.phase = if s.needAddressing s.seq.d s.seq.reg then
      (if (s.slot s.seq.d).registerSize = 2 then .wAhi else .wAlo) else .wData := by
  obtain rfl := Host.Outcome.next.inj (h.symm.trans (microStep_openForWrite hn hr hp h0))
  split <;> rfl

/-- The phase after `R_START`, its call, if it makes one, answered at once (R211). -/
theorem phase_after_rStart (hp : s.seq.phase = .rStart) (h0 : s.seq.n ≠ 0) (hn : s.call = none)
    (hr : s.replies = v :: vs) (h : s.microStep = .next t) :
    t.seq.phase = if s.needAddressing s.seq.d s.seq.reg then
      (if (s.slot s.seq.d).registerSize = 2 then .rAhi else .rAlo) else .rReq := by
  cases ha : s.needAddressing s.seq.d s.seq.reg with
  | true =>
    obtain rfl := Host.Outcome.next.inj (h.symm.trans (microStep_openForRead hn hr hp h0 ha))
    rfl
  | false =>
    obtain rfl := Host.Outcome.next.inj (h.symm.trans (microStep_of_move (.rStartSkip hp h0 hn ha)))
    rfl

/-- `T.begin` of a write attempt returns, made with an address byte to send: the cache is set and the byte comes
next (R148, R191). -/
theorem wBegin_returns_address (hp : s.seq.phase = .wBegin) (h0 : s.seq.n ≠ 0) {a : SlaveAddr} {next : Addressing}
    (hc : s.call = some (.begin a next)) (hs : next ≠ .skip) (hr : s.replies = v :: vs)
    (h : s.microStep = .next t) :
    t.call = none ∧ t.replies = vs ∧ t.trace = s.trace ++ [.begin a] ∧
      t.seq.phase = (if next = .high then .wAhi else .wAlo) ∧ (t.slot s.seq.d).cache = s.seq.reg := by
  have hcall : s.stepCall = some (.begin a next) := by rw [stepCall_wBegin hp h0, hc, Option.getD_some]
  obtain rfl := Host.Outcome.next.inj (h.symm.trans (microStep_of_move (.wBeginAddress hp hcall hr hs)))
  exact ⟨rfl, rfl, rfl, rfl, by simp⟩

/-- `T.begin` of a write attempt returns, made with no address byte to send: the data comes next (R148, R191). -/
theorem wBegin_returns_skip (hp : s.seq.phase = .wBegin) (h0 : s.seq.n ≠ 0) {a : SlaveAddr}
    (hc : s.call = some (.begin a .skip)) (hr : s.replies = v :: vs) (h : s.microStep = .next t) :
    t.call = none ∧ t.replies = vs ∧ t.trace = s.trace ++ [.begin a] ∧
      t.seq.phase = .wData ∧ t.slot s.seq.d = s.slot s.seq.d := by
  have hcall : s.stepCall = some (.begin a .skip) := by rw [stepCall_wBegin hp h0, hc, Option.getD_some]
  obtain rfl := Host.Outcome.next.inj (h.symm.trans (microStep_of_move (.wBeginSkip hp hcall hr rfl)))
  exact ⟨rfl, rfl, rfl, rfl, rfl⟩

/-- `T.begin` of a read attempt returns: the decision it was made with is carried out, the cache having been set
before the call (R148, R211). -/
theorem rStart_returns (hp : s.seq.phase = .rStart) (h0 : s.seq.n ≠ 0) {a : SlaveAddr} {next : Addressing}
    (hc : s.call = some (.begin a next)) (hs : next ≠ .skip) (hr : s.replies = v :: vs)
    (h : s.microStep = .next t) :
    t.call = none ∧ t.replies = vs ∧ t.trace = s.trace ++ [.begin a] ∧
      t.seq.phase = (if next = .high then .rAhi else .rAlo) ∧ t.slot s.seq.d = s.slot s.seq.d := by
  obtain rfl := Host.Outcome.next.inj (h.symm.trans (microStep_of_move (.rStartReturns hp h0 hc hr)))
  cases next with
  | high | low => exact ⟨rfl, rfl, rfl, rfl, rfl⟩
  | skip => exact absurd rfl hs

end

/-- Settles O36: the phase after a call answered at once is the one the decision chooses, and a call that was
outstanding carries its decision. -/
theorem addressingDecision : Obligations.AddressingDecision := by
  intro s t v vs h0 hr h
  refine ⟨fun hp => ⟨fun hn => ?_, fun a next hc => ?_⟩,
    fun hp => ⟨fun hn => ?_, fun a next hc hs => rStart_returns hp h0 hc hs hr h⟩⟩
  · exact decision_of_phase_eq (phase_after_wBegin hp h0 hn hr h) nofun nofun
  · cases next with
    | high | low => exact wBegin_returns_address hp h0 hc nofun hr h
    | skip => exact wBegin_returns_skip hp h0 hc hr h
  · exact decision_of_phase_eq (phase_after_rStart hp h0 hn hr h) nofun nofun

/-! ### What a micro-step makes of a slot -/

theorem addressing_eq_skip {s : State} {d : Slot} {reg : Word} (h : s.needAddressing d reg = false) :
    s.addressing d reg = .skip := by
  simp [State.addressing, h]

/-- A `W_BEGIN` that goes on to an address byte was decided so by the call that is outstanding, or now (R191). -/
theorem decided_of_wBegin {s : State} {c : Call} (hp : s.seq.phase = .wBegin) (hc : s.stepCall = some c)
    (ha : c.next ≠ .skip) :
    (∃ c, s.call = some c ∧ c.next ≠ .skip) ∨
      s.call = none ∧ s.needAddressing s.seq.d s.seq.reg = true := by
  have h0 : s.seq.n ≠ 0 := fun h0 => by simp [State.stepCall, hp, h0] at hc
  rw [stepCall_wBegin hp h0] at hc
  cases Option.some.inj hc
  cases hcall : s.call with
  | some c => exact .inl ⟨c, rfl, by simpa [hcall] using ha⟩
  | none =>
    rw [hcall] at ha
    exact .inr ⟨rfl, by_contra fun hneed => ha (addressing_eq_skip (Bool.eq_false_iff.2 hneed))⟩

/-- A move leaves every slot but that of the transaction as it is. -/
theorem Move.other_slot {s t : State} (h : Move s t) {e : Slot} (he : e ≠ s.seq.d) : t.slot e = s.slot e := by
  cases h with
  | calls => simp [slot_beforeCall, he]
  | ext => exact (slot_applyExt ..).trans (if_neg he)
  | _ => simp [he]

/-- What a move, one in `EXT` apart, makes of the slot of the transaction: the cache is set by the addressing
decision or advanced by a data byte, or the status is that of the release (R146, R172, R173). -/
theorem Move.own_slot {s t : State} (h : Move s t) (hext : s.seq.phase ≠ .ext) :
    t.slot s.seq.d = s.slot s.seq.d ∨
      (s.seq.phase = .wBegin ∧ (∃ c, s.call = some c ∧ c.next ≠ .skip) ∨
            (s.seq.phase = .wBegin ∨ s.seq.phase = .rStart) ∧ s.call = none ∧
              s.needAddressing s.seq.d s.seq.reg = true) ∧
          t.slot s.seq.d = { s.slot s.seq.d with cache := s.seq.reg } ∨
        (s.seq.phase = .wData ∨ s.seq.phase = .rDrain) ∧
          t.slot s.seq.d = { s.slot s.seq.d with cache := (s.slot s.seq.d).cache + 1 } ∨
        s.seq.phase = .release ∧
          t.slot s.seq.d = { s.slot s.seq.d with status := statusOfAck s.seq.ack } := by
  cases h with
  | ext hp => exact absurd hp hext
  | calls hn hr hc =>
    by_cases hp : s.seq.phase = .rStart
    · obtain ⟨-, hneed, -⟩ := (stepCall_rStart_iff hp hn).1 hc
      exact .inr (.inl ⟨.inr ⟨.inr hp, hn, hneed⟩, by simp [slot_beforeCall, hp]⟩)
    · exact .inl (by simp [slot_beforeCall, hp])
  | wBeginAddress hp hc hr ha =>
    exact .inr (.inl ⟨(decided_of_wBegin hp hc ha).imp (⟨hp, ·⟩) (⟨.inl hp, ·⟩), by simp⟩)
  | rStart hp hn hc =>
    obtain ⟨-, hneed, -⟩ := (stepCall_rStart_iff hp hn).1 hc
    exact .inr (.inl ⟨.inr ⟨.inr hp, hn, hneed⟩, by simp⟩)
  | wDataOk hp => exact .inr (.inr (.inl ⟨.inl hp, by simp⟩))
  | rDrainLast hp | rDrainMore hp => exact .inr (.inr (.inl ⟨.inr hp, by simp⟩))
  | release hp => exact .inr (.inr (.inr ⟨hp, by simp⟩))
  | _ => exact .inl (by simp)

/-! ### What a command makes of a cache -/

/-- Storing a slot with its old cache changes no cache. -/
theorem cache_setSlot {s : State} {d : Slot} {x : SlaveDescriptor} (hx : x.cache = (s.slot d).cache) (e : Slot) :
    ((s.setSlot d x).slot e).cache = (s.slot e).cache := by
  rw [slot_setSlot]
  split
  · next he => rw [he, hx]
  · rfl

/-- Of the commands only INIT writes a cache, to the sentinel (R175). -/
theorem Command.cache_cases {i : Instr} {s t : State} (h : Command s i t) (e : Slot) :
    (t.slot e).cache = (s.slot e).cache ∨ (t.slot e).cache = 0xFFFF ∧ ∃ a b, i = .init e a b := by
  cases h with
  | init d a b =>
    by_cases he : e = d
    · subst he
      exact .inr ⟨by simp [State.initSlot, Config.cacheSentinel], a, b, rfl⟩
    · exact .inl (by simp [he])
  | setaddr | setrsz | bindw | bindr | rejected => exact .inl (cache_setSlot (by rfl) e)
  | _ => exact .inl rfl

/-- Settles O44: a move leaves the other slots alone and changes that of the transaction as `Move.own_slot` says. -/
theorem cacheFollowsItsTransitionTable : Obligations.CacheFollowsItsTransitionTable := by
  refine ⟨fun s t e h hext => ?_, fun i s t e h => (exec_next h).cache_cases e⟩
  rcases microStep_next h with ⟨rfl, -⟩ | hm
  · exact .inl rfl
  by_cases he : e = s.seq.d
  · subst he
    exact (hm.own_slot hext).imp_right (⟨rfl, ·⟩)
  · exact .inl (hm.other_slot he)

end Sys2Proof.Machine
end

section
/-! PROOFS. The default write strategy (R190 to R195): each micro-step of it with a reply pending, and the whole
attempt. -/

namespace Sys2Proof.Machine

/-- An addressing phase is at most the two bytes of 16-bit mode (R171). -/
theorem addressingBytes_length_le_two (d : Slot) (reg : Word) (s : State) : (s.addressingBytes d reg).length ≤ 2 := by
  unfold State.addressingBytes phaseAddressBytes
  split_ifs <;> simp

/-- Settles O53: the micro-steps of the attempt end as `writeAttempt_ends` says, and an address has at most two
bytes. -/
theorem writeStrategyRefinesItsProcedure : Obligations.WriteStrategyRefinesItsProcedure := by
  intro s u ok hp hn h
  obtain ⟨-, -, i, k, hk, hrun⟩ := writeAttempt_ends (q := s.seq) hn hp ⟨rfl, rfl, rfl, rfl⟩ h
  have hlen := addressingBytes_length_le_two s.seq.d s.seq.reg s
  refine ⟨k, u.withSeq (s.seq.attemptEnd ok i), by omega, hrun, rfl, ?_, rfl, rfl, rfl, rfl, rfl, rfl⟩
  cases ok with
  | true => exact ⟨rfl, rfl⟩
  | false => rfl

/-- Settles O25: a zero count is a move without a call, and `W_BEGIN` with a reply pending is its opening. -/
theorem wBeginOpensAndDecides : Obligations.WBeginOpensAndDecides := by
  refine fun s hp => ⟨fun h0 => microStep_of_move (.zeroCount (.inl hp) h0), fun v vs h0 hn hr => ?_⟩
  have hm : s.microStep = _ := microStep_openForWrite hn hr hp h0
  constructor
  · intro ha
    rw [hm, if_pos ((needAddressing_iff ..).2 ha)]
    rfl
  · intro ha
    rw [hm, if_neg (mt (needAddressing_iff ..).1 ha)]
    rfl

/-- A register-address byte that is sent, in the phases of either strategy: taken unless the reply is zero. -/
theorem microStep_eq_of_addressByte {s : State} {v : Word} {vs : List Word} (hn : s.call = none)
    (hr : s.replies = v :: vs) {b : Byte} {q : Sequencer} (hb : s.seq.addressByte = some (b, q)) :
    s.microStep = .next
      { s with
        replies := vs
        trace := s.trace ++ [.wb b (v != 0)]
        seq := if v = 0 then { s.seq with phase := .attFail } else q } := by
  have hm : s.microStep = _ := microStep_addressByte hn hr hb
  by_cases hv : v = 0
  · rw [hm, (replyOk_false_iff v).2 hv, if_pos hv, bne_eq_false_iff_eq.2 hv]
    rfl
  · rw [hm, (replyOk_iff v).2 hv, if_neg hv, bne_iff_ne.2 hv]
    rfl

/-- Settles O26: both phases send a register-address byte. -/
theorem writeAddressBytes : Obligations.WriteAddressBytes := by
  intro s v vs hn hr
  constructor
  · intro hp
    rw [microStep_eq_of_addressByte hn hr (addressByte_wAhi hp)]
    split_ifs <;> rfl
  · intro hp
    exact microStep_eq_of_addressByte hn hr (addressByte_wAlo hp)

/-- Settles O27: a byte taken or a byte refused. -/
theorem wDataSendsOneByte : Obligations.WDataSendsOneByte := by
  intro s v vs hp hn hr
  have hm : s.microStep = _ := microStep_sendByte hn hr hp
  constructor
  · intro hv
    rw [hm, (replyOk_iff v).2 hv]
    rfl
  · intro hv
    rw [hm, (replyOk_false_iff v).2 hv]
    rfl

/-- Settles O28: the two moves of `W_END`, each after its call has returned. -/
theorem wEndCloses : Obligations.WEndCloses := by
  intro s v vs hp hn hr
  have hc : s.stepCall = some (.close true) := by rw [stepCall_wEnd hp, hn, Option.getD_none]
  by_cases hv : v = 0
  · rw [microStep_of_move (.wEndOk hp hc hr hv), returned_eq_called hn, if_pos hv]
    rfl
  · rw [microStep_of_move (.wEndFail hp hc hr hv), returned_eq_called hn, if_neg hv]
    rfl

end Sys2Proof.Machine
end

section
/-! PROOFS. The default read strategy (R210 to R216): the whole attempt, and each micro-step of it with a reply
pending. -/

namespace Sys2Proof.Machine

/-- Settles O54: the micro-steps of the attempt end as `readAttempt_ends` says. -/
theorem readStrategyRefinesItsProcedure : Obligations.ReadStrategyRefinesItsProcedure := by
  intro s u ok hp hn h
  obtain ⟨-, -, i, k, hk, hrun⟩ := readAttempt_ends (q := s.seq) hn hp ⟨rfl, rfl, rfl, rfl⟩ h
  refine ⟨k, u.withSeq (s.seq.attemptEnd ok i), hk, hrun, rfl, ?_, rfl, rfl, rfl, rfl, rfl, rfl⟩
  cases ok with
  | true => exact ⟨rfl, rfl⟩
  | false => rfl

/-- Settles O29: a zero count and an attempt that needs no addressing are moves without a call, and `R_START` with a
reply pending is its opening. -/
theorem rStartDecides : Obligations.RStartDecides := by
  refine fun s hp => ⟨fun h0 => microStep_of_move (.zeroCount (.inr hp) h0), fun h0 hn ha => ?_,
    fun v vs h0 hn hr hsize hreg => ?_⟩
  · exact microStep_of_move (.rStartSkip hp h0 hn ((needAddressing_false_iff ..).2 ha))
  · exact microStep_openForRead hn hr hp h0 ((needAddressing_iff ..).2 ⟨hsize, hreg⟩)

/-- Settles O30: two register-address bytes, and the two moves of `R_END`, each after its call has returned. -/
theorem readAddressBytesAndClose : Obligations.ReadAddressBytesAndClose := by
  intro s v vs hn hr
  refine ⟨fun hp => ?_, fun hp => ?_, fun hp => ?_⟩
  · rw [microStep_eq_of_addressByte hn hr (addressByte_rAhi hp)]
    split_ifs <;> rfl
  · rw [microStep_eq_of_addressByte hn hr (addressByte_rAlo hp)]
    split_ifs <;> rfl
  · have hc : s.stepCall = some (.close false) := by rw [stepCall_rEnd hp, hn, Option.getD_none]
    by_cases hv : v = 0
    · rw [microStep_of_move (.rEndOk hp hc hr hv), returned_eq_called hn, if_pos hv]
      rfl
    · rw [microStep_of_move (.rEndFail hp hc hr hv), returned_eq_called hn, if_neg hv]
      rfl

/-- Settles O31: the two moves of `R_REQ`, each after its call has returned. -/
theorem rReqRequests : Obligations.RReqRequests := by
  intro s v vs hp hn hr
  have hc : s.stepCall = some (.request (s.slot s.seq.d).address s.seq.n) := by
    rw [stepCall_rReq hp, hn, Option.getD_none]
  by_cases hv : v = 0
  · rw [microStep_of_move (.rReqFail hp hc hr hv), returned_eq_called hn, if_pos hv]
    rfl
  · rw [microStep_of_move (.rReqOk hp hc hr hv), returned_eq_called hn, if_neg hv]
    rfl

/-- Settles O32: `BUF` after the micro-step is one write at the index (R216), which `read_write_self` and
`read_write_ne` read back. -/
theorem rDrainTakesOneByte : Obligations.RDrainTakesOneByte := by
  intro s v vs hp hn hr hwf
  refine ⟨_, microStep_drain hn hr hp, read_write_self hwf _ _, fun a ha => read_write_ne hwf ha _, ?_⟩
  split_ifs <;> rfl

end Sys2Proof.Machine
end

section
/-! PROOFS. The status BUSY and the boolean failures (R232, R233). -/

namespace Sys2Proof.Machine

/-! ### Where the status BUSY comes from -/

/-- The status of a release is OK or NACK (R146). -/
theorem statusOfAck_ne_busy (ack : Bool) : statusOfAck ack ≠ statusBusy := by cases ack <;> decide

/-- A move, one in `EXT` apart, gives no slot the status BUSY. -/
theorem Move.status_busy {s t : State} (h : Move s t) (hext : s.seq.phase ≠ .ext) {e : Slot}
    (hb : (t.slot e).status = statusBusy) : (s.slot e).status = statusBusy := by
  by_cases he : e = s.seq.d
  · subst he
    rcases h.own_slot hext with hs | ⟨-, hs⟩ | ⟨-, hs⟩ | ⟨-, hs⟩ <;> rw [hs] at hb
    · exact hb
    · exact hb
    · exact hb
    · exact absurd hb (statusOfAck_ne_busy _)
  · rwa [h.other_slot he] at hb

/-- Storing a slot with its old status changes no status. -/
theorem status_setSlot {s : State} {d : Slot} {x : SlaveDescriptor} (hx : x.status = (s.slot d).status) (e : Slot) :
    ((s.setSlot d x).slot e).status = (s.slot e).status := by
  rw [slot_setSlot]
  split
  · next he => rw [he, hx]
  · rfl

/-- After a command a slot has the status it had, or the command is an INIT of it, which makes the status OK (R100),
or a WRITE or READ of it that found the flag set (R143). -/
theorem Command.status_cases {i : Instr} {s t : State} (h : Command s i t) (e : Slot) :
    (t.slot e).status = (s.slot e).status ∨ (t.slot e).status = statusOk ∨
      s.bus.busy = true ∧ i.isTransaction = true ∧ i.slot? = some e := by
  cases h with
  | init d a b =>
    by_cases he : e = d
    · subst he
      exact .inr (.inl (by simp [State.initSlot]))
    · exact .inl (by simp [he])
  | setaddr | setrsz | bindw | bindr => exact .inl (status_setSlot (by rfl) e)
  | rejected _ d a b hd hb hi =>
    by_cases he : e = d
    · subst he
      exact .inr (.inr ⟨hb, by rcases hi with rfl | rfl <;> exact ⟨rfl, rfl⟩⟩)
    · exact .inl (by simp [he])
  | _ => exact .inl rfl

/-- Settles O20: the rejection is a row of `Command`; for the converse no move outside `EXT` gives the status BUSY,
of the commands a rejection alone does, and no other input but reset writes a slot. -/
theorem busyOnlyByRejectedAdmission : Obligations.BusyOnlyByRejectedAdmission := by
  refine ⟨fun d a b s hd hb => ⟨exec_of_command (.rejected _ d a b hd hb (.inl rfl)),
    exec_of_command (.rejected _ d a b hd hb (.inr rfl))⟩, fun s t e hstep hext hreset hs ht => ?_⟩
  cases step_next hstep with
  | command hi hd he =>
    rcases (exec_next he).status_cases e with hsame | hok | ⟨hb, hw, hslot⟩
    · exact absurd (hsame.symm.trans ht) hs
    · exact absurd (hok.symm.trans ht) (by decide)
    · exact ⟨hb, _, _, _, _, hi, hd, hw, hslot⟩
  | micro hi hc hm =>
    rcases microStep_next hm with ⟨rfl, -⟩ | hm
    · exact absurd ht hs
    · exact absurd (hm.status_busy hext ht) hs
  | clock hi hn hc hf =>
    rcases finishSetspd_next hf with ⟨-, rfl⟩ | ⟨v, vs, -, -, rfl⟩
    · exact absurd ht hs
    · exact absurd ht hs
  | hostWrite | answer | strategyResult => exact absurd ht hs
  | reset hi => exact absurd hi (hreset _)

/-! ### The boolean failures -/

/-- Settles O12: the next state of SETADDR and of SETRSZ above its range, as O9 and O10 give it. -/
theorem booleanFailuresOfTheSetters : Obligations.BooleanFailuresOfTheSetters := by
  refine fun d a s hd => ⟨fun ha => ?_, fun ha => ?_⟩
  · obtain ⟨-, -, hexec⟩ := setaddrSetsTheAddress d a s hd
    exact ⟨_, hexec ha, rfl, rfl, fun _ => rfl, rfl, rfl, rfl⟩
  · obtain ⟨-, -, hexec⟩ := setrszSetsTheMode d a s hd
    refine ⟨_, hexec ha, rfl, ?_, status_setSlot (by rfl), rfl, rfl, rfl⟩
    exact congrArg SlaveDescriptor.registerSize (slot_setSlot_self d _ s)

end Sys2Proof.Machine
end

section
/-! PROOFS. Three hazards that the block keeps: the last register after INIT (R263), a transaction of zero bytes (R275),
and the retry of an attempt that fails at its addressing, request or first data byte (R264). -/

namespace Sys2Proof.Machine

/-! ### The last register -/

/-- Settles O56: INIT leaves 16-bit mode and the cache at the sentinel, which is the address of the last register. -/
theorem lastRegisterHazardIsKept : Obligations.LastRegisterHazardIsKept := by
  intro d a s t h
  cases exec_next h with
  | init =>
    have hslot : (((s.setSlot d (s.initSlot a 2)).countDraw a).respond 0).slot d = s.initSlot a 2 :=
      slot_setSlot_self d _ s
    have hsize : (s.initSlot a 2).registerSize ≠ 0 := (by decide : storedSize 2 ≠ 0)
    rw [needAddressing_false_iff, hslot]
    refine ⟨fun hneed => hneed.2 rfl, fun reg hreg => ?_⟩
    rw [needAddressing_iff, hslot]
    exact ⟨hsize, hreg⟩
  | admitted _ _ _ _ _ _ _ hi => simp at hi
  | rejected _ _ _ _ _ _ hi => simp at hi

/-! ### A transaction of zero bytes -/

section
variable {x : State} {q : Sequencer}

/-- An attempt on zero bytes is its dispatch and its count check (R144, R191, R211). -/
theorem zeroCount_attempt_fails (hp : q.phase = .attStart) (hsel : q.sel < 2) (h0 : q.n = 0) :
    (x.withSeq q).ReachesWithin 2 (x.withSeq (q.attemptEnd false q.i)) := by
  have hstart : (State.attStart (x.withSeq q)).seq.phase = .wBegin ∨
      (State.attStart (x.withSeq q)).seq.phase = .rStart := by
    by_cases hw : q.sel = 0
    · exact .inl (if_pos hw)
    · have hone : q.sel = 1 := by bv_omega
      exact .inr ((if_neg hw).trans (if_pos hone))
  exact .step (microStep_of_move (.attStart hp)) (.step (microStep_of_move (.zeroCount hstart h0)) (.refl 0 _))

/-- Every attempt on zero bytes fails, and the only calls are the delays between them (R145, R147). -/
theorem zeroCount_gives_up {delays rest : List Word} (hn : x.call = none) (hp : q.phase = .attStart)
    (hsel : q.sel < 2) (h0 : q.n = 0) (hlen : delays.length = q.retry.toNat) (hr : x.replies = delays ++ rest) :
    ∃ retry, (x.withSeq q).ReachesWithin (3 * delays.length + 3)
      ((x.exchange (List.replicate delays.length (.delay x.params.retryDelayMs)) rest x.buf).withSeq
        (q.attemptsEnd false q.i retry)) := by
  have hfails := zeroCount_attempt_fails (x := x) hp hsel h0
  induction delays generalizing x q with
  | nil =>
    have hretry : q.retry = 0 := BitVec.eq_of_toNat_eq hlen.symm
    refine ⟨q.retry, ?_⟩
    rw [List.length_nil, List.replicate_zero, exchange_nil (vs := rest) hr]
    exact hfails.trans (.step (microStep_gives_up hretry) (.refl 0 _))
  | cons v vs ih =>
    rw [List.length_cons] at hlen
    have hretry : q.retry ≠ 0 := by bv_omega
    have hless := toNat_sub_one_add_one hretry
    obtain ⟨retry, hrest⟩ := ih (x := x.called (.delay x.params.retryDelayMs) (vs ++ rest))
      (q := { q with phase := .attStart, retry := q.retry - 1 }) hn rfl hsel h0 (by dsimp only; omega) rfl
      (zeroCount_attempt_fails rfl hsel h0)
    have hall := hfails.trans (.step (microStep_delay hn hr hretry) hrest)
    rw [called_eq_exchange, exchange_exchange] at hall
    exact ⟨retry, hall.mono (by simp only [List.length_cons]; omega)⟩

end

/-- A run from the only input, a WRITE or READ that is admitted, is its admission and then micro-steps (R143). -/
theorem run_admits {c : Instr} {d : Slot} {dir : Direction} {reg n : Word} {s : State}
    (hc : c = .write d reg n ∧ dir = .write ∨ c = .read d reg n ∧ dir = .read)
    (hi : s.inputs = [.command .main (encode c)]) (hn : s.call = none) (hk : s.clockCall = none)
    (hp : s.seq.phase = .idle) (hb : s.bus.busy = false) (hd : d.toNat < s.params.nDesc) (k : Nat) :
    Sys2Proof.core.run (k + 1) s = (s.admitted d dir reg n).microRun k := by
  have htaken : s.nextInput = some (.command .main (encode c), []) := nextInput_head hi (by
    rw [takes_command, accepts_iff]
    exact ⟨hk, fun _ => hp, holdsBack_none hn _⟩)
  have hstep : Sys2Proof.core.step s = .next (s.admitted d dir reg n) :=
    (step_runs ((decode_eq_ok_iff _ _).2 rfl) htaken).trans
      (exec_of_command (.admitted (s := { s with inputs := [] }) c d dir reg n hd hb hc))
  simp only [Host.Core.run, hstep]
  exact run_eq_microRun (s := s.admitted d dir reg n) rfl hk k

/-- The end of a transaction that fails, when nothing but calls was made since the admission (R140, R146). -/
theorem finishTransaction_of_no_ack {d : Slot} {dir : Direction} {reg n : Word} {s : State}
    (hb : s.bus.busy = false) (es : List Event) (vs : List Word) (q : Sequencer) :
    (((s.admitted d dir reg n).exchange es vs s.buf).finishTransaction d false).withSeq q =
      { s.setSlot d { s.slot d with status := 2 } with
        seq := q
        inputs := []
        replies := vs
        trace := s.trace ++ es
        responses := s.responses ++ [2] } := by
  have hbus : { s.bus with busy := false } = s.bus := by rw [← hb]
  simp [State.finishTransaction, State.withSeq, State.exchange, State.admitted, State.loadSequencer, State.setBusy,
    State.setSlot, State.slot, endStatus, hbus]

/-- Settles O52: the admission, the attempts with a delay before each but the first, and the release. -/
theorem zeroCountEndsNack : Obligations.ZeroCountEndsNack := by
  intro d reg s c dir delays rest hc hi hn hk hp hb hd hsel hlen hr
  obtain ⟨retry, hreach⟩ := zeroCount_gives_up (x := s.admitted d dir reg 0)
    (q := (s.admitted d dir reg 0).seq) hn rfl hsel rfl hlen hr
  rw [hlen] at hreach
  have hend := (hreach.trans (.step (microStep_release rfl) (.refl 0 _))).microRun_eq rfl
  have hstate := finishTransaction_of_no_ack (d := d) (dir := dir) (reg := reg) (n := 0) hb
    (List.replicate s.bus.retries.toNat (.delay s.params.retryDelayMs)) rest
  exact ⟨_, (run_admits hc hi hn hk hp hb hd _).trans (hend.trans (congrArg _ (hstate _))), rfl, rfl⟩

/-! ### The retry of an attempt that fails before a data byte -/

/-- The replies on which an attempt fails from its addressing phase on with no data byte moved: a register-address byte
or the first data byte is refused, the close of the addressing phase fails, or the request gives a zero count (R231,
R264). -/
inductive FailsUnmoved : Sequencer → List Word → Prop
  | refused {q q' : Sequencer} {b : Byte} (hb : q.addressByte = some (b, q')) : FailsUnmoved q [0]
  | taken {q q' : Sequencer} {b : Byte} {v : Word} {vs : List Word} (hb : q.addressByte = some (b, q')) (hv : v ≠ 0)
      (h : FailsUnmoved q' vs) : FailsUnmoved q (v :: vs)
  | data {q : Sequencer} (hp : q.phase = .wData) : FailsUnmoved q [0]
  | close {q : Sequencer} {v : Word} (hp : q.phase = .rEnd) (hv : v ≠ 0) : FailsUnmoved q [v]
  | closed {q : Sequencer} {vs : List Word} (hp : q.phase = .rEnd) (h : FailsUnmoved { q with phase := .rReq } vs) :
      FailsUnmoved q (0 :: vs)
  | request {q : Sequencer} (hp : q.phase = .rReq) : FailsUnmoved q [0]

/-- After `k` micro-steps from `x` with the sequencer at `q` the attempt has failed, `rest` is left of the replies, and
the slots are as they were. -/
def FailsAfter (k : Nat) (x : State) (q : Sequencer) (rest : List Word) : Prop :=
  ∃ (u : State) (i : Word), (x.withSeq q).microRun k = .next (u.withSeq (q.attemptEnd false i)) ∧
    u.call = none ∧ u.desc = x.desc ∧ u.replies = rest

section
variable {x y : State} {q q' : Sequencer} {k : Nat} {rest : List Word}

theorem FailsAfter.last {i : Word} (hm : (x.withSeq q).microStep = .next (y.withSeq (q.attemptEnd false i)))
    (hn : y.call = none) (hd : y.desc = x.desc) (hr : y.replies = rest) : FailsAfter 1 x q rest :=
  ⟨y, i, microRun_succ hm 0, hn, hd, hr⟩

theorem FailsAfter.step (hm : (x.withSeq q).microStep = .next (y.withSeq q')) (h : FailsAfter k y q' rest)
    (hd : y.desc = x.desc) (hq : ∀ i, q'.attemptEnd false i = q.attemptEnd false i) :
    FailsAfter (k + 1) x q rest := by
  obtain ⟨u, i, hrun, hn, hdesc, hr⟩ := h
  exact ⟨u, i, (microRun_succ hm k).trans (hq i ▸ hrun), hn, hdesc.trans hd, hr⟩

/-- Sending a register-address byte changes only what the end of an attempt sets. -/
theorem attemptEnd_of_addressByte {b : Byte} (hb : q.addressByte = some (b, q')) (ok : Bool) (i : Word) :
    q'.attemptEnd ok i = q.attemptEnd ok i := by
  cases hp : q.phase <;> simp only [Sequencer.addressByte, hp, reduceCtorEq, Option.some.injEq, Prod.mk.injEq] at hb
  all_goals
    obtain ⟨-, rfl⟩ := hb
    rfl

/-- The micro-step of `R_END`: a status of zero goes on to the request, any other fails the attempt (R214). -/
theorem microStep_readClose {v : Word} {vs : List Word} (hn : x.call = none) (hr : x.replies = v :: vs)
    (hp : q.phase = .rEnd) :
    (x.withSeq q).microStep = .next ((x.called (.close false v) vs).withSeq
      (if v = 0 then { q with phase := .rReq } else q.attemptEnd false q.i)) := by
  obtain ⟨-, -, hclose⟩ := readAddressBytesAndClose (x.withSeq q) v vs hn hr
  rw [hclose hp]
  split_ifs <;> rfl

/-- Such an attempt has failed when it has got these replies. -/
theorem FailsUnmoved.failsAfter {vs : List Word} (h : FailsUnmoved q vs) (hn : x.call = none)
    (hr : x.replies = vs ++ rest) : FailsAfter vs.length x q rest := by
  induction h generalizing x with
  | @refused q _ _ hb => exact .last (i := q.i) (microStep_addressByte hn hr hb) hn rfl rfl
  | taken hb hv _ ih =>
    have hm := microStep_addressByte hn hr hb
    rw [(replyOk_iff _).2 hv] at hm
    exact .step hm (ih hn rfl) rfl (attemptEnd_of_addressByte hb false)
  | data hp => exact .last (microStep_sendByte hn hr hp) hn rfl rfl
  | close hp hv =>
    have hm := microStep_readClose hn hr hp
    rw [if_neg hv] at hm
    exact .last hm hn rfl rfl
  | closed hp _ ih => exact .step (microStep_readClose hn hr hp) (ih hn rfl) rfl fun _ => rfl
  | @request q hp =>
    exact .last (y := x.called (.req (x.slot q.d).address q.n 0) rest) (i := q.i)
      (rReqRequests (x.withSeq q) 0 rest hp hn hr) hn rfl rfl

end

/-- Of `n` register-address bytes those that `oks` answers are taken; the next one is refused or, when all are taken,
the attempt fails from `e` on the replies `fail`. -/
def FailsWithin (n : Nat) (e : Sequencer) (fail oks : List Word) : Prop :=
  oks.length < n ∧ fail = [0] ∨ oks.length = n ∧ FailsUnmoved e fail

section
variable {q q' e : Sequencer} {fail oks : List Word}

theorem FailsWithin.failsUnmoved_of_zero (h : FailsWithin 0 e fail oks) : FailsUnmoved e (oks ++ fail) := by
  rcases h with ⟨hlt, -⟩ | ⟨hnil, hf⟩
  · exact absurd hlt (Nat.not_lt_zero _)
  · rw [List.length_eq_zero_iff.1 hnil]
    exact hf

/-- The first of the bytes is refused, or taken with one byte fewer to send. -/
theorem FailsWithin.failsUnmoved_of_byte {n : Nat} {b : Byte} (hb : q.addressByte = some (b, q'))
    (hok : ∀ v ∈ oks, v ≠ 0) (h : FailsWithin (n + 1) e fail oks)
    (hnext : ∀ vs, (∀ v ∈ vs, v ≠ 0) → FailsWithin n e fail vs → FailsUnmoved q' (vs ++ fail)) :
    FailsUnmoved q (oks ++ fail) := by
  cases oks with
  | nil =>
    rcases h with ⟨-, rfl⟩ | ⟨hlen, -⟩
    · exact .refused hb
    · cases hlen
  | cons v vs =>
    have hfewer : FailsWithin n e fail vs := by simpa [FailsWithin] using h
    exact .taken hb (hok v (by simp)) (hnext vs (fun w hw => hok w (by simp [hw])) hfewer)

/-- An addressing phase of two bytes in 16-bit mode and of the low one else (R44, R171). -/
theorem FailsWithin.failsUnmoved {size : BitVec 2} {reg : Word} {high low : Phase} {b b' : Byte}
    (hhigh : Sequencer.addressByte { q with phase := high } = some (b, { q with phase := low }))
    (hlow : Sequencer.addressByte { q with phase := low } = some (b', e)) (hok : ∀ v ∈ oks, v ≠ 0)
    (h : FailsWithin (phaseAddressBytes size reg).length e fail oks) :
    FailsUnmoved { q with phase := if size = 2 then high else low } (oks ++ fail) := by
  have one (vs : List Word) (hvs : ∀ v ∈ vs, v ≠ 0) (hone : FailsWithin 1 e fail vs) :
      FailsUnmoved { q with phase := low } (vs ++ fail) :=
    hone.failsUnmoved_of_byte hlow hvs fun _ _ hzero => hzero.failsUnmoved_of_zero
  unfold phaseAddressBytes at h
  by_cases hs : size = 2
  · rw [if_pos hs] at h ⊢
    exact FailsWithin.failsUnmoved_of_byte hhigh hok h one
  · rw [if_neg hs] at h ⊢
    exact one oks hok h

end

/-- The first micro-step of an attempt that needs addressing: the sequencer goes to phase `p`, the cache of its slot
holds the requested address, and `vs` is left of the replies (R191, R211). -/
structure OpensAddressing (s y : State) (p : Phase) (vs : List Word) : Prop where
  step : s.microStep = .next (y.withSeq { s.seq with phase := p })
  call : y.call = none
  replies : y.replies = vs
  cache : (y.slot s.seq.d).cache = s.seq.reg

section
variable {s : State} {v : Word} {vs : List Word}

theorem opensAddressing_of_wBegin (hp : s.seq.phase = .wBegin) (hn : s.call = none) (h0 : s.seq.n ≠ 0)
    (ha : s.needAddressing s.seq.d s.seq.reg = true) (hr : s.replies = v :: vs) :
    ∃ y, OpensAddressing s y (if (s.slot s.seq.d).registerSize = 2 then .wAhi else .wAlo) vs := by
  have hm := microStep_openForWrite hn hr hp h0
  rw [if_pos ha] at hm
  exact ⟨_, hm, hn, rfl, by simp⟩

theorem opensAddressing_of_rStart (hp : s.seq.phase = .rStart) (hn : s.call = none) (h0 : s.seq.n ≠ 0)
    (ha : s.needAddressing s.seq.d s.seq.reg = true) (hr : s.replies = v :: vs) :
    ∃ y, OpensAddressing s y (if (s.slot s.seq.d).registerSize = 2 then .rAhi else .rAlo) vs :=
  ⟨_, microStep_openForRead hn hr hp h0 ha, hn, rfl, by simp⟩

end

/-- The causes of R264 in the terms of `FailsWithin`: all address bytes may be taken, and then a write attempt fails at
its first data byte, a read attempt at its close or its request. -/
theorem failsWithin_cases {q : Sequencer} {n : Nat} {oks fail : List Word}
    (h : q.phase = .wBegin ∧ fail = [0] ∧ oks.length ≤ n ∨ q.phase = .rStart ∧ fail = [0] ∧ oks.length < n ∨
      q.phase = .rStart ∧ (fail = [0, 0] ∨ ∃ st, st ≠ 0 ∧ fail = [st]) ∧ oks.length = n) :
    q.phase = .wBegin ∧ FailsWithin n { q with i := 0, phase := .wData } fail oks ∨
      q.phase = .rStart ∧ FailsWithin n { q with phase := .rEnd } fail oks := by
  rcases h with ⟨hp, rfl, hle⟩ | ⟨hp, rfl, hlt⟩ | ⟨hp, rfl | ⟨st, hst, rfl⟩, hlen⟩
  · exact .inl ⟨hp, (Nat.lt_or_eq_of_le hle).imp (⟨·, rfl⟩) (⟨·, .data rfl⟩)⟩
  · exact .inr ⟨hp, .inl ⟨hlt, rfl⟩⟩
  · exact .inr ⟨hp, .inr ⟨hlen, .closed rfl (.request rfl)⟩⟩
  · exact .inr ⟨hp, .inr ⟨hlen, .close rfl hst⟩⟩

/-- Settles O57: the opening sets the cache, the micro-steps up to the failure leave the slots alone, and so does the
delay. -/
theorem retrySkipsTheFailedAddressing : Obligations.RetrySkipsTheFailedAddressing := by
  intro s opened oks fail rest hn h0 hsize hreg hok hr h
  have ha : s.needAddressing s.seq.d s.seq.reg = true := (needAddressing_iff ..).2 ⟨hsize, hreg⟩
  rw [addressingBytes_of_need ha] at h
  obtain ⟨y, p, hopens, hfails⟩ : ∃ y p, OpensAddressing s y p (oks ++ (fail ++ rest)) ∧
      FailsUnmoved { s.seq with phase := p } (oks ++ fail) := by
    rcases failsWithin_cases h with ⟨hp, hf⟩ | ⟨hp, hf⟩
    · obtain ⟨y, hy⟩ := opensAddressing_of_wBegin hp hn h0 ha hr
      exact ⟨y, _, hy, hf.failsUnmoved (addressByte_wAhi rfl) (addressByte_wAlo rfl) hok⟩
    · obtain ⟨y, hy⟩ := opensAddressing_of_rStart hp hn h0 ha hr
      exact ⟨y, _, hy, hf.failsUnmoved (addressByte_rAhi rfl) (addressByte_rAlo rfl) hok⟩
  obtain ⟨u, i, hrun, hcall, hdesc, hrest⟩ :=
    hfails.failsAfter hopens.call (hopens.replies.trans (List.append_assoc ..).symm)
  have hcache : (u.slot s.seq.d).cache = s.seq.reg := by rw [slot_congr hdesc, hopens.cache]
  have hskip : u.needAddressing s.seq.d s.seq.reg = false :=
    (needAddressing_false_iff ..).2 fun hneed => hneed.2 hcache.symm
  have hfailed := (microRun_succ hopens.step _).trans hrun
  rw [List.length_append, Nat.add_comm, ← Nat.add_assoc] at hfailed
  refine ⟨_, hfailed, rfl, rfl, rfl, rfl, rfl, hrest, hcache, hskip, fun delay vs hretry hvs => ?_⟩
  have hdelay := microStep_delay (q := { s.seq with phase := p }) (i := i) hcall (hrest.trans hvs) hretry
  exact ⟨_, hdelay, rfl, rfl, rfl, rfl, hskip⟩

end Sys2Proof.Machine
end
